-- ==== Sys2Proof/Word.lean ====
section
/-! DEFINITION. The octet, the addressable unit of every space (20_memory.md R61), and the masking key,
four octets in wire order (10_state.md R28, 30_encoding.md R94). -/

namespace Sys2Proof

/-- A byte is an octet of 8 bits, bits 7 down to 0 (00_scope.md R6). -/
abbrev Byte := BitVec 8

/-- The masking key of a frame: `k0` is the first octet on the wire (10_state.md R28). It is not a number
(20_memory.md R62). -/
structure Key where
  k0 : Byte
  k1 : Byte
  k2 : Byte
  k3 : Byte
deriving DecidableEq, Repr, Inhabited

end Sys2Proof
end

