-- ==== Sys2Proof/Config.lean ====
section
/-! DEFINITION. The parameters of the block (00_scope.md R5) and the free values: what an implementation fixes
at creation, and what the rules leave to the outside world. -/

namespace Sys2Proof

/-- `ROLE`, given by the handshake at creation and read-only after (10_state.md R35). -/
inductive Role where
  | server
  | client
deriving DecidableEq, Repr

/-- `PONG_MODE` (00_scope.md R5): resend the Ping with its opcode rewritten (44_frame_writer.md R206), or build a
new Pong through the writer (R207). -/
inductive PongMode where
  | passthrough
  | fresh
deriving DecidableEq, Repr

/-- What `TWrite` and `TClose` answer beside a count: `T_OK` or `T_ERR(e)`, `e` opaque
(20_memory.md R67, R68). -/
inductive SendStatus where
  | ok
  | err (e : Nat)
deriving DecidableEq, Repr, Inhabited

/-- The arguments of 00_scope.md R5, written once at creation and never after (10_state.md R20). -/
structure Config where
  /-- `RBUF_SIZE`, the size of the read buffer in octets. -/
  rbufSize : Nat
  /-- `ROLE`. -/
  role : Role
  /-- `RSV_ENFORCE`: whether non-zero RSV bits on receive are a protocol error. -/
  rsvEnforce : Bool
  /-- `MASK_ENFORCE`: whether a MASK bit that contradicts the sender's role is a protocol error. -/
  maskEnforce : Bool
  /-- `PONG_MODE`. -/
  pongMode : PongMode
  /-- `WBUF_CAP`, the capacity of the write buffer; `none` is unbounded. -/
  wbufCap : Option Nat
  /-- `PRELOAD`, the trailing octets of the handshake. -/
  preload : List Byte
deriving DecidableEq, Repr

/-- `MAX_LEN` = 2^62 - 1, the greatest legal payload length (00_scope.md R5). -/
abbrev maxLen : Nat := 4611686018427387903

/-- `CLOSE_CAP`, most octets of a Close payload that are read (00_scope.md R5). -/
abbrev closeCap : Nat := 128

/-- `DIRECT_MARGIN` (00_scope.md R5, 43_frame_reader.md R174). -/
abbrev directMargin : Nat := 16

/-- `NORMAL_STATUS`, the status code of normal closure (00_scope.md R5). -/
abbrev normalStatus : Nat := 1000

/-- The least legal `RBUF_SIZE` (00_scope.md R5). -/
abbrev minRbufSize : Nat := 32

/-- The parameters' defaults (00_scope.md R5). `ROLE` has no default there: `SERVER` is the start state of
95_test_vectors.md (DESIGN CHOICE, log entry 6). -/
def Config.standard : Config where
  rbufSize := 4096
  role := .server
  rsvEnforce := false
  maskEnforce := false
  pongMode := .passthrough
  wbufCap := none
  preload := []

/-- Creation is refused unless `RBUF_SIZE ≥ 32` and `|PRELOAD| ≤ RBUF_SIZE` (00_scope.md R5,
70_reset_and_hazards.md R292, 93_implementation_defined.md U20 and U21). -/
def Config.legal (c : Config) : Bool :=
  decide (minRbufSize ≤ c.rbufSize) && decide (c.preload.length ≤ c.rbufSize)

/-- FREE VALUE. The key the random source draws when the inputs hold no draw: "a draw under no law"
(20_memory.md R69). Applied to the state's draw counter (log entry 8). -/
opaque Config.freeKey : Nat → Key

/-- FREE VALUE. What `TClose` answers when the inputs hold no answer: a draw (20_memory.md R68). Applied to the
state's draw counter (log entry 8). -/
opaque Config.freeCloseAnswer : Nat → SendStatus

end Sys2Proof
end

