-- ==== Sys2Proof/Syntax.lean ====
section
/-! DEFINITION. The instructions: one constructor per row of the opcode table. A wire row is a received frame,
whose header is the instruction word (30_encoding.md R96); a command row is a host command (R104). -/

namespace Sys2Proof

/-- The length part of a header: the 7-bit field and the extended length it announces (30_encoding.md R92, R93).
`short` holds 0..125, `ext16` is len7 = 126, `ext64` is len7 = 127. -/
inductive LenField where
  | short (v : BitVec 7)
  | ext16 (v : BitVec 16)
  | ext64 (v : BitVec 64)
deriving DecidableEq, Repr

/-- A frame header less its opcode: FIN, the three reserved bits (RSV1 the highest), the length, and the key,
present iff the MASK bit is set (30_encoding.md R91 to R94). -/
structure Head where
  fin : Bool
  rsv : BitVec 3
  len : LenField
  key : Option Key
deriving DecidableEq, Repr

/-- The instructions of opcode_table.json: 16 wire opcodes (30_encoding.md R96) and 13 host commands (R104). -/
inductive Instr where
  -- received frames
  | cont (h : Head)
  | text (h : Head)
  | bin (h : Head)
  | rsvd3 (h : Head)
  | rsvd4 (h : Head)
  | rsvd5 (h : Head)
  | rsvd6 (h : Head)
  | rsvd7 (h : Head)
  | close (h : Head)
  | ping (h : Head)
  | pong (h : Head)
  | rsvdB (h : Head)
  | rsvdC (h : Head)
  | rsvdD (h : Head)
  | rsvdE (h : Head)
  | rsvdF (h : Head)
  -- R port
  | readFrameHeader
  | readRawFrameHeader
  | appendFrame (n : Nat)
  | read (n : Nat)
  -- W port
  | writeFrame (payload : List Byte) (op : BitVec 4) (final : Bool)
  | write (payload : List Byte)
  | closeWriter (status : BitVec 16)
  | closeConn
  -- C port
  | parseHeader (buf : List Byte) (st : Nat)
  | parseLength (bits : BitVec 16) (buf : List Byte) (i : Nat)
  | readMask (bits : BitVec 16) (buf : List Byte) (i : Nat)
  | encodeHeader (op : BitVec 4) (fin : Bool) (masked : Bool) (key : Key) (payloadLen : BitVec 62)
  | mask (buf : List Byte) (key : Key) (offset : Nat)
deriving DecidableEq, Repr

/-- The operands beside a command code on a port. The spec gives the operands of each command and no encoding of
them (30_encoding.md R104, 92_eei_decisions.md D26), so a port carries each as a value of its own
(DESIGN CHOICE, log entry 4). A command reads only its own operands. -/
structure Operands where
  n : Nat
  payload : List Byte
  op : BitVec 4
  final : Bool
  status : BitVec 16
  buf : List Byte
  index : Nat
  bits : BitVec 16
  masked : Bool
  key : Key
  payloadLen : BitVec 62
deriving DecidableEq, Repr

/-- A command as the host issues it: the 8-bit code and the operands. -/
structure Command where
  code : Byte
  operands : Operands
deriving DecidableEq, Repr

/-- Where an instruction's bits come from: octets of the RX stream, or a command port. -/
inductive Code where
  | frame (octets : List Byte)
  | command (c : Command)
deriving DecidableEq, Repr

end Sys2Proof
end

