-- ==== Sys2Proof/WellFormed.lean ====
section
/-! DEFINITION. Which terms stand for instructions: the bounds the encodings put on their fields. -/

namespace Sys2Proof

/-- The 7-bit field itself holds 0..125 (126 and 127 announce an extended length), and a 64-bit length is at most
`MAX_LEN` (30_encoding.md R93, R101). Non-minimal forms are well formed (R100). -/
def LenField.wellFormed : LenField → Bool
  | .short v => decide (v.toNat ≤ 125)
  | .ext16 _ => true
  | .ext64 v => decide (v.toNat ≤ maxLen)

/-- Every opcode may appear in every format (30_encoding.md R92); only the length field is bounded. -/
def Head.wellFormed (h : Head) : Bool := h.len.wellFormed

/-- A frame's header is well formed; `PARSE_HEADER`'s `st` is an index with `st ≤ |buf|` (40_header_codec.md R120).
Every other operand's range is its type's. -/
def Instr.wellFormed : Instr → Bool
  | .cont h => h.wellFormed
  | .text h => h.wellFormed
  | .bin h => h.wellFormed
  | .rsvd3 h => h.wellFormed
  | .rsvd4 h => h.wellFormed
  | .rsvd5 h => h.wellFormed
  | .rsvd6 h => h.wellFormed
  | .rsvd7 h => h.wellFormed
  | .close h => h.wellFormed
  | .ping h => h.wellFormed
  | .pong h => h.wellFormed
  | .rsvdB h => h.wellFormed
  | .rsvdC h => h.wellFormed
  | .rsvdD h => h.wellFormed
  | .rsvdE h => h.wellFormed
  | .rsvdF h => h.wellFormed
  | .readFrameHeader => true
  | .readRawFrameHeader => true
  | .appendFrame _ => true
  | .read _ => true
  | .writeFrame _ _ _ => true
  | .write _ => true
  | .closeWriter _ => true
  | .closeConn => true
  | .parseHeader buf st => decide (st ≤ buf.length)
  | .parseLength _ _ _ => true
  | .readMask _ _ _ => true
  | .encodeHeader _ _ _ _ _ => true
  | .mask _ _ _ => true

end Sys2Proof
end

