-- ==== Sys2Proof/Decode.lean ====
section
/-! DEFINITION. The header and length codec (40_header_codec.md, component A), the decoder of received frames and
of command codes, and the encoder. All pure functions over octet sequences (R120 to R127). -/

namespace Sys2Proof

/-! ### Octets and numbers (00_scope.md R6, 20_memory.md R62) -/

/-- `be16(B)` and `be64(B)` of 00_scope.md R6: big-endian, unsigned. -/
def beNat : List Byte → Nat
  | [] => 0
  | b :: bs => b.toNat * 256 ^ bs.length + beNat bs

/-- `BE16(v)`: `v[15:8], v[7:0]`. -/
def be16 (v : Nat) : List Byte := [BitVec.ofNat 8 (v / 256), BitVec.ofNat 8 v]

/-- `BE64(v)`: `v[63:56]` first to `v[7:0]` last. -/
def be64 (v : Nat) : List Byte :=
  [BitVec.ofNat 8 (v / 256 ^ 7), BitVec.ofNat 8 (v / 256 ^ 6), BitVec.ofNat 8 (v / 256 ^ 5),
   BitVec.ofNat 8 (v / 256 ^ 4), BitVec.ofNat 8 (v / 256 ^ 3), BitVec.ofNat 8 (v / 256 ^ 2),
   BitVec.ofNat 8 (v / 256), BitVec.ofNat 8 v]

/-- The identity key `00 00 00 00` (40_header_codec.md R122, 92_eei_decisions.md D6). -/
def Key.zero : Key := ⟨0, 0, 0, 0⟩

/-- The key's octets in wire order. -/
def Key.octets (k : Key) : List Byte := [k.k0, k.k1, k.k2, k.k3]

/-! ### Fields of the base header `H` (30_encoding.md R91): first octet in `H[15:8]` -/

def hdrFin (bits : BitVec 16) : Bool := bits.getLsbD 15
def hdrRsv (bits : BitVec 16) : BitVec 3 := bits.extractLsb' 12 3
def hdrOpcode (bits : BitVec 16) : BitVec 4 := bits.extractLsb' 8 4
def hdrMask (bits : BitVec 16) : Bool := bits.getLsbD 7
def hdrLen7 (bits : BitVec 16) : BitVec 7 := bits.extractLsb' 0 7

/-! ### The three parsers (R120 to R122) -/

/-- What a parser answers: a value and the next index, the sentinel `NEED_MORE` (R124), or `OVERSIZE` (R121). -/
inductive Parse (α : Type) where
  | ok (value : α) (next : Nat)
  | needMore
  | oversize
deriving DecidableEq, Repr

/-- The numeric `next`: -1 for the sentinel (R124, 92_eei_decisions.md D5). `OVERSIZE` has no next index. -/
def Parse.nextIndex {α : Type} : Parse α → Option Int
  | .ok _ next => some next
  | .needMore => some (-1)
  | .oversize => none

/-- `parseHeader(buf, st)` (R120): two octets, first octet high (92_eei_decisions.md D4). -/
def parseHeader (buf : List Byte) (st : Nat) : Parse (BitVec 16) :=
  match buf.drop st with
  | b0 :: b1 :: _ => .ok (b0 ++ b1) (st + 2)
  | _ => .needMore

/-- `parseLength(bits, buf, i)` (R121). The bound is tested only once all eight octets are there. -/
def parseLength (bits : BitVec 16) (buf : List Byte) (i : Nat) : Parse Nat :=
  let len7 := (hdrLen7 bits).toNat
  if len7 ≤ 125 then .ok len7 i
  else if len7 = 126 then
    if i + 2 > buf.length then .needMore
    else .ok (beNat ((buf.drop i).take 2)) (i + 2)
  else if i + 8 > buf.length then .needMore
  else
    let v := beNat ((buf.drop i).take 8)
    if v > maxLen then .oversize else .ok v (i + 8)

/-- `readMask(bits, buf, i)` (R122): the identity key when the MASK bit is clear (92_eei_decisions.md D6). -/
def readMask (bits : BitVec 16) (buf : List Byte) (i : Nat) : Parse Key :=
  if hdrMask bits then
    match buf.drop i with
    | k0 :: k1 :: k2 :: k3 :: _ => .ok ⟨k0, k1, k2, k3⟩ (i + 4)
    | _ => .needMore
  else .ok Key.zero i

/-! ### The encoder (R123) -/

/-- The smallest form that fits (R103, R123): 7-bit up to 125, 16-bit up to 65535, else 64-bit. -/
def minimalLen (L : Nat) : LenField :=
  if L ≤ 125 then .short (BitVec.ofNat 7 L)
  else if L ≤ 65535 then .ext16 (BitVec.ofNat 16 L)
  else .ext64 (BitVec.ofNat 64 L)

/-- len7 of a length part (30_encoding.md R92). -/
def LenField.len7 : LenField → BitVec 7
  | .short v => v
  | .ext16 _ => 126
  | .ext64 _ => 127

/-- The extended length octets (30_encoding.md R92). -/
def LenField.ext : LenField → List Byte
  | .short _ => []
  | .ext16 v => be16 v.toNat
  | .ext64 v => be64 v.toNat

/-- The payload length announced (30_encoding.md R93). -/
def LenField.length : LenField → Nat
  | .short v => v.toNat
  | .ext16 v => v.toNat
  | .ext64 v => v.toNat

/-- The base header of a frame as the 16-bit word `H` (30_encoding.md R91). -/
def Head.bits (h : Head) (op : BitVec 4) : BitVec 16 :=
  (BitVec.ofBool h.fin ++ h.rsv ++ op : BitVec 8) ++ (BitVec.ofBool h.key.isSome ++ h.len.len7 : BitVec 8)

/-- The header's key octets: four iff the MASK bit is set (30_encoding.md R94). -/
def Head.keyOctets (h : Head) : List Byte :=
  match h.key with
  | some k => k.octets
  | none => []

/-- The octets of a header, in wire order (30_encoding.md R90). -/
def Head.octets (h : Head) (op : BitVec 4) : List Byte :=
  (BitVec.ofBool h.fin ++ h.rsv ++ op : BitVec 8) :: (BitVec.ofBool h.key.isSome ++ h.len.len7 : BitVec 8)
    :: h.len.ext ++ h.keyOctets

/-- `headerSize(bits)` (R126): 2, and 0, 2 or 8 by len7, and 4 if MASK. -/
def headerSize (bits : BitVec 16) : Nat :=
  2 + (if (hdrLen7 bits).toNat ≤ 125 then 0 else if (hdrLen7 bits).toNat = 126 then 2 else 8)
    + (if hdrMask bits then 4 else 0)

/-- `encodeHeader(op, fin, masked, key, payloadLen)` (R123): RSV bits 0, minimal length form, the key read only
when `masked`. The opcode is not validated (92_eei_decisions.md D7). -/
def encodeHeader (op : BitVec 4) (fin masked : Bool) (key : Key) (L : Nat) : List Byte :=
  Head.octets { fin := fin, rsv := 0, len := minimalLen L, key := if masked then some key else none } op

/-! ### The whole header (R125, 43_frame_reader.md R162) -/

/-- What the header parse with the optional checks answers (43_frame_reader.md R162). -/
inductive Checked where
  | ok (bits : BitVec 16) (len : Nat) (key : Key) (next : Nat)
  | needMore
  | reservedBits
  | maskViolation
  | oversize
deriving DecidableEq, Repr

/-- The length and key steps, after the base header (R125, R162). -/
def parseRest (bits : BitVec 16) (buf : List Byte) (p : Nat) : Checked :=
  match parseLength bits buf p with
  | .needMore => .needMore
  | .oversize => .oversize
  | .ok len q =>
    match readMask bits buf q with
    | .ok key next => .ok bits len key next
    | .needMore => .needMore
    | .oversize => .oversize

/-- `parseFull(buf, st)` (R125). -/
def parseFull (buf : List Byte) (st : Nat) : Checked :=
  match parseHeader buf st with
  | .ok bits p => parseRest bits buf p
  | .needMore => .needMore
  | .oversize => .oversize

/-- The MASK bit contradicts the peer's role (30_encoding.md R99): a server expects 1, a client 0. -/
def maskContradicts (role : Role) (bits : BitVec 16) : Bool :=
  match role with
  | .server => !hdrMask bits
  | .client => hdrMask bits

/-- `parseFull'(buf, st)` (43_frame_reader.md R162): the optional checks stand between the base header and the
length, RSV before MASK. -/
def parseChecked (cfg : Config) (buf : List Byte) (st : Nat) : Checked :=
  match parseHeader buf st with
  | .ok bits p =>
    if cfg.rsvEnforce && hdrRsv bits != 0 then .reservedBits
    else if cfg.maskEnforce && maskContradicts cfg.role bits then .maskViolation
    else parseRest bits buf p
  | .needMore => .needMore
  | .oversize => .oversize

/-! ### Instructions from bits -/

/-- The head a parsed header stands for: the form of the length is the one len7 names. -/
def Head.ofParsed (bits : BitVec 16) (len : Nat) (key : Key) : Head where
  fin := hdrFin bits
  rsv := hdrRsv bits
  len :=
    if (hdrLen7 bits).toNat ≤ 125 then .short (hdrLen7 bits)
    else if (hdrLen7 bits).toNat = 126 then .ext16 (BitVec.ofNat 16 len)
    else .ext64 (BitVec.ofNat 64 len)
  key := if hdrMask bits then some key else none

/-- The wire rows of the opcode map (30_encoding.md R96): every one of the 16 values has a row. -/
def Instr.ofWire (op : BitVec 4) (h : Head) : Instr :=
  match op.toNat with
  | 0 => .cont h
  | 1 => .text h
  | 2 => .bin h
  | 3 => .rsvd3 h
  | 4 => .rsvd4 h
  | 5 => .rsvd5 h
  | 6 => .rsvd6 h
  | 7 => .rsvd7 h
  | 8 => .close h
  | 9 => .ping h
  | 10 => .pong h
  | 11 => .rsvdB h
  | 12 => .rsvdC h
  | 13 => .rsvdD h
  | 14 => .rsvdE h
  | _ => .rsvdF h

/-- What decoding answers: an instruction and the octets its header takes (0 for a command), or a rejection by
name. -/
inductive Decoded where
  | ok (i : Instr) (size : Nat)
  | needMore
  | reservedBits
  | maskViolation
  | oversize
  | unknownCommand
deriving DecidableEq, Repr

/-- Decoding a received frame's header under the parameters in force (43_frame_reader.md R162, R163). -/
def decodeFrame (cfg : Config) (octets : List Byte) : Decoded :=
  match parseChecked cfg octets 0 with
  | .ok bits len key next => .ok (Instr.ofWire (hdrOpcode bits) (Head.ofParsed bits len key)) next
  | .needMore => .needMore
  | .reservedBits => .reservedBits
  | .maskViolation => .maskViolation
  | .oversize => .oversize

/-- Decoding a command code (30_encoding.md R104); any other code is refused (45_facade.md R237). -/
def decodeCommand (c : Command) : Option Instr :=
  let o := c.operands
  match c.code.toNat with
  | 0x01 => some .readFrameHeader
  | 0x02 => some .readRawFrameHeader
  | 0x03 => some (.appendFrame o.n)
  | 0x04 => some (.read o.n)
  | 0x10 => some (.writeFrame o.payload o.op o.final)
  | 0x11 => some (.write o.payload)
  | 0x12 => some (.closeWriter o.status)
  | 0x13 => some .closeConn
  | 0x20 => some (.parseHeader o.buf o.index)
  | 0x21 => some (.parseLength o.bits o.buf o.index)
  | 0x22 => some (.readMask o.bits o.buf o.index)
  | 0x23 => some (.encodeHeader o.op o.final o.masked o.key o.payloadLen)
  | 0x24 => some (.mask o.buf o.key o.n)
  | _ => none

/-- Decoding, total on any bits, rejecting by name. -/
def decode (cfg : Config) : Code → Decoded
  | .frame octets => decodeFrame cfg octets
  | .command c =>
    match decodeCommand c with
    | some i => .ok i 0
    | none => .unknownCommand

/-! ### The encoder of instructions -/

/-- Every operand zero or empty. -/
def Operands.zero : Operands where
  n := 0
  payload := []
  op := 0
  final := false
  status := 0
  buf := []
  index := 0
  bits := 0
  masked := false
  key := Key.zero
  payloadLen := 0

/-- The words of an instruction: a frame's header octets (30_encoding.md R90 to R96), or a command's code with its
operands (R104). -/
def encode : Instr → Code
  | .cont h => .frame (h.octets 0)
  | .text h => .frame (h.octets 1)
  | .bin h => .frame (h.octets 2)
  | .rsvd3 h => .frame (h.octets 3)
  | .rsvd4 h => .frame (h.octets 4)
  | .rsvd5 h => .frame (h.octets 5)
  | .rsvd6 h => .frame (h.octets 6)
  | .rsvd7 h => .frame (h.octets 7)
  | .close h => .frame (h.octets 8)
  | .ping h => .frame (h.octets 9)
  | .pong h => .frame (h.octets 10)
  | .rsvdB h => .frame (h.octets 11)
  | .rsvdC h => .frame (h.octets 12)
  | .rsvdD h => .frame (h.octets 13)
  | .rsvdE h => .frame (h.octets 14)
  | .rsvdF h => .frame (h.octets 15)
  | .readFrameHeader => .command ⟨0x01, Operands.zero⟩
  | .readRawFrameHeader => .command ⟨0x02, Operands.zero⟩
  | .appendFrame n => .command ⟨0x03, { Operands.zero with n := n }⟩
  | .read n => .command ⟨0x04, { Operands.zero with n := n }⟩
  | .writeFrame payload op final =>
    .command ⟨0x10, { Operands.zero with payload := payload, op := op, final := final }⟩
  | .write payload => .command ⟨0x11, { Operands.zero with payload := payload }⟩
  | .closeWriter status => .command ⟨0x12, { Operands.zero with status := status }⟩
  | .closeConn => .command ⟨0x13, Operands.zero⟩
  | .parseHeader buf st => .command ⟨0x20, { Operands.zero with buf := buf, index := st }⟩
  | .parseLength bits buf i => .command ⟨0x21, { Operands.zero with bits := bits, buf := buf, index := i }⟩
  | .readMask bits buf i => .command ⟨0x22, { Operands.zero with bits := bits, buf := buf, index := i }⟩
  | .encodeHeader op fin masked key payloadLen =>
    .command ⟨0x23, { Operands.zero with
      op := op, final := fin, masked := masked, key := key, payloadLen := payloadLen }⟩
  | .mask buf key offset => .command ⟨0x24, { Operands.zero with buf := buf, key := key, n := offset }⟩

/-! ### Words as the opcode table numbers them -/

/-- The octets of a wire row's 16-bit word `w`, first octet in `w[15:8]` (30_encoding.md R96), then zeros up to the
longest header, 14 octets (R102). -/
def tableOctets (w : Nat) : List Byte :=
  be16 w ++ List.replicate 12 0

/-- The command of a command row's 8-bit code, with operands of zeros. -/
def tableCommand (w : Nat) : Command := ⟨BitVec.ofNat 8 w, Operands.zero⟩

/-- The instruction the decoder reads from an opcode-table word: 16 bits for a wire row, 8 for a command row. -/
def decodeTableWord (nbits w : Nat) : Option Instr :=
  if nbits = 16 then
    match decodeFrame Config.standard (tableOctets w) with
    | .ok i _ => some i
    | _ => none
  else if nbits = 8 then decodeCommand (tableCommand w)
  else none

end Sys2Proof
end

