-- ==== Sys2Proof/Machine/Memory.lean ====
section
/-! DEFINITION. The octet spaces of the block (20_memory.md R60): a space is a list of (index, octet) pairs in one
canonical form, indices strictly rising. An unlisted index holds no value (10_state.md R21, R31, R32;
93_implementation_defined.md U10), so reading it answers none (log entry 7). -/

namespace Sys2Proof.Machine

/-- A space of octets. -/
abbrev Memory := List Host.Cell

/-- The canonical form: indices strictly rising. No entry can equal what an unlisted index reads as, since that is
no value. -/
def Memory.wf (m : Memory) : Bool := decide ((m.map Prod.fst).Pairwise (· < ·))

/-- One octet, or none where the index holds no value. -/
def Memory.readByte : Memory → Nat → Option Byte
  | [], _ => none
  | (b, v) :: m, a => if a = b then some v else Memory.readByte m a

/-- Write one octet, keeping the indices rising. -/
def Memory.writeByte : Memory → Nat → Byte → Memory
  | [], a, v => [(a, v)]
  | (b, w) :: m, a, v =>
    if a < b then (a, v) :: (b, w) :: m
    else if a = b then (a, v) :: m
    else (b, w) :: Memory.writeByte m a v

/-- `MemRead(a, n)` (00_scope.md R7): the octets of `[a, a+n)`, or none if one of them holds no value. -/
def Memory.readBytes (m : Memory) (a : Nat) : Nat → Option (List Byte)
  | 0 => some []
  | n + 1 =>
    match m.readByte a with
    | none => none
    | some v =>
      match Memory.readBytes m (a + 1) n with
      | none => none
      | some vs => some (v :: vs)

/-- `MemWrite(a, |v|, v)` (00_scope.md R7). -/
def Memory.writeBytes (m : Memory) (a : Nat) : List Byte → Memory
  | [] => m
  | v :: vs => Memory.writeBytes (m.writeByte a v) (a + 1) vs

/-- The move of a compaction (42_read_buffer.md R150, R155): the octets of `[shift, hi)` go down by `shift`, and
nothing at or above `hi - shift` holds a value afterwards (10_state.md R21). -/
def Memory.slide (m : Memory) (shift hi : Nat) : Memory :=
  (m.filter fun c => decide (shift ≤ c.1) && decide (c.1 < hi)).map fun c => (c.1 - shift, c.2)

end Sys2Proof.Machine
end

