-- ==== Sys2Proof/Machine/State.lean ====
section
/-! DEFINITION. The state of the block (10_state.md), its inputs and observations (R45, R47), the reasons a step
stops, and the state after reset (R46). -/

namespace Sys2Proof.Machine

/-! ### Statuses (60_exceptions.md R250) -/

/-- The error `TRANSPORT` carries: `T_TIMEOUT` or the transport's opaque `e` (60_exceptions.md R259). -/
inductive TransportError where
  | timeout
  | other (e : Nat)
deriving DecidableEq, Repr

/-- The status kinds of 60_exceptions.md R250. `PANIC` is a fault (R263), not a status. -/
inductive Status where
  | ok
  | endOfPayload
  | needMore
  | endOfStream
  | closeStatus (code : BitVec 16) (reason : List Byte)
  | protocolReservedBits
  | protocolUnknownOpcode
  | protocolOversizeLength
  | protocolMaskViolation
  | malformedClose
  | transport (e : TransportError)
  | shortWrite
  | cancelled
  | misuse
deriving DecidableEq, Repr

/-! ### Registers -/

/-- `RSTATE` (10_state.md R29, 43_frame_reader.md R160). -/
inductive RState where
  | betweenFrames
  | inDataFrame
  | closed
deriving DecidableEq, Repr

/-- The reader-side state, mutated under the read mutex (10_state.md R20 to R31). -/
structure ReaderRegs where
  /-- The read buffer (R21). -/
  RBUF : Memory
  /-- Start of the current frame header (R22). -/
  ST : Nat
  /-- Next unread octet (R23). -/
  I : Nat
  /-- High-water mark of filled octets (R24). -/
  END : Nat
  /-- Offset of the first payload octet; may be negative (R25). -/
  START : Int
  /-- Payload octets not yet consumed (R26). -/
  MORE : Nat
  /-- Header bits of the current frame (R27). -/
  HDR : BitVec 16
  /-- Masking key of the current frame (R28). -/
  KEY : Key
  /-- The reader's state (R29). -/
  RSTATE : RState
  /-- The status that closed the reader (R30). -/
  RERR : Status
  /-- Scratch for the Close payload (R31). -/
  CBUF : Memory
deriving DecidableEq, Repr

/-- The writer-side state, mutated under the write mutex (10_state.md R20, R32 to R34). -/
structure WriterRegs where
  /-- The write buffer (R32). -/
  WBUF : Memory
  /-- Length of the frame being composed (R32). -/
  WLEN : Nat
  /-- Write-side closed flag (R33). -/
  WCLOSED : Bool
  /-- Transport closed (R34). -/
  TCLOSED : Bool
deriving DecidableEq, Repr

/-! ### Locks and suspended commands (20_memory.md R76, R78) -/

/-- Who may hold a lock. -/
inductive Agent where
  | reader
  | writer
deriving DecidableEq, Repr

/-- The command on whose behalf the reader fetches headers (43_frame_reader.md R163): `raw = 1` is
`rawFrameHeader`. -/
inductive HeaderCall where
  | frameHeader
  | rawFrameHeader
  | read (n : Nat)
deriving DecidableEq, Repr

/-- The command on whose behalf payload is delivered to `out` (43_frame_reader.md R172, 45_facade.md R230). -/
inductive DataCall where
  | appendFrame
  | read
deriving DecidableEq, Repr

/-- Where a header command stands: in the loop of `fetchHeader` (43_frame_reader.md R161); in `processPing`, before
it has the write lock (44_frame_writer.md R205); with the Pong in `TWrite` (R206, R207); in `skip`
(43_frame_reader.md R175); in `processClose`'s delivery of `want` octets, `got` of them in `CBUF` (R176). -/
inductive HeaderPhase where
  | fetch
  | ping
  | pongWrite
  | skip
  | close (want got : Nat)
deriving DecidableEq, Repr

/-- The reader's place in the running R-port command. `deliver` holds the octets already in the host's `out`. -/
inductive RUnit where
  | idle
  | header (call : HeaderCall) (phase : HeaderPhase)
  | deliver (call : DataCall) (want : Nat) (out : List Byte)
deriving DecidableEq, Repr

/-- The W-port command that sends a frame. -/
inductive WriteCall where
  | writeFrame
  | write
  | closeWriter
  | closeConn
deriving DecidableEq, Repr

/-- The writer's place in the running W-port command: its frame, of header size `hs` and payload length `len`, is in
`TWrite` (44_frame_writer.md R201). -/
inductive WUnit where
  | idle
  | sending (call : WriteCall) (hs len : Nat)
deriving DecidableEq, Repr

/-! ### Inputs and observations (10_state.md R45, R47) -/

/-- What the transport's receive side answers next (20_memory.md R66). A status other than `T_OK` comes with no
octet. -/
inductive RxAnswer where
  | data (octets : List Byte)
  | eof
  | timeout
  | err (e : Nat)
deriving DecidableEq, Repr

/-- What the transport's send side answers next: the octets it accepts, at most those given, and a status
(20_memory.md R67). -/
structure TxAnswer where
  accept : Nat
  status : SendStatus
deriving DecidableEq, Repr

/-- The status of a `TRead` (20_memory.md R66). -/
inductive ReadStatus where
  | ok
  | eof
  | timeout
  | err (e : Nat)
deriving DecidableEq, Repr

/-- One move of an agent (00_scope.md R11). -/
inductive Event where
  /-- The reader takes a step. Idle, it takes the `pick`th of the commands that wait for `RLOCK`: which one gets a freed
  lock is the schedule's choice (20_memory.md R76). -/
  | reader (pick : Nat)
  /-- The writer takes a step, likewise. -/
  | writer (pick : Nat)
  /-- The host issues a command. -/
  | host (c : Command)
  /-- The host drives `cancel_fired` (20_memory.md R70). -/
  | cancel (level : Bool)
  /-- The transport's receive side has an answer. -/
  | rx (a : RxAnswer)
  /-- The transport's send side has an answer to a `TWrite`. -/
  | tx (a : TxAnswer)
  /-- The transport has an answer to a `TClose`. -/
  | closeAnswer (a : SendStatus)
  /-- The random source has a draw. -/
  | rand (k : Key)
deriving DecidableEq, Repr

/-- The inputs that stand ready: the transport's answers, the random source's draws and the level of
`cancel_fired`. None of it is state of the block (10_state.md R47). -/
structure Inputs where
  rx : List RxAnswer
  tx : List TxAnswer
  closes : List SendStatus
  rand : List Key
  cancelFired : Bool
  /-- The model's counter of free values used (log entry 8). -/
  draws : Nat
deriving DecidableEq, Repr

/-- One transaction with the transport (20_memory.md R66 to R68, 70_reset_and_hazards.md R312). -/
inductive Transaction where
  | read (cap : Nat) (octets : List Byte) (status : ReadStatus)
  | write (frame : List Byte) (accepted : Nat) (status : SendStatus)
  | close (status : SendStatus)
deriving DecidableEq, Repr

/-- What a command returns to the host (30_encoding.md R104). -/
inductive Result where
  /-- `(op, fin, len)` of a header command. -/
  | header (op : BitVec 4) (fin : Bool) (len : Nat)
  /-- `(got, status)` with `out[0..got)`. -/
  | delivered (out : List Byte) (status : Status)
  /-- `(n, status)` of a write. -/
  | written (n : Nat) (status : Status)
  /-- A status alone. -/
  | status (s : Status)
  /-- The C port's answers (40_header_codec.md R120 to R123, 41_masking.md R140). -/
  | bits (bits : BitVec 16) (next : Nat)
  | length (len : Nat) (next : Nat)
  | key (key : Key) (next : Nat)
  | octets (octets : List Byte)
  /-- `OVERSIZE` of `parseLength` (40_header_codec.md R121). -/
  | oversize
deriving DecidableEq, Repr

/-- A result with the code of the command it answers. -/
structure Response where
  code : Byte
  result : Result
deriving DecidableEq, Repr

/-! ### The state -/

/-- The state in the groups of 10_state.md R20, with the locks, the suspended commands, and the inputs and
observations that the model holds as data. -/
structure State where
  cfg : Config
  r : ReaderRegs
  w : WriterRegs
  RLOCK : Option Agent
  WLOCK : Option Agent
  reader : RUnit
  writer : WUnit
  /-- Commands waiting for `RLOCK` (45_facade.md R236). -/
  rWait : List Instr
  /-- Commands waiting for `WLOCK`. -/
  wWait : List Instr
  /-- What moves next, in order. -/
  events : List Event
  env : Inputs
  /-- Results returned to the host, newest first. -/
  responses : List Response
  /-- Transactions with the transport, newest first. -/
  trace : List Transaction
deriving DecidableEq, Repr

/-- Why a step stops with a fault. -/
inductive Fault where
  /-- `PANIC` (60_exceptions.md R263), raised by `processPing` when a Ping's header and payload exceed `RBUF_SIZE`
  (44_frame_writer.md R205) and by `fill` when it makes no room (42_read_buffer.md R150). Safe: the spec gives the
  fault, and no state after it. -/
  | panic
  /-- An octet without a value was read (10_state.md R21: "a model should treat a read of one as a fault of the
  model"), raised by every read of RBUF, CBUF and WBUF. Safe: no state that a run reaches raises it. -/
  | noValue
deriving DecidableEq, Repr

/-- Why an instruction is refused. -/
inductive Refusal where
  /-- No meaning yet, by mnemonic; raised by exec's arms alone. Safe. -/
  | notModelled (mnemonic : String)
  /-- A received frame was executed while no header command fetches (43_frame_reader.md R163), raised by the frames'
  meanings. Safe: no step calls a frame's meaning then (log entry 12). -/
  | notFetching
deriving DecidableEq, Repr

/-- A new connection (10_state.md R46, 70_reset_and_hazards.md R290 to R292). `RERR` has no value there: `OK` is the
model's (DESIGN CHOICE, log entry 5). -/
def State.initial (cfg : Config) : State where
  cfg := cfg
  r := {
    RBUF := Memory.writeBytes [] 0 cfg.preload
    ST := 0
    I := 0
    END := cfg.preload.length
    START := 0
    MORE := 0
    HDR := 0x0000
    KEY := ⟨0, 0, 0, 0⟩
    RSTATE := .betweenFrames
    RERR := .ok
    CBUF := [] }
  w := { WBUF := [], WLEN := 0, WCLOSED := false, TCLOSED := false }
  RLOCK := none
  WLOCK := none
  reader := .idle
  writer := .idle
  rWait := []
  wWait := []
  events := []
  env := { rx := [], tx := [], closes := [], rand := [], cancelFired := false, draws := 0 }
  responses := []
  trace := []

/-- Creation by the handshake, refused for an illegal configuration (70_reset_and_hazards.md R292,
92_eei_decisions.md D2, D34). -/
def State.create (cfg : Config) : Option State :=
  if cfg.legal then some (State.initial cfg) else none

/-- The state right after reset: a connection with the parameters' defaults. -/
def State.reset : State := State.initial Config.standard

end Sys2Proof.Machine
end

