-- ==== Sys2Proof/Machine/Flags.lean ====
section
/-! DEFINITION. The statuses commands end with: how a transport answer, a Close payload or a count turns into a
status (43_frame_reader.md R173, R176, R177; 44_frame_writer.md R203), and the numeric codes of statuses, states
and commands (92_eei_decisions.md D25, D26, D28). The flags of `HDR` are read in Decode.lean
(`hdrFin`, `hdrRsv`, `hdrOpcode`, `hdrMask`, `hdrLen7`). -/

namespace Sys2Proof.Machine

/-- `terr(s)` (43_frame_reader.md R177): a timeout is relabelled when the cancellation token has fired. -/
def terr (cancelFired : Bool) : ReadStatus → Status
  | .ok => .ok
  | .eof => .endOfStream
  | .timeout => if cancelFired then .cancelled else .transport .timeout
  | .err e => .transport (.other e)

/-- The status part of `eofRule(got, s)` (43_frame_reader.md R173): an end of stream is swallowed when octets were
delivered in the same call. -/
def eofRule (cancelFired : Bool) (got : Nat) (s : ReadStatus) : Status :=
  if s = .eof ∧ got > 0 then .ok else terr cancelFired s

/-- The payload count of `result(tn, ts, hs, L)` (44_frame_writer.md R203): `max(0, tn - hs)`. -/
def payloadWritten (tn hs : Nat) : Nat := tn - hs

/-- The status of `result` (44_frame_writer.md R203) and of the Pong's write (R206): the transport's error before
`SHORT_WRITE`. `size` is the number of octets handed over. -/
def writeStatus (ts : SendStatus) (tn size : Nat) : Status :=
  match ts with
  | .err e => .transport (.other e)
  | .ok => if tn < size then .shortWrite else .ok

/-- The status of `TClose` (44_frame_writer.md R210). -/
def closeTransportStatus : SendStatus → Status
  | .ok => .ok
  | .err e => .transport (.other e)

/-- What the octets obtained of a Close payload mean (43_frame_reader.md R176, 30_encoding.md R95). -/
def closeStatusOf : List Byte → Status
  | [] => .endOfStream
  | [_] => .malformedClose
  | a :: b :: reason =>
    if reason = [] ∧ beNat [a, b] = normalStatus then .endOfStream
    else .closeStatus (a ++ b) reason

/-- The 8-bit codes of the status kinds (60_exceptions.md R250, 92_eei_decisions.md D25). -/
def Status.code : Status → Byte
  | .ok => 0x00
  | .endOfPayload => 0x01
  | .needMore => 0x02
  | .endOfStream => 0x10
  | .closeStatus _ _ => 0x11
  | .protocolReservedBits => 0x20
  | .protocolUnknownOpcode => 0x21
  | .protocolOversizeLength => 0x22
  | .protocolMaskViolation => 0x23
  | .malformedClose => 0x24
  | .transport _ => 0x30
  | .shortWrite => 0x31
  | .cancelled => 0x32
  | .misuse => 0x40

/-- The code of the fault `PANIC` (60_exceptions.md R250). -/
def panicCode : Byte := 0xFF

/-- `RSTATE` codes (92_eei_decisions.md D28). -/
def RState.code : RState → Nat
  | .betweenFrames => 0
  | .inDataFrame => 1
  | .closed => 2

/-- `ROLE` codes: `ROLE` equals the MASK bit it sends (92_eei_decisions.md D28). -/
def roleCode : Role → Nat
  | .server => 0
  | .client => 1

/-- `PONG_MODE` codes (92_eei_decisions.md D28). -/
def pongModeCode : PongMode → Nat
  | .passthrough => 0
  | .fresh => 1

/-- The command code a header command's response carries (30_encoding.md R104). -/
def headerCallCode : HeaderCall → Byte
  | .frameHeader => 0x01
  | .rawFrameHeader => 0x02
  | .read _ => 0x04

/-- The command code a delivery's response carries (30_encoding.md R104). -/
def dataCallCode : DataCall → Byte
  | .appendFrame => 0x03
  | .read => 0x04

/-- The command code a write's response carries (30_encoding.md R104). -/
def writeCallCode : WriteCall → Byte
  | .writeFrame => 0x10
  | .write => 0x11
  | .closeWriter => 0x12
  | .closeConn => 0x13

end Sys2Proof.Machine
end

