-- ==== Sys2Proof/Machine/Mask.lean ====
section
/-! DEFINITION. The masking primitive (41_masking.md, component B). Masking and unmasking are the same operation. -/

namespace Sys2Proof.Machine

/-- `key[j mod 4]` (41_masking.md R140). -/
def keyOctet (key : Key) (j : Nat) : Byte :=
  match j % 4 with
  | 0 => key.k0
  | 1 => key.k1
  | 2 => key.k2
  | _ => key.k3

/-- `mask(buf, key, offset)` (41_masking.md R140): octet `j` of `buf` is XORed with `key[(offset + j) mod 4]`. -/
def mask (buf : List Byte) (key : Key) (offset : Nat) : List Byte :=
  match buf with
  | [] => []
  | b :: bs => (b ^^^ keyOctet key offset) :: mask bs key (offset + 1)

end Sys2Proof.Machine
end

