-- ==== Sys2Proof/Machine/Operands.lean ====
section
/-! DEFINITION. The operands of frames and commands: what a header announces (30_encoding.md R90 to R94), what a
delivery wants, which payloads are refused, and the frame a payload becomes. -/

namespace Sys2Proof.Machine

/-- The number of octets of a header, 2, 4, 6, 8, 10 or 14 (30_encoding.md R90, R102). -/
def headSize (h : Head) : Nat :=
  2 + h.len.ext.length + h.keyOctets.length

/-- The key a header latches: the identity key when MASK is clear (10_state.md R28). -/
def headKey (h : Head) : Key := h.key.getD Key.zero

/-- The payload length a header latches (30_encoding.md R93). -/
def headLength (h : Head) : Nat := h.len.length

/-- `want` of `deliver(dst, n)` (43_frame_reader.md R171). -/
def deliveryWant (n more : Nat) : Nat := min n more

/-- `I - START`, the mask offset, which counts the octets already delivered (10_state.md R39). It is never negative
in a state a run reaches (log entry 28). -/
def maskOffset (r : ReaderRegs) : Nat := ((r.I : Int) - r.START).toNat

/-- `need`, the index one past the current frame's last octet (44_frame_writer.md R205). -/
def frameEnd (r : ReaderRegs) : Nat := r.I + r.MORE

/-- Payloads `writeFrame` refuses with `MISUSE` (44_frame_writer.md R200, 45_facade.md R237): over 2^62 - 1 octets,
or over a bounded `WBUF_CAP` less 14. -/
def payloadRefused (cfg : Config) (payload : List Byte) : Bool :=
  decide (payload.length > maxLen) ||
    match cfg.wbufCap with
    | none => false
    | some cap => decide (14 + payload.length > cap)

/-- The status `closeWriter` sends: 1000 if zero (44_frame_writer.md R209). -/
def closeCode (status : BitVec 16) : Nat :=
  if status = 0 then normalStatus else status.toNat

/-- The frame `sendFrame` composes, header and payload, masked in the client role with `key`
(44_frame_writer.md R201). -/
def frameHeader (role : Role) (key : Key) (payload : List Byte) (op : BitVec 4) (final : Bool) : List Byte :=
  encodeHeader op final (role = .client) key payload.length

/-- The payload octets `sendFrame` puts after the header (44_frame_writer.md R201 steps 5 and 6). -/
def framePayload (role : Role) (key : Key) (payload : List Byte) : List Byte :=
  match role with
  | .server => payload
  | .client => mask payload key 0

/-- The Ping's first octet with its opcode nibble rewritten to 10, FIN and RSV kept (44_frame_writer.md R206). -/
def pongOctet (b : Byte) : Byte := (b &&& 0xF0) ||| 0x0A

end Sys2Proof.Machine
end

