-- ==== Sys2Proof/Machine/Ops.lean ====
section
/-! DEFINITION. The operations the meanings share: the ports `TRead`, `TWrite`, `TClose`, `Rand4`
(20_memory.md R66 to R69), responses and locks, the read buffer (42_read_buffer.md), the latch of a header, fatal
statuses ("trap entry", 60_exceptions.md R268) and the composition of a frame. -/

namespace Sys2Proof.Machine

/-- What a meaning answers. -/
abbrev Outcome := Host.Outcome State Fault Refusal

/-- One move of a running command: it goes on, it waits for the transport or a lock (20_memory.md R78), or the
machine stops. -/
inductive Move where
  | go (s : State)
  | wait (s : State)
  | halt (o : Outcome)

/-- A move as the outcome of a step: a waiting command stays in State. -/
def Move.outcome : Move → Outcome
  | .go s => .next s
  | .wait s => .next s
  | .halt o => o

/-- An outcome as a move of the command it belongs to. -/
def moveOf : Outcome → Move
  | .next s => .go s
  | .fault f => .halt (.fault f)
  | .refused r => .halt (.refused r)

/-! ### Responses and locks -/

/-- Hand a result to the host. -/
def respond (code : Byte) (result : Result) (s : State) : State :=
  { s with responses := ⟨code, result⟩ :: s.responses }

/-- `acquire(RLOCK)` (20_memory.md R76): a command that finds the lock held waits. -/
def acquireRead (i : Instr) (s : State) (k : State → Outcome) : Outcome :=
  match s.RLOCK with
  | some _ => .next { s with rWait := s.rWait ++ [i] }
  | none => k s

/-- `acquire(WLOCK)` (20_memory.md R76). -/
def acquireWrite (i : Instr) (s : State) (k : State → Outcome) : Outcome :=
  match s.WLOCK with
  | some _ => .next { s with wWait := s.wWait ++ [i] }
  | none => k s

/-- The running R-port command returns: response, then `release(RLOCK)`. -/
def endRead (code : Byte) (result : Result) (s : State) : State :=
  respond code result { s with RLOCK := none, reader := .idle }

/-- The running W-port command returns: response, then `release(WLOCK)`. -/
def endWrite (code : Byte) (result : Result) (s : State) : State :=
  respond code result { s with WLOCK := none, writer := .idle }

/-! ### The ports -/

/-- Record a transaction. -/
def logTransaction (t : Transaction) (s : State) : State := { s with trace := t :: s.trace }

/-- `TRead(cap)` (20_memory.md R66): none while the transport has not answered. A chunk longer than `cap` is cut to
it and the rest stays for the next `TRead`. -/
def tRead (cap : Nat) (s : State) : Option (List Byte × ReadStatus × State) :=
  match s.env.rx with
  | [] => none
  | .data d :: rest =>
    let left := if d.length ≤ cap then rest else .data (d.drop cap) :: rest
    some (d.take cap, .ok,
      logTransaction (.read cap (d.take cap) .ok) { s with env := { s.env with rx := left } })
  | .eof :: rest =>
    some ([], .eof, logTransaction (.read cap [] .eof) { s with env := { s.env with rx := rest } })
  | .timeout :: rest =>
    some ([], .timeout, logTransaction (.read cap [] .timeout) { s with env := { s.env with rx := rest } })
  | .err e :: rest =>
    some ([], .err e, logTransaction (.read cap [] (.err e)) { s with env := { s.env with rx := rest } })

/-- `TWrite(B)` (20_memory.md R67): none while the transport has not answered; it accepts at most `|B|`. -/
def tWrite (frame : List Byte) (s : State) : Option (Nat × SendStatus × State) :=
  match s.env.tx with
  | [] => none
  | a :: rest =>
    let n := min a.accept frame.length
    some (n, a.status,
      logTransaction (.write frame n a.status) { s with env := { s.env with tx := rest } })

/-- `TClose()` (20_memory.md R68). It is no suspension point (R78): with no answer ready its status is a free
value. -/
def tClose (s : State) : SendStatus × State :=
  match s.env.closes with
  | a :: rest => (a, logTransaction (.close a) { s with env := { s.env with closes := rest } })
  | [] =>
    let a := Config.freeCloseAnswer s.env.draws
    (a, logTransaction (.close a) { s with env := { s.env with draws := s.env.draws + 1 } })

/-- `Rand4()` (20_memory.md R69). With no draw ready the key is a free value. -/
def rand4 (s : State) : Key × State :=
  match s.env.rand with
  | k :: rest => (k, { s with env := { s.env with rand := rest } })
  | [] => (Config.freeKey s.env.draws, { s with env := { s.env with draws := s.env.draws + 1 } })

/-! ### The read buffer (42_read_buffer.md) -/

/-- The slide of `fill` (R150): from `I` down to 0; `ST` is decreased but not below 0 (90_conflicts.md C4). -/
def slideFromI (r : ReaderRegs) : ReaderRegs :=
  { r with
    RBUF := r.RBUF.slide r.I r.END
    ST := r.ST - r.I
    I := 0
    END := r.END - r.I
    START := r.START - r.I }

/-- `fill()` (R150), none for `PANIC`. -/
def fill (s : State) : Option State :=
  let r := if s.r.I ≥ s.r.END / 2 then slideFromI s.r else s.r
  if r.END = s.cfg.rbufSize then none else some { s with r := r }

/-- `readOnce()` (R151): one `TRead` of the free room, none while the transport has not answered. -/
def readOnce (s : State) : Option (Nat × ReadStatus × State) :=
  match tRead (s.cfg.rbufSize - s.r.END) s with
  | none => none
  | some (d, st, s') =>
    some (d.length, st,
      { s' with r := { s'.r with RBUF := s'.r.RBUF.writeBytes s'.r.END d, END := s'.r.END + d.length } })

/-- `compactFromST()` (R155): the header octets `RBUF[ST..I)` are kept. -/
def compactFromST (s : State) : State :=
  { s with r := { s.r with
      RBUF := s.r.RBUF.slide s.r.ST s.r.END
      ST := 0
      I := s.r.I - s.r.ST
      END := s.r.END - s.r.ST
      START := s.r.START - s.r.ST } }

/-! ### The reader's shared steps -/

/-- Entry of `fetchHeader` (43_frame_reader.md R161): `ST <- I`. -/
def beginFetch (call : HeaderCall) (s : State) : State :=
  { s with r := { s.r with ST := s.r.I }, reader := .header call .fetch }

/-- The latch of a complete header (43_frame_reader.md R161). -/
def latch (op : BitVec 4) (h : Head) (s : State) : State :=
  { s with r := { s.r with
      HDR := h.bits op
      KEY := headKey h
      I := s.r.ST + headSize h
      START := (s.r.ST + headSize h : Nat)
      MORE := headLength h } }

/-- The result a header command returns for a status: `read` adds the count 0 (45_facade.md R230). -/
def headerStatus (call : HeaderCall) (k : Status) : Result :=
  match call with
  | .frameHeader => .status k
  | .rawFrameHeader => .status k
  | .read _ => .delivered [] k

/-- A header command returns a status without closing the reader (60_exceptions.md R269). -/
def endHeader (call : HeaderCall) (k : Status) (s : State) : State :=
  endRead (headerCallCode call) (headerStatus call k) s

/-- `fatal(k)` (43_frame_reader.md R178), the "trap entry" of 60_exceptions.md R268: `RSTATE <- Closed`,
`RERR <- k`, and the command returns `k`. Nothing else is saved. -/
def takeFatal (call : HeaderCall) (k : Status) (s : State) : State :=
  endHeader call k { s with r := { s.r with RSTATE := .closed, RERR := k } }

/-- There is no return from a fatal status (60_exceptions.md R271): a command issued in `Closed` answers `RERR`,
with count 0 where it returns a count, and makes no transaction. -/
def answerClosed (code : Byte) (counts : Bool) (s : State) : State :=
  respond code (if counts then .delivered [] s.r.RERR else .status s.r.RERR) s

/-- `nextHeader` returns the frame in `HDR` and `MORE` (43_frame_reader.md R163, R164): `RSTATE <- InDataFrame`; a
header command answers `(op, fin, len)`, `read` goes on to deliver (45_facade.md R230). -/
def returnFrame (call : HeaderCall) (op : BitVec 4) (s : State) : State :=
  let s := { s with r := { s.r with RSTATE := .inDataFrame } }
  match call with
  | .frameHeader => endRead 0x01 (.header op (hdrFin s.r.HDR) s.r.MORE) s
  | .rawFrameHeader => endRead 0x02 (.header op (hdrFin s.r.HDR) s.r.MORE) s
  | .read n => { s with reader := .deliver .read (deliveryWant n s.r.MORE) [] }

/-! ### The frame a write composes -/

/-- Steps 1 to 6 of `sendFrame` (44_frame_writer.md R201): the frame in `WBUF[0..WLEN)`, and the header's size. The
key is drawn in the client role only (R202). -/
def composeFrame (payload : List Byte) (op : BitVec 4) (final : Bool) (s : State) : Nat × State :=
  match s.cfg.role with
  | .server =>
    let h := frameHeader .server Key.zero payload op final
    (h.length, { s with w := { s.w with
      WBUF := s.w.WBUF.writeBytes 0 (h ++ framePayload .server Key.zero payload)
      WLEN := h.length + payload.length } })
  | .client =>
    let (key, s) := rand4 s
    let h := frameHeader .client key payload op final
    (h.length, { s with w := { s.w with
      WBUF := s.w.WBUF.writeBytes 0 (h ++ framePayload .client key payload)
      WLEN := h.length + payload.length } })

/-! ### Running a command as far as it goes -/

/-- Octets and answers ready on the receive side. -/
def readyOctets : List RxAnswer → Nat
  | [] => 0
  | .data d :: rest => d.length + 1 + readyOctets rest
  | _ :: rest => 1 + readyOctets rest

/-- A bound on the moves a command makes on what stands ready; a command that used it up would go on at its agent's
next turn (log entry 11). -/
def moveBound (s : State) : Nat := 4 * (s.r.END + readyOctets s.env.rx) + 8

end Sys2Proof.Machine
end

