-- ==== Sys2Proof/Machine/Codec.lean ====
section
/-! DEFINITION. The C port: `PARSE_HEADER`, `PARSE_LENGTH`, `READ_MASK`, `ENCODE_HEADER` (40_header_codec.md R120 to
R124) and `MASK` (41_masking.md R140). Pure functions: no lock, no register (45_facade.md R236). -/

namespace Sys2Proof.Machine

/-- A parser's answer as the C port returns it: a value, the status `NEED_MORE` (R124, 60_exceptions.md R264), or
`OVERSIZE` (R121). -/
def parseResult {α : Type} (value : α → Nat → Result) : Parse α → Result
  | .ok v next => value v next
  | .needMore => .status .needMore
  | .oversize => .oversize

/-- `PARSE_HEADER` (R120). -/
def execParseHeader (buf : List Byte) (st : Nat) (s : State) : Outcome :=
  .next (respond 0x20 (parseResult .bits (parseHeader buf st)) s)

/-- `PARSE_LENGTH` (R121). -/
def execParseLength (bits : BitVec 16) (buf : List Byte) (i : Nat) (s : State) : Outcome :=
  .next (respond 0x21 (parseResult .length (parseLength bits buf i)) s)

/-- `READ_MASK` (R122). -/
def execReadMask (bits : BitVec 16) (buf : List Byte) (i : Nat) (s : State) : Outcome :=
  .next (respond 0x22 (parseResult .key (readMask bits buf i)) s)

/-- `ENCODE_HEADER` (R123). The opcode is not validated; `payloadLen` is at most 2^62 - 1 by its type. -/
def execEncodeHeader (op : BitVec 4) (fin masked : Bool) (key : Key) (payloadLen : BitVec 62) (s : State) : Outcome :=
  .next (respond 0x23 (.octets (encodeHeader op fin masked key payloadLen.toNat)) s)

/-- `MASK` (41_masking.md R140). -/
def execMask (buf : List Byte) (key : Key) (offset : Nat) (s : State) : Outcome :=
  .next (respond 0x24 (.octets (mask buf key offset)) s)

end Sys2Proof.Machine
end

