-- ==== Sys2Proof/Machine/Reader.lean ====
section
/-! DEFINITION. The loops of the reader (43_frame_reader.md R171 to R176, 44_frame_writer.md R205 to R207): delivery,
the handling of control frames, and their running as far as what stands ready allows. Each function of this file is
one turn of one loop, so that a command can wait at any `TRead`, `TWrite` or lock and go on later
(20_memory.md R78). -/

namespace Sys2Proof.Machine

/-! ### Delivery (R171, R173, R174) -/

/-- What one turn of `deliver`'s loop does. -/
inductive Delivery where
  /-- The loop has ended: `got = want`. -/
  | done
  /-- Octets for `dst`, unmasked. -/
  | octets (bs : List Byte) (s : State)
  /-- `RBUF` was refilled. -/
  | again (s : State)
  /-- The transport has not answered. -/
  | waiting (s : State)
  /-- The loop returns with this status, `eofRule` applied (R173). -/
  | ended (st : Status) (s : State)
  | halt (f : Fault)

/-- One turn of the loop of `deliver(dst, n)` (R171), `got` of `want` octets delivered: buffered octets first, then
the direct path (R174), else refill and retry. -/
def deliverTurn (want got : Nat) (s : State) : Delivery :=
  if got ≥ want then .done
  else if s.r.I < s.r.END then
    let c := min (want - got) (s.r.END - s.r.I)
    match s.r.RBUF.readBytes s.r.I c with
    | none => .halt .noValue
    | some bs =>
      .octets (mask bs s.r.KEY (maskOffset s.r))
        { s with r := { s.r with I := s.r.I + c, MORE := s.r.MORE - c } }
  else if want - got ≥ s.cfg.rbufSize - directMargin then
    match tRead (want - got) s with
    | none => .waiting s
    | some (d, st, s') =>
      if st = .ok then
        .octets (mask d s.r.KEY (maskOffset s.r))
          { s' with r := { s'.r with START := s'.r.START - d.length, MORE := s'.r.MORE - d.length } }
      else .ended (eofRule s.env.cancelFired got st) s'
  else
    match fill s with
    | none => .halt .panic
    | some s1 =>
      match readOnce s1 with
      | none => .waiting s1
      | some (_, st, s2) =>
        if st = .ok then .again s2 else .ended (eofRule s.env.cancelFired got st) s2

/-- The end of `appendFrame` (R172) and of `read` (45_facade.md R230) after `deliver` returned `(out, st)`. -/
def endDelivery (call : DataCall) (out : List Byte) (st : Status) (s : State) : State :=
  let s1 := { s with r := { s.r with
    RSTATE := if st = .ok ∧ s.r.MORE = 0 then .betweenFrames else s.r.RSTATE } }
  match call with
  | .appendFrame =>
    endRead 0x03 (.delivered out (if st = .ok ∧ s.r.MORE = 0 then .endOfPayload else st)) s1
  | .read => endRead 0x04 (.delivered out st) s1

/-- One turn of a delivery to the host's `out`. -/
def deliverMove (call : DataCall) (want : Nat) (out : List Byte) (s : State) : Move :=
  match deliverTurn want out.length s with
  | .done => .go (endDelivery call out .ok s)
  | .octets bs s1 => .go { s1 with reader := .deliver call want (out ++ bs) }
  | .again s1 => .go s1
  | .waiting s1 => .wait s1
  | .ended st s1 => .go (endDelivery call out st s1)
  | .halt f => .halt (.fault f)

/-! ### Close (R176) -/

/-- `processClose` after `deliver(CBUF, 128)` returned `(got, OK)`; every result is fatal (R169, R178). -/
def endClose (call : HeaderCall) (got : Nat) (s : State) : Move :=
  match s.r.CBUF.readBytes 0 got with
  | none => .halt (.fault .noValue)
  | some payload => .go (takeFatal call (closeStatusOf payload) s)

/-- One turn of `processClose`'s delivery to `CBUF`. -/
def closeMove (call : HeaderCall) (want got : Nat) (s : State) : Move :=
  match deliverTurn want got s with
  | .done => endClose call got s
  | .octets bs s1 =>
    .go { s1 with
      r := { s1.r with CBUF := s1.r.CBUF.writeBytes got bs }
      reader := .header call (.close want (got + bs.length)) }
  | .again s1 => .go s1
  | .waiting s1 => .wait s1
  | .ended st s1 => if st = .ok then endClose call got s1 else .go (takeFatal call st s1)
  | .halt f => .halt (.fault f)

/-! ### Pong (R175) -/

/-- One turn of `skip` (R175): no direct path and no tie-break; a transport status is fatal (R168). At the end the
next header is fetched. -/
def skipMove (call : HeaderCall) (s : State) : Move :=
  if s.r.MORE = 0 then .go (beginFetch call s)
  else if s.r.I < s.r.END then
    let c := min s.r.MORE (s.r.END - s.r.I)
    .go { s with r := { s.r with I := s.r.I + c, MORE := s.r.MORE - c } }
  else
    match fill s with
    | none => .halt (.fault .panic)
    | some s1 =>
      match readOnce s1 with
      | none => .wait s1
      | some (_, st, s2) =>
        if st = .ok then .go s2 else .go (takeFatal call (terr s.env.cancelFired st) s2)

/-! ### Ping (44_frame_writer.md R205 to R207) -/

/-- With the frame whole in `RBUF`, `acquire(WLOCK)` and the composition of the Pong: the Ping with its opcode
rewritten in place (R206), or a new frame in `WBUF` (R207). -/
def pongCompose (call : HeaderCall) (s : State) : Move :=
  match s.WLOCK with
  | some _ => .wait s
  | none =>
    match s.cfg.pongMode with
    | .passthrough =>
      match s.r.RBUF.readByte s.r.ST with
      | none => .halt (.fault .noValue)
      | some b =>
        .go { s with
          r := { s.r with RBUF := s.r.RBUF.writeByte s.r.ST (pongOctet b) }
          WLOCK := some .reader
          reader := .header call .pongWrite }
    | .fresh =>
      match s.r.RBUF.readBytes s.r.I s.r.MORE with
      | none => .halt (.fault .noValue)
      | some bs =>
        .go { (composeFrame (mask bs s.r.KEY 0) 10 true s).2 with
          WLOCK := some .reader
          reader := .header call .pongWrite }

/-- One turn of `processPing` before the write (R205): gather the frame, compacting from `ST` when its end lies
beyond the buffer's top, then compose the Pong. -/
def pingMove (call : HeaderCall) (s : State) : Move :=
  if frameEnd s.r - s.r.ST > s.cfg.rbufSize then .halt (.fault .panic)
  else if s.r.END < frameEnd s.r then
    let s1 := if frameEnd s.r > s.cfg.rbufSize then compactFromST s else s
    match readOnce s1 with
    | none => .wait s1
    | some (_, st, s2) =>
      if st = .ok then .go s2 else .go (takeFatal call (terr s.env.cancelFired st) s2)
  else pongCompose call s

/-- The octets of the Pong: the slice `RBUF[ST..need)` (R206), or `WBUF[0..WLEN)` (R207). -/
def pongFrame (s : State) : Option (List Byte) :=
  match s.cfg.pongMode with
  | .passthrough => s.r.RBUF.readBytes s.r.ST (frameEnd s.r - s.r.ST)
  | .fresh => s.w.WBUF.readBytes 0 s.w.WLEN

/-- The writer's registers once the Pong is written: `sendFrame` ends with `WLEN <- 0` (R201, R207); the passthrough
Pong does not use `WBUF` (R206, 92_eei_decisions.md D30). -/
def afterPong (mode : PongMode) (w : WriterRegs) : WriterRegs :=
  match mode with
  | .passthrough => w
  | .fresh => { w with WLEN := 0 }

/-- The Pong's one `TWrite`, then `release(WLOCK)`; on `OK` the cursor passes the Ping and the next header is
fetched, any other status is fatal (R206 to R208). -/
def pongMove (call : HeaderCall) (s : State) : Move :=
  match pongFrame s with
  | none => .halt (.fault .noValue)
  | some frame =>
    match tWrite frame s with
    | none => .wait s
    | some (tn, ts, s1) =>
      let s2 := { s1 with WLOCK := none, w := afterPong s1.cfg.pongMode s1.w }
      let st := writeStatus ts tn frame.length
      if st = .ok then
        .go (beginFetch call { s2 with r := { s2.r with I := frameEnd s2.r, MORE := 0 } })
      else .go (takeFatal call st s2)

/-! ### Control frames as far as they go -/

/-- One turn of the control frame in hand; a wait where there is none. -/
def controlMove (s : State) : Move :=
  match s.reader with
  | .idle => .wait s
  | .deliver _ _ _ => .wait s
  | .header _ .fetch => .wait s
  | .header call .ping => pingMove call s
  | .header call .pongWrite => pongMove call s
  | .header call .skip => skipMove call s
  | .header call (.close want got) => closeMove call want got s

/-- Run the control frame in hand until it is done or must wait. -/
def runControl : Nat → State → Outcome
  | 0, s => .next s
  | n + 1, s =>
    match controlMove s with
    | .go s' => runControl n s'
    | .wait s' => .next s'
    | .halt o => o

end Sys2Proof.Machine
end

