-- ==== Sys2Proof/Machine/ControlFrames.lean ====
section
/-! DEFINITION. Control frames: `CLOSE`, `PING`, `PONG` (43_frame_reader.md R167 to R169). -/

namespace Sys2Proof.Machine

/-- A control frame whose header is whole: latch it; for `readRawFrameHeader` return it like a data frame
(45_facade.md R232), else handle it, from `phase` on, as far as what stands ready allows (R163). -/
def controlFrame (op : BitVec 4) (h : Head) (phase : HeaderPhase) (s : State) : Outcome :=
  match s.reader with
  | .header .rawFrameHeader .fetch => .next (returnFrame .rawFrameHeader op (latch op h s))
  | .header .frameHeader .fetch =>
    runControl (moveBound s) { latch op h s with reader := .header .frameHeader phase }
  | .header (.read n) .fetch =>
    runControl (moveBound s) { latch op h s with reader := .header (.read n) phase }
  | .header _ .ping => .refused .notFetching
  | .header _ .pongWrite => .refused .notFetching
  | .header _ .skip => .refused .notFetching
  | .header _ (.close _ _) => .refused .notFetching
  | .deliver _ _ _ => .refused .notFetching
  | .idle => .refused .notFetching

/-- `CLOSE`, opcode 8 (R169): `processClose` reads at most 128 octets of the payload (R176). -/
def execClose (h : Head) (s : State) : Outcome :=
  controlFrame 8 h (.close (deliveryWant closeCap (headLength h)) 0) s

/-- `PING`, opcode 9 (R167): answered with a Pong (44_frame_writer.md R205 to R208), then the next header. -/
def execPing (h : Head) (s : State) : Outcome := controlFrame 9 h .ping s

/-- `PONG`, opcode 10 (R168): its payload is skipped (R175), then the next header. -/
def execPong (h : Head) (s : State) : Outcome := controlFrame 10 h .skip s

end Sys2Proof.Machine
end

