-- ==== Sys2Proof/Machine/DataFrames.lean ====
section
/-! DEFINITION. Data frames: `CONT`, `TEXT`, `BIN` (43_frame_reader.md R164 to R166). -/

namespace Sys2Proof.Machine

/-- A data frame whose header is whole: latch it and return it to the command that fetches (R161, R163, R164). -/
def dataFrame (op : BitVec 4) (h : Head) (s : State) : Outcome :=
  match s.reader with
  | .header call .fetch => .next (returnFrame call op (latch op h s))
  | .header _ .ping => .refused .notFetching
  | .header _ .pongWrite => .refused .notFetching
  | .header _ .skip => .refused .notFetching
  | .header _ (.close _ _) => .refused .notFetching
  | .deliver _ _ _ => .refused .notFetching
  | .idle => .refused .notFetching

/-- `CONT`, opcode 0 (R164). That an unfinished message precedes it is not checked. -/
def execCont (h : Head) (s : State) : Outcome := dataFrame 0 h s

/-- `TEXT`, opcode 1 (R165). The payload is not checked to be UTF-8. -/
def execText (h : Head) (s : State) : Outcome := dataFrame 1 h s

/-- `BIN`, opcode 2 (R166). -/
def execBin (h : Head) (s : State) : Outcome := dataFrame 2 h s

end Sys2Proof.Machine
end

