-- ==== Sys2Proof/Machine/ReservedFrames.lean ====
section
/-! DEFINITION. Reserved opcodes: `RSVD3` to `RSVD7`, `RSVDB` to `RSVDF` (43_frame_reader.md R170). -/

namespace Sys2Proof.Machine

/-- A reserved opcode whose header is whole: the header is latched, then `fatal(PROTOCOL_UNKNOWN_OPCODE)`, under
`raw = 0` and `raw = 1` alike (R163, R170). -/
def reservedFrame (op : BitVec 4) (h : Head) (s : State) : Outcome :=
  match s.reader with
  | .header call .fetch => .next (takeFatal call .protocolUnknownOpcode (latch op h s))
  | .header _ .ping => .refused .notFetching
  | .header _ .pongWrite => .refused .notFetching
  | .header _ .skip => .refused .notFetching
  | .header _ (.close _ _) => .refused .notFetching
  | .deliver _ _ _ => .refused .notFetching
  | .idle => .refused .notFetching

/-- `RSVD3`, opcode 3 (R170). -/
def execRsvd3 (h : Head) (s : State) : Outcome := reservedFrame 3 h s

/-- `RSVD4`, opcode 4 (R170). -/
def execRsvd4 (h : Head) (s : State) : Outcome := reservedFrame 4 h s

/-- `RSVD5`, opcode 5 (R170). -/
def execRsvd5 (h : Head) (s : State) : Outcome := reservedFrame 5 h s

/-- `RSVD6`, opcode 6 (R170). -/
def execRsvd6 (h : Head) (s : State) : Outcome := reservedFrame 6 h s

/-- `RSVD7`, opcode 7 (R170). -/
def execRsvd7 (h : Head) (s : State) : Outcome := reservedFrame 7 h s

/-- `RSVDB`, opcode 11 (R170). -/
def execRsvdB (h : Head) (s : State) : Outcome := reservedFrame 11 h s

/-- `RSVDC`, opcode 12 (R170). -/
def execRsvdC (h : Head) (s : State) : Outcome := reservedFrame 12 h s

/-- `RSVDD`, opcode 13 (R170). -/
def execRsvdD (h : Head) (s : State) : Outcome := reservedFrame 13 h s

/-- `RSVDE`, opcode 14 (R170). -/
def execRsvdE (h : Head) (s : State) : Outcome := reservedFrame 14 h s

/-- `RSVDF`, opcode 15 (R170). -/
def execRsvdF (h : Head) (s : State) : Outcome := reservedFrame 15 h s

end Sys2Proof.Machine
end

