-- ==== Sys2Proof/Machine/Fetch.lean ====
section
/-! DEFINITION. The header fetch and the dispatch (43_frame_reader.md R161 to R163), and the reader as a whole. -/

namespace Sys2Proof.Machine

/-- The octets a header fetch parses: `RBUF[ST..END)` (R161; log entry 14). -/
def fetchOctets (s : State) : Option (List Byte) :=
  s.r.RBUF.readBytes s.r.ST (s.r.END - s.r.ST)

/-- The dispatch by opcode (R163): each opcode's meaning. -/
def dispatchOpcode (op : BitVec 4) (h : Head) (s : State) : Outcome :=
  match op.toNat with
  | 0 => execCont h s
  | 1 => execText h s
  | 2 => execBin h s
  | 3 => execRsvd3 h s
  | 4 => execRsvd4 h s
  | 5 => execRsvd5 h s
  | 6 => execRsvd6 h s
  | 7 => execRsvd7 h s
  | 8 => execClose h s
  | 9 => execPing h s
  | 10 => execPong h s
  | 11 => execRsvdB h s
  | 12 => execRsvdC h s
  | 13 => execRsvdD h s
  | 14 => execRsvdE h s
  | _ => execRsvdF h s

/-- A header that is not complete: room, one read, and the parse again; a transport status is not fatal here and the
partial header stays buffered (R161). -/
def fetchMore (call : HeaderCall) (s : State) : Move :=
  match fill s with
  | none => .halt (.fault .panic)
  | some s1 =>
    match readOnce s1 with
    | none => .wait s1
    | some (_, st, s2) =>
      if st = .ok then .go s2 else .go (endHeader call (terr s.env.cancelFired st) s2)

/-- One turn of the loop of `fetchHeader`, and the dispatch of a complete header (R161 to R163). -/
def fetchMove (call : HeaderCall) (s : State) : Move :=
  match fetchOctets s with
  | none => .halt (.fault .noValue)
  | some octets =>
    match parseChecked s.cfg octets 0 with
    | .ok bits len key _ => moveOf (dispatchOpcode (hdrOpcode bits) (Head.ofParsed bits len key) s)
    | .needMore => fetchMore call s
    | .reservedBits => .go (takeFatal call .protocolReservedBits s)
    | .maskViolation => .go (takeFatal call .protocolMaskViolation s)
    | .oversize => .go (takeFatal call .protocolOversizeLength s)

/-- One move of the reader, whatever it is at. -/
def readerMove (s : State) : Move :=
  match s.reader with
  | .idle => .wait s
  | .header call .fetch => fetchMove call s
  | .header _ .ping => controlMove s
  | .header _ .pongWrite => controlMove s
  | .header _ .skip => controlMove s
  | .header _ (.close _ _) => controlMove s
  | .deliver call want out => deliverMove call want out s

/-- Run the reader's command until it returns or must wait. -/
def runReader : Nat → State → Outcome
  | 0, s => .next s
  | n + 1, s =>
    match readerMove s with
    | .go s' => runReader n s'
    | .wait s' => .next s'
    | .halt o => o

/-- After a frame's meaning the reader's command goes on to its return or its next suspension point: what lies between
two suspension points is one transition (20_memory.md R78). -/
def continueReader : Outcome → Outcome
  | .next s => runReader (moveBound s) s
  | .fault f => .fault f
  | .refused r => .refused r

end Sys2Proof.Machine
end

