-- ==== Sys2Proof/Machine/ReaderCommands.lean ====
section
/-! DEFINITION. The R port: `READ_FRAME_HEADER`, `READ_RAW_FRAME_HEADER`, `APPEND_FRAME`, `READ`
(45_facade.md R230 to R232, 43_frame_reader.md R172). A command runs until it returns or must wait
(log entry 1). -/

namespace Sys2Proof.Machine

/-- The two header commands (R231, R232): `Closed` answers `RERR`, an unread payload is `MISUSE`, else
`nextHeader`. -/
def headerCommand (i : Instr) (call : HeaderCall) (s : State) : Outcome :=
  acquireRead i s fun s =>
    if s.r.RSTATE = .closed then .next (answerClosed (headerCallCode call) false s)
    else if s.r.MORE > 0 then .next (respond (headerCallCode call) (.status .misuse) s)
    else runReader (moveBound s) (beginFetch call { s with RLOCK := some .reader })

/-- `READ_FRAME_HEADER` (R231): the next data frame; control frames are intercepted. -/
def execReadFrameHeader (s : State) : Outcome := headerCommand .readFrameHeader .frameHeader s

/-- `READ_RAW_FRAME_HEADER` (R232): the next frame, whatever its kind. -/
def execReadRawFrameHeader (s : State) : Outcome := headerCommand .readRawFrameHeader .rawFrameHeader s

/-- `APPEND_FRAME` (43_frame_reader.md R172): deliver at most `n` octets of the current payload. -/
def execAppendFrame (n : Nat) (s : State) : Outcome :=
  acquireRead (.appendFrame n) s fun s =>
    if s.r.RSTATE = .closed then .next (answerClosed 0x03 true s)
    else
      runReader (moveBound s)
        { s with RLOCK := some .reader, reader := .deliver .appendFrame (deliveryWant n s.r.MORE) [] }

/-- `READ` (R230): the next data frame's header if `MORE = 0`, then a delivery of at most `n` octets, all under one
`RLOCK`. -/
def execRead (n : Nat) (s : State) : Outcome :=
  acquireRead (.read n) s fun s =>
    if s.r.RSTATE = .closed then .next (answerClosed 0x04 true s)
    else if s.r.MORE = 0 then runReader (moveBound s) (beginFetch (.read n) { s with RLOCK := some .reader })
    else
      runReader (moveBound s)
        { s with RLOCK := some .reader, reader := .deliver .read (deliveryWant n s.r.MORE) [] }

end Sys2Proof.Machine
end

