-- ==== Sys2Proof/Machine/WriterCommands.lean ====
section
/-! DEFINITION. The W port: `WRITE_FRAME`, `WRITE`, `CLOSE_WRITER`, `CLOSE_CONN` (44_frame_writer.md R200 to R204,
R209, R210; 45_facade.md R233). A command runs until it returns or must wait (log entry 1). -/

namespace Sys2Proof.Machine

/-- The second half of `Close` (R210): the transport is closed at most once. -/
def closeTransport (s : State) : State :=
  if s.w.TCLOSED then endWrite 0x13 (.status .ok) s
  else
    let (ts, s1) := tClose { s with w := { s.w with TCLOSED := true } }
    endWrite 0x13 (.status (closeTransportStatus ts)) s1

/-- What the command does with the answer of its frame's `TWrite`: return `result` (R203), or the status alone
(R209), or go on to close the transport whatever the result (R210). -/
def endSend (call : WriteCall) (hs len tn : Nat) (ts : SendStatus) (s : State) : State :=
  let st := writeStatus ts tn (hs + len)
  match call with
  | .writeFrame => endWrite 0x10 (.written (payloadWritten tn hs) st) s
  | .write => endWrite 0x11 (.written (payloadWritten tn hs) st) s
  | .closeWriter => endWrite 0x12 (.status st) s
  | .closeConn => closeTransport s

/-- The writer's `TWrite` of `WBUF[0..WLEN)` (R201 step 7), then `WLEN <- 0` (R204). -/
def writerMove (s : State) : Move :=
  match s.writer with
  | .idle => .wait s
  | .sending call hs len =>
    match s.w.WBUF.readBytes 0 s.w.WLEN with
    | none => .halt (.fault .noValue)
    | some frame =>
      match tWrite frame s with
      | none => .wait s
      | some (tn, ts, s1) => .go (endSend call hs len tn ts { s1 with w := { s1.w with WLEN := 0 } })

/-- `sendFrame` under `WLOCK` (R201). -/
def sendFrame (call : WriteCall) (payload : List Byte) (op : BitVec 4) (final : Bool) (s : State) : Outcome :=
  let (hs, s1) := composeFrame payload op final s
  (writerMove { s1 with WLOCK := some .writer, writer := .sending call hs payload.length }).outcome

/-- `writeFrame` and `write` (R200): `MISUSE` before anything is sent; `WCLOSED` is not read. -/
def writeCommand (i : Instr) (call : WriteCall) (payload : List Byte) (op : BitVec 4) (final : Bool) (s : State) :
    Outcome :=
  if payloadRefused s.cfg payload then .next (respond (writeCallCode call) (.written 0 .misuse) s)
  else acquireWrite i s (sendFrame call payload op final)

/-- `WRITE_FRAME` (R200). -/
def execWriteFrame (payload : List Byte) (op : BitVec 4) (final : Bool) (s : State) : Outcome :=
  writeCommand (.writeFrame payload op final) .writeFrame payload op final s

/-- `WRITE` (45_facade.md R233): `writeFrame(buf, Binary, final = true)`. -/
def execWrite (payload : List Byte) (s : State) : Outcome :=
  writeCommand (.write payload) .write payload 2 true s

/-- `CLOSE_WRITER` (R209): `WCLOSED` is set before the write and stays set if it fails. -/
def execCloseWriter (status : BitVec 16) (s : State) : Outcome :=
  acquireWrite (.closeWriter status) s fun s =>
    if s.w.WCLOSED then .next (respond 0x12 (.status .ok) s)
    else sendFrame .closeWriter (be16 (closeCode status)) 8 true { s with w := { s.w with WCLOSED := true } }

/-- `CLOSE_CONN` (R210): an empty Close frame unless one was sent, its result ignored, then `TClose` once. -/
def execCloseConn (s : State) : Outcome :=
  acquireWrite .closeConn s fun s =>
    if s.w.WCLOSED then .next (closeTransport s)
    else sendFrame .closeConn [] 8 true { s with w := { s.w with WCLOSED := true } }

end Sys2Proof.Machine
end

