-- ==== Sys2Proof/Machine/Dispatch.lean ====
section
/-! DEFINITION. One arm per instruction: its meaning. -/

namespace Sys2Proof.Machine

def exec (i : Instr) (s : State) : Host.Outcome State Fault Refusal :=
  match i with
  -- received frames
  | .cont h => Sys2Proof.Machine.execCont h s
  | .text h => Sys2Proof.Machine.execText h s
  | .bin h => Sys2Proof.Machine.execBin h s
  | .rsvd3 h => Sys2Proof.Machine.execRsvd3 h s
  | .rsvd4 h => Sys2Proof.Machine.execRsvd4 h s
  | .rsvd5 h => Sys2Proof.Machine.execRsvd5 h s
  | .rsvd6 h => Sys2Proof.Machine.execRsvd6 h s
  | .rsvd7 h => Sys2Proof.Machine.execRsvd7 h s
  | .close h => Sys2Proof.Machine.execClose h s
  | .ping h => Sys2Proof.Machine.execPing h s
  | .pong h => Sys2Proof.Machine.execPong h s
  | .rsvdB h => Sys2Proof.Machine.execRsvdB h s
  | .rsvdC h => Sys2Proof.Machine.execRsvdC h s
  | .rsvdD h => Sys2Proof.Machine.execRsvdD h s
  | .rsvdE h => Sys2Proof.Machine.execRsvdE h s
  | .rsvdF h => Sys2Proof.Machine.execRsvdF h s
  -- R port
  | .readFrameHeader => Sys2Proof.Machine.execReadFrameHeader s
  | .readRawFrameHeader => Sys2Proof.Machine.execReadRawFrameHeader s
  | .appendFrame n => Sys2Proof.Machine.execAppendFrame n s
  | .read n => Sys2Proof.Machine.execRead n s
  -- W port
  | .writeFrame payload op final => Sys2Proof.Machine.execWriteFrame payload op final s
  | .write payload => Sys2Proof.Machine.execWrite payload s
  | .closeWriter status => Sys2Proof.Machine.execCloseWriter status s
  | .closeConn => Sys2Proof.Machine.execCloseConn s
  -- C port
  | .parseHeader buf st => Sys2Proof.Machine.execParseHeader buf st s
  | .parseLength bits buf idx => Sys2Proof.Machine.execParseLength bits buf idx s
  | .readMask bits buf idx => Sys2Proof.Machine.execReadMask bits buf idx s
  | .encodeHeader op fin masked key payloadLen => Sys2Proof.Machine.execEncodeHeader op fin masked key payloadLen s
  | .mask buf key offset => Sys2Proof.Machine.execMask buf key offset s

end Sys2Proof.Machine
end

