-- ==== Sys2Proof/Machine/Turns.lean ====
section
/-! DEFINITION. What one event of the outside world or of the schedule does (00_scope.md R11, 20_memory.md R76, R78;
log entries 1 and 2). -/

namespace Sys2Proof.Machine

/-- A turn of the reader. Idle, it takes the `pick`th command that waits for `RLOCK`, if the lock is free. Otherwise its
command runs to its return or its next suspension point (20_memory.md R78); in a header fetch whose header is complete it
executes that frame first. -/
def readerTurn (pick : Nat) (s : State) : Outcome :=
  match s.reader with
  | .idle =>
    match s.rWait[pick]?, s.RLOCK with
    | some i, none => exec i { s with rWait := s.rWait.eraseIdx pick }
    | some _, some _ => .next s
    | none, _ => .next s
  | .header _ .fetch =>
    match fetchOctets s with
    | none => .fault .noValue
    | some octets =>
      match decodeFrame s.cfg octets with
      | .ok i _ => continueReader (exec i s)
      | .needMore => runReader (moveBound s) s
      | .reservedBits => runReader (moveBound s) s
      | .maskViolation => runReader (moveBound s) s
      | .oversize => runReader (moveBound s) s
      | .unknownCommand => runReader (moveBound s) s
  | .header _ .ping => runReader (moveBound s) s
  | .header _ .pongWrite => runReader (moveBound s) s
  | .header _ .skip => runReader (moveBound s) s
  | .header _ (.close _ _) => runReader (moveBound s) s
  | .deliver _ _ _ => runReader (moveBound s) s

/-- A turn of the writer. Idle, it takes the `pick`th command that waits for `WLOCK`, if the lock is free. -/
def writerTurn (pick : Nat) (s : State) : Outcome :=
  match s.writer with
  | .idle =>
    match s.wWait[pick]?, s.WLOCK with
    | some i, none => exec i { s with wWait := s.wWait.eraseIdx pick }
    | some _, some _ => .next s
    | none, _ => .next s
  | .sending _ _ _ => (writerMove s).outcome

/-- The host issues a command: the instruction its code names, or `MISUSE` for any other code
(45_facade.md R237). -/
def hostTurn (c : Command) (s : State) : Outcome :=
  match decodeCommand c with
  | some i => exec i s
  | none => .next (respond c.code (.status .misuse) s)

/-- The level of `cancel_fired`. Once 1 it stays 1 while an R-port command runs (20_memory.md R70). -/
def driveCancel (level : Bool) (s : State) : State :=
  { s with env := { s.env with cancelFired := level || (s.env.cancelFired && s.reader != .idle) } }

/-- What one event does. -/
def takeEvent (e : Event) (s : State) : Outcome :=
  match e with
  | .reader pick => readerTurn pick s
  | .writer pick => writerTurn pick s
  | .host c => hostTurn c s
  | .cancel level => .next (driveCancel level s)
  | .rx a => .next { s with env := { s.env with rx := s.env.rx ++ [a] } }
  | .tx a => .next { s with env := { s.env with tx := s.env.tx ++ [a] } }
  | .closeAnswer a => .next { s with env := { s.env with closes := s.env.closes ++ [a] } }
  | .rand k => .next { s with env := { s.env with rand := s.env.rand ++ [k] } }

end Sys2Proof.Machine
end

