-- ==== Sys2Proof/Machine/Step.lean ====
section
/-! DEFINITION. One step of the block: the next event of the outside world or the schedule (00_scope.md R11;
20_memory.md R76, R78; log entries 1 and 2). -/

namespace Sys2Proof.Machine

/-- One step: the first event, or nothing when none stands ready. -/
def step (s : State) : Host.Outcome State Fault Refusal :=
  match s.events with
  | [] => .next s
  | e :: rest => takeEvent e { s with events := rest }

/-- `s` with an opcode-table word where the next step fetches it. A wire row's header stands alone in `RBUF`, from
index 0 on, and a `READ_FRAME_HEADER` fetches there, so that no other frame follows in the same step; a command row's code
is issued by the host, its port free. -/
def State.withFetchWord (s : State) (nbits w : Nat) : State :=
  if nbits = 16 then
    { s with
      r := { s.r with
        RBUF := Memory.writeBytes [] 0 ((tableOctets w).take (headerSize (BitVec.ofNat 16 w)))
        ST := 0
        I := 0
        END := headerSize (BitVec.ofNat 16 w)
        START := 0
        MORE := 0
        RSTATE := .betweenFrames }
      RLOCK := some .reader
      reader := .header .frameHeader .fetch
      events := .reader 0 :: s.events }
  else
    { s with
      RLOCK := none
      reader := .idle
      WLOCK := none
      writer := .idle
      events := .host (tableCommand w) :: s.events }

end Sys2Proof.Machine
end

