-- ==== Sys2Proof/Safety.lean ====
section
/-! DEFINITION. What counts as a safe state: the invariants of 10_state.md R37 to R41 and the consistency of the
locks and of a suspended command; and the TX stream, which claims about the peer speak of (R45). -/

namespace Sys2Proof.Machine

/-- The octets the transport accepted, in order (20_memory.md R67, R74; 10_state.md R45 (d)). -/
def txStream : List Transaction → List Byte
  | [] => []
  | .write frame n _ :: older => txStream older ++ frame.take n
  | .read _ _ _ :: older => txStream older
  | .close _ :: older => txStream older

/-- The octets the transport has in hand for the block, in order (20_memory.md R66; 10_state.md R45 (a)). -/
def rxStream : List RxAnswer → List Byte
  | [] => []
  | .data d :: rest => d ++ rxStream rest
  | .eof :: rest => rxStream rest
  | .timeout :: rest => rxStream rest
  | .err _ :: rest => rxStream rest

/-- The octets that `TRead`s took from the RX stream, in order, of transactions newest first (20_memory.md R65, R66). -/
def receivedOctets : List Transaction → List Byte
  | [] => []
  | .read _ octets _ :: older => receivedOctets older ++ octets
  | .write _ _ _ :: older => receivedOctets older
  | .close _ :: older => receivedOctets older

/-- The `TRead`s of a delivery that wants `want` octets more than were buffered, newest first: each asks for exactly the
count still wanted where that is at least `size - 16` (43_frame_reader.md R174), else for the whole of the buffer, which is
then empty (42_read_buffer.md R150, R151); none is made for an octet that is not wanted (20_memory.md R65,
70_reset_and_hazards.md R312). -/
def DeliveryReads (size want : Nat) : List Transaction → Prop
  | [] => True
  | .read cap octets status :: older =>
    DeliveryReads size want older ∧
    let left := want - (receivedOctets older).length
    0 < left ∧ cap = (if left ≥ size - 16 then left else size) ∧ octets.length ≤ cap ∧ status = .ok
  | .write _ _ _ :: _ => False
  | .close _ :: _ => False

/-- The octets received and not yet consumed, `RBUF[I..END)`, then those still on the transport: what the reader
takes next, in order (10_state.md R38, R42). -/
def unread (s : State) : List Byte :=
  (s.r.RBUF.readBytes s.r.I (s.r.END - s.r.I)).getD [] ++ rxStream s.env.rx

/-- The statuses that can close the reader (43_frame_reader.md R178, 60_exceptions.md R250). -/
def Status.canClose : Status → Bool
  | .ok => false
  | .endOfPayload => false
  | .needMore => false
  | .misuse => false
  | .endOfStream => true
  | .closeStatus _ _ => true
  | .protocolReservedBits => true
  | .protocolUnknownOpcode => true
  | .protocolOversizeLength => true
  | .protocolMaskViolation => true
  | .malformedClose => true
  | .transport _ => true
  | .shortWrite => true
  | .cancelled => true

/-- The commands of the R port and of the W port (45_facade.md R236). -/
def onReadPort : Instr → Bool
  | .readFrameHeader => true
  | .readRawFrameHeader => true
  | .appendFrame _ => true
  | .read _ => true
  | _ => false

def onWritePort : Instr → Bool
  | .writeFrame _ _ _ => true
  | .write _ => true
  | .closeWriter _ => true
  | .closeConn => true
  | _ => false

/-- Every octet of `[0, n)` holds a value. -/
def Memory.filledBelow (m : Memory) (n : Nat) : Prop := ∀ a < n, (m.readByte a).isSome

/-- Whether the reader holds the write lock: only while a Pong is in `TWrite` (44_frame_writer.md R206). -/
def RUnit.writing : RUnit → Bool
  | .header _ .pongWrite => true
  | _ => false

/-- The reader runs no command, or its command stands at a suspension point (20_memory.md R78): in a `TRead` that has no
answer and whose octets it needs, in the Pong's `TWrite`, or before a `WLOCK` that is held. -/
def State.readerSuspended (s : State) : Prop :=
  match s.reader with
  | .idle => True
  | .header _ .fetch =>
    s.env.rx = [] ∧ ∃ octets, s.r.RBUF.readBytes s.r.ST (s.r.END - s.r.ST) = some octets ∧
      parseChecked s.cfg octets 0 = .needMore
  | .header _ .ping => (s.env.rx = [] ∧ s.r.END < frameEnd s.r) ∨ (s.WLOCK ≠ none ∧ frameEnd s.r ≤ s.r.END)
  | .header _ .pongWrite => s.env.tx = []
  | .header _ .skip => s.env.rx = [] ∧ s.r.I = s.r.END ∧ 0 < s.r.MORE
  | .header _ (.close want got) => s.env.rx = [] ∧ s.r.I = s.r.END ∧ got < want
  | .deliver _ want out => s.env.rx = [] ∧ s.r.I = s.r.END ∧ out.length < want

/-- The invariants of the reader's cursors (10_state.md R37, R39; R24 for the filled octets; R25 and R26 for the
ranges). -/
structure CursorInv (s : State) : Prop where
  st_le_i : s.r.ST ≤ s.r.I
  i_le_end : s.r.I ≤ s.r.END
  end_le_size : s.r.END ≤ s.cfg.rbufSize
  filled : s.r.RBUF.map Prod.fst = List.range s.r.END
  start_le_i : s.r.START ≤ s.r.I
  payload : (s.r.I : Int) - s.r.START + s.r.MORE ≤ maxLen

/-- What holds of a suspended R-port command. Between frames no payload is unread (43_frame_reader.md R160); a header
fetch has `MORE = 0` and `I = ST` (R161, 10_state.md R40); a Ping's header stands before `I` (R22, R71 of
20_memory.md); a delivery never wants more than `MORE` (R171). -/
def ReaderInv (s : State) : Prop :=
  match s.reader with
  | .idle => s.r.RSTATE = .betweenFrames → s.r.MORE = 0
  | .header _ .fetch => s.r.RSTATE ≠ .closed ∧ s.r.MORE = 0 ∧ s.r.I = s.r.ST
  | .header call .ping => s.r.RSTATE ≠ .closed ∧ call ≠ .rawFrameHeader ∧ s.r.ST < s.r.I
  | .header call .pongWrite =>
    s.r.RSTATE ≠ .closed ∧ call ≠ .rawFrameHeader ∧ frameEnd s.r ≤ s.r.END
  | .header call .skip => s.r.RSTATE ≠ .closed ∧ call ≠ .rawFrameHeader
  | .header call (.close want got) =>
    s.r.RSTATE ≠ .closed ∧ call ≠ .rawFrameHeader ∧ got ≤ want ∧ want ≤ closeCap ∧ want - got ≤ s.r.MORE ∧
      s.r.CBUF.filledBelow got
  | .deliver _ want out =>
    s.r.RSTATE ≠ .closed ∧ out.length ≤ want ∧ want - out.length ≤ s.r.MORE ∧
      (s.r.RSTATE = .betweenFrames → s.r.MORE = 0)

/-- The invariant of the block. -/
structure State.Inv (s : State) : Prop where
  /-- Creation checked the parameters (00_scope.md R5). -/
  legal : s.cfg.legal = true
  cursors : CursorInv s
  reader : ReaderInv s
  /-- A closed reader has a status that closed it (10_state.md R30). -/
  closedBy : s.r.RSTATE = .closed → s.r.RERR.canClose = true
  /-- Every R-port command holds `RLOCK` for its whole duration (10_state.md R36). -/
  rlock : s.RLOCK = if s.reader = .idle then none else some .reader
  /-- `WLOCK` is the writer's while a W-port command runs and the reader's while a Pong is written
  (10_state.md R36, R41). -/
  wlock : s.WLOCK =
    if s.writer ≠ .idle then some .writer else if s.reader.writing then some .reader else none
  /-- The two are never at once (20_memory.md R79). -/
  oneWriter : s.writer ≠ .idle → s.reader.writing = false
  /-- `WLEN = 0` whenever no frame is being composed or sent from `WBUF` (44_frame_writer.md R204). -/
  wlen : s.writer = .idle → (s.reader.writing = true → s.cfg.pongMode = .passthrough) → s.w.WLEN = 0
  /-- The writer's frame stands whole in `WBUF` (R201). -/
  sending : ∀ call hs len, s.writer = .sending call hs len → s.w.WLEN = hs + len
  composed : s.w.WBUF.filledBelow s.w.WLEN
  /-- The spaces are in canonical form and `CBUF` has 128 octets (10_state.md R31). -/
  wbufWf : s.w.WBUF.wf = true
  cbufWf : s.r.CBUF.wf = true
  cbufSize : ∀ c ∈ s.r.CBUF, c.1 < closeCap
  /-- The commands that wait for a lock are of its port. -/
  rWait : ∀ i ∈ s.rWait, onReadPort i = true
  wWait : ∀ i ∈ s.wWait, onWritePort i = true

end Sys2Proof.Machine
end

