-- ==== Sys2Proof/Certificates/Slice0/Obligations.lean ====
section
/-! DEFINITION. The statements about the block. Each docstring names the rule of the spec that the statement formalises.
Where a statement gives the next state whole, that equation is its frame: every register, flag, lock, octet and
observation it does not name is as before. -/

open Sys2Proof Sys2Proof.Machine

/-! ## Encodings (30_encoding.md) -/

/-- Words written out from the field positions of R91 and the codes of R96 and R104 decode to the instructions they
stand for. -/
def Obligations.TableWordsDecodeToTheirInstructions : Prop :=
  decodeTableWord 16 0x0002 = some (.cont ⟨false, 0, .short 2, none⟩) ∧
  decodeTableWord 16 0x8185 = some (.text ⟨true, 0, .short 5, some ⟨0, 0, 0, 0⟩⟩) ∧
  decodeTableWord 16 0x827E = some (.bin ⟨true, 0, .ext16 0, none⟩) ∧
  decodeTableWord 16 0xC300 = some (.rsvd3 ⟨true, 4, .short 0, none⟩) ∧
  decodeTableWord 16 0x8802 = some (.close ⟨true, 0, .short 2, none⟩) ∧
  decodeTableWord 16 0x89FF = some (.ping ⟨true, 0, .ext64 0, some ⟨0, 0, 0, 0⟩⟩) ∧
  decodeTableWord 16 0x0A7D = some (.pong ⟨false, 0, .short 125, none⟩) ∧
  decodeTableWord 16 0x9F00 = some (.rsvdF ⟨true, 1, .short 0, none⟩) ∧
  decodeTableWord 8 0x02 = some .readRawFrameHeader ∧
  decodeTableWord 8 0x04 = some (.read 0) ∧
  decodeTableWord 8 0x13 = some .closeConn ∧
  decodeTableWord 8 0x23 = some (.encodeHeader 0 false false ⟨0, 0, 0, 0⟩ 0) ∧
  decodeTableWord 8 0x05 = none

/-- R90 to R96, R104: decoding the words of a well-formed instruction gives it back, whatever octets follow a frame's
header, with every operand at every value its encoding admits (non-minimal lengths, reserved bits and all sixteen opcodes
among them). -/
def Obligations.DecodingUndoesEncoding : Prop :=
  ∀ i : Instr, i.wellFormed = true →
    match encode i with
    | .frame octets =>
      ∀ (cfg : Config) (tail : List Byte), cfg.rsvEnforce = false → cfg.maskEnforce = false →
        decodeFrame cfg (octets ++ tail) = .ok i octets.length
    | .command c => decodeCommand c = some i

/-- R90 to R96, R104: a word that decodes is the encoding of what it decodes to, so no bit of it is dropped: a frame's
header octet for octet, a command's code. What decodes is well formed. -/
def Obligations.EncodingUndoesDecoding : Prop :=
  (∀ (cfg : Config) (octets : List Byte) (i : Instr) (size : Nat), decodeFrame cfg octets = .ok i size →
    i.wellFormed = true ∧ size ≤ octets.length ∧ encode i = .frame (octets.take size)) ∧
  (∀ (c : Command) (i : Instr), decodeCommand c = some i → ∃ operands, encode i = .command ⟨c.code, operands⟩)

/-! ## The header codec (40_header_codec.md) -/

/-- R120, `PARSE_HEADER`. (An index beyond the buffer is outside the rule's operands; its pseudocode answers `NEED_MORE`
there too: log entry 26.) -/
def Obligations.ParseHeaderAnswersFirstOctetHigh : Prop :=
  ∀ (buf : List Byte) (st : Nat) (s : State),
    exec (.parseHeader buf st) s = .next { s with
      responses := ⟨0x20,
        if st + 2 > buf.length then .status .needMore
        else .bits (BitVec.ofNat 16 ((buf.getD st 0).toNat * 256 + (buf.getD (st + 1) 0).toNat)) (st + 2)⟩
          :: s.responses }

/-- R121, `PARSE_LENGTH`: the three forms, need-more before oversize, and the bound 2^62 - 1. -/
def Obligations.ParseLengthAnswersTheAnnouncedLength : Prop :=
  ∀ (bits : BitVec 16) (buf : List Byte) (i : Nat) (s : State),
    let len7 := bits.toNat % 128
    let v16 := (buf.getD i 0).toNat * 256 + (buf.getD (i + 1) 0).toNat
    let v64 := ∑ k ∈ Finset.range 8, (buf.getD (i + k) 0).toNat * 256 ^ (7 - k)
    exec (.parseLength bits buf i) s = .next { s with
      responses := ⟨0x21,
        if len7 ≤ 125 then .length len7 i
        else if len7 = 126 then
          if i + 2 > buf.length then .status .needMore else .length v16 (i + 2)
        else if i + 8 > buf.length then .status .needMore
        else if v64 > 2 ^ 62 - 1 then .oversize
        else .length v64 (i + 8)⟩ :: s.responses }

/-- R122, `READ_MASK`: four octets when the MASK bit is set, else the identity key and no octet read. -/
def Obligations.ReadMaskAnswersTheKey : Prop :=
  ∀ (bits : BitVec 16) (buf : List Byte) (i : Nat) (s : State),
    exec (.readMask bits buf i) s = .next { s with
      responses := ⟨0x22,
        if bits.getLsbD 7 then
          if i + 4 > buf.length then .status .needMore
          else .key ⟨buf.getD i 0, buf.getD (i + 1) 0, buf.getD (i + 2) 0, buf.getD (i + 3) 0⟩ (i + 4)
        else .key ⟨0, 0, 0, 0⟩ i⟩ :: s.responses }

/-- R123, `ENCODE_HEADER`: the octets one by one, reserved bits zero, the smallest length form, the key iff masked. -/
def Obligations.EncodeHeaderAnswersTheSmallestForm : Prop :=
  ∀ (op : BitVec 4) (fin masked : Bool) (key : Key) (payloadLen : BitVec 62) (s : State),
    let L := payloadLen.toNat
    let len7 := if L ≤ 125 then L else if L ≤ 65535 then 126 else 127
    let ext : List Byte :=
      if L ≤ 125 then []
      else if L ≤ 65535 then [BitVec.ofNat 8 (L / 256), BitVec.ofNat 8 (L % 256)]
      else (List.range 8).map fun k => BitVec.ofNat 8 (L / 256 ^ (7 - k) % 256)
    let k : List Byte := if masked then [key.k0, key.k1, key.k2, key.k3] else []
    exec (.encodeHeader op fin masked key payloadLen) s = .next { s with
      responses := ⟨0x23, .octets
        (BitVec.ofNat 8 (fin.toNat * 128 + op.toNat) :: BitVec.ofNat 8 (masked.toNat * 128 + len7) :: ext ++ k)⟩
          :: s.responses }

/-- R126: the size of a header that parses is read off its second octet. -/
def Obligations.HeaderSizeIsReadOffTheSecondOctet : Prop :=
  ∀ (buf : List Byte) (st : Nat) (bits : BitVec 16) (len : Nat) (key : Key) (p : Nat),
    parseFull buf st = .ok bits len key p →
      p = st + headerSize bits ∧ p ≤ buf.length ∧
      headerSize bits = 2 + (if bits.toNat % 128 ≤ 125 then 0 else if bits.toNat % 128 = 126 then 2 else 8) +
        (if bits.getLsbD 7 then 4 else 0)

/-- R127: the reader's parse undoes the writer's header, and the converse does not hold. -/
def Obligations.ParseUndoesEncodeHeader : Prop :=
  (∀ (op : BitVec 4) (fin masked : Bool) (key : Key) (L : Nat) (T : List Byte), L ≤ 2 ^ 62 - 1 →
    ∃ bits : BitVec 16,
      parseFull (encodeHeader op fin masked key L ++ T) 0 =
        .ok bits L (if masked then key else ⟨0, 0, 0, 0⟩) (encodeHeader op fin masked key L).length ∧
      bits.getLsbD 15 = fin ∧ bits.toNat / 4096 % 8 = 0 ∧ bits.toNat / 256 % 16 = op.toNat ∧
      bits.getLsbD 7 = masked) ∧
  (∃ (octets : List Byte) (bits : BitVec 16) (L : Nat) (key : Key),
    parseFull octets 0 = .ok bits L key octets.length ∧
      ∀ op fin masked key' L', encodeHeader op fin masked key' L' ≠ octets)

/-- 30_encoding.md R102: fourteen octets are always enough for a header, and what follows a complete header changes
nothing. -/
def Obligations.FourteenOctetsSettleAHeader : Prop :=
  (∀ (cfg : Config) (buf : List Byte) (st : Nat), st + 14 ≤ buf.length → parseChecked cfg buf st ≠ .needMore) ∧
  (∀ (cfg : Config) (buf more : List Byte) (st : Nat), parseChecked cfg buf st ≠ .needMore →
    parseChecked cfg (buf ++ more) st = parseChecked cfg buf st)

/-- 30_encoding.md R101: an eight-octet length is oversize iff one of the two top bits of its first octet is set. -/
def Obligations.OversizeIsTheTwoTopBits : Prop :=
  ∀ (bits : BitVec 16) (buf : List Byte) (i : Nat), bits.toNat % 128 = 127 → i + 8 ≤ buf.length →
    (parseLength bits buf i = .oversize ↔ (buf.getD i 0).toNat / 64 ≠ 0)

/-! ## Masking (41_masking.md) -/

/-- R140, `MASK`: octet `j` is XORed with octet `(offset + j) mod 4` of the key. -/
def Obligations.MaskXorsEachOctetWithItsKeyOctet : Prop :=
  ∀ (buf : List Byte) (key : Key) (offset : Nat) (s : State), ∃ out : List Byte,
    exec (.mask buf key offset) s = .next { s with responses := ⟨0x24, .octets out⟩ :: s.responses } ∧
    out.length = buf.length ∧
    ∀ j < buf.length, out.getD j 0 = buf.getD j 0 ^^^ [key.k0, key.k1, key.k2, key.k3].getD ((offset + j) % 4) 0

/-- R141. -/
def Obligations.MaskingTwiceIsTheIdentity : Prop :=
  ∀ (buf : List Byte) (key : Key) (offset : Nat), mask (mask buf key offset) key offset = buf

/-- R142: the offset counts modulo 4, and a payload may be masked in pieces. -/
def Obligations.MaskingInPiecesIsMasking : Prop :=
  (∀ (buf : List Byte) (key : Key) (offset : Nat), mask buf key offset = mask buf key (offset % 4)) ∧
  (∀ (X Y : List Byte) (key : Key) (offset : Nat),
    mask (X ++ Y) key offset = mask X key offset ++ mask Y key (offset + X.length))

/-- R144: the identity key, which a header without the MASK bit gives. -/
def Obligations.TheZeroKeyLeavesOctetsUnchanged : Prop :=
  (∀ (buf : List Byte) (offset : Nat), mask buf ⟨0, 0, 0, 0⟩ offset = buf) ∧
  (∀ (cfg : Config) (buf : List Byte) (st : Nat) (bits : BitVec 16) (len : Nat) (key : Key) (next : Nat),
    parseChecked cfg buf st = .ok bits len key next → bits.getLsbD 7 = false → key = ⟨0, 0, 0, 0⟩)

/-! ## Creation and reset (10_state.md R46, 70_reset_and_hazards.md) -/

/-- R46: every register at the value the spec gives it; octets without a value cannot be read. (`RERR` has no value in
the spec: log entry 5, not stated here.) -/
def Obligations.ANewConnectionHasTheResetValues : Prop :=
  ∀ cfg : Config, let s := State.initial cfg
    s.cfg = cfg ∧ s.r.ST = 0 ∧ s.r.I = 0 ∧ s.r.START = 0 ∧ s.r.END = cfg.preload.length ∧ s.r.MORE = 0 ∧
    s.r.HDR = 0 ∧ s.r.KEY = ⟨0, 0, 0, 0⟩ ∧ s.r.RSTATE = .betweenFrames ∧ s.w.WLEN = 0 ∧
    s.w.WCLOSED = false ∧ s.w.TCLOSED = false ∧ s.RLOCK = none ∧ s.WLOCK = none ∧
    (∀ a, s.r.RBUF.readByte a = cfg.preload[a]?) ∧
    (∀ a, s.r.CBUF.readByte a = none) ∧ (∀ a, s.w.WBUF.readByte a = none)

/-- R292 and 00_scope.md R5: creation is refused for `RBUF_SIZE` below 32 or a `PRELOAD` that does not fit. -/
def Obligations.CreationIsRefusedExactlyWhenIllegal : Prop :=
  ∀ cfg : Config,
    (State.create cfg = none ↔ cfg.rbufSize < 32 ∨ cfg.preload.length > cfg.rbufSize) ∧
    (¬ (cfg.rbufSize < 32 ∨ cfg.preload.length > cfg.rbufSize) → State.create cfg = some (State.initial cfg))

/-- The state after reset meets the invariant. -/
def Obligations.TheResetStateMeetsTheInvariant : Prop := State.reset.Inv

/-- Every legal creation meets the invariant (10_state.md R37 to R41). -/
def Obligations.EveryLegalCreationMeetsTheInvariant : Prop :=
  ∀ (cfg : Config) (s : State), State.create cfg = some s → s.Inv

/-! ## Every step (10_state.md, 20_memory.md, 60_exceptions.md) -/

/-- R37, R39, R24, R26, R30, R36, R41, 44_frame_writer.md R204: what the registers, locks and suspended commands satisfy
at every observable moment, kept by every step from every state that satisfies it. -/
def Obligations.EveryStepKeepsTheInvariant : Prop :=
  ∀ s t : State, s.Inv → step s = .next t → t.Inv

/-- R263, 42_read_buffer.md R153, 10_state.md R21: from a state that meets the invariant no step is refused and no octet
without a value is read; the one fault is `PANIC`. -/
def Obligations.NoStepIsRefusedAndThePanicIsTheOnlyFault : Prop :=
  ∀ s : State, s.Inv → (∃ t, step s = .next t) ∨ step s = .fault .panic

/-- 10_state.md R20, R33, R34, R35, 20_memory.md R65: the configuration never changes, `WCLOSED` and `TCLOSED` are never
cleared, and neither a transaction nor a response is ever withdrawn. -/
def Obligations.StepsNeverWithdrawFlagsOrTransactions : Prop :=
  ∀ s t : State, s.Inv → step s = .next t →
    t.cfg = s.cfg ∧ (s.w.WCLOSED = true → t.w.WCLOSED = true) ∧ (s.w.TCLOSED = true → t.w.TCLOSED = true) ∧
    s.trace <:+ t.trace ∧ s.responses <:+ t.responses

/-- 20_memory.md R72, 42_read_buffer.md R154, 10_state.md R38: the octets received and not yet consumed stay in stream
order. A step takes octets from their front or changes nothing of them, whatever compactions and `TRead`s it makes; an
answer of the transport is put at their end. -/
def Obligations.OctetsAreConsumedInStreamOrder : Prop :=
  ∀ (s t : State) (e : Event) (rest : List Event), s.Inv → s.events = e :: rest → step s = .next t →
    match e with
    | .rx (.data d) => unread t = unread s ++ d
    | .rx _ => unread t = unread s
    | .reader _ => ∃ taken, unread s = taken ++ unread t
    | .host _ => ∃ taken, unread s = taken ++ unread t
    | _ => unread t = unread s

/-- 43_frame_reader.md R163, 20_memory.md R78 and log entries 1 and 12: when the reader fetches and its header is whole
in `RBUF[ST..END)`, its step executes the frame those octets decode to; where that goes on, the reader's command then
runs to its return or its next suspension point in the same step, and where that stops, the step stops. -/
def Obligations.AStepRunsTheFetchedFrame : Prop :=
  ∀ (s : State) (pick : Nat) (call : HeaderCall) (rest : List Event) (octets : List Byte) (i : Instr) (size : Nat),
    s.events = .reader pick :: rest → s.reader = .header call .fetch →
    s.r.RBUF.readBytes s.r.ST (s.r.END - s.r.ST) = some octets → decodeFrame s.cfg octets = .ok i size →
      (∀ u, exec i { s with events := rest } = .next u → step s = runReader (moveBound u) u) ∧
      (∀ f, exec i { s with events := rest } = .fault f → step s = .fault f) ∧
      (∀ u, exec i { s with events := rest } = .next u → u.reader = .idle → step s = .next u)

/-- 45_facade.md R236, R237: an issued command executes the instruction its code names; any other code is answered
`MISUSE` and changes nothing. -/
def Obligations.AStepRunsTheIssuedCommand : Prop :=
  ∀ (s : State) (c : Command) (rest : List Event), s.events = .host c :: rest →
    (∀ i, decodeCommand c = some i → step s = exec i { s with events := rest }) ∧
    (c.code.toNat ∉ [0x01, 0x02, 0x03, 0x04, 0x10, 0x11, 0x12, 0x13, 0x20, 0x21, 0x22, 0x23, 0x24] →
      step s = .next { s with events := rest, responses := ⟨c.code, .status .misuse⟩ :: s.responses })

/-- 20_memory.md R76: a command issued while its lock is held waits, unless it is refused before it asks for the lock
(44_frame_writer.md R200); once the lock is free, a turn of its agent runs the one the schedule picks. (The waiting list
and the event's `pick` are the model's way to leave the choice to the schedule: log entry 10, DESIGN CHOICE.) -/
def Obligations.CommandsWaitForTheirLock : Prop :=
  (∀ (s : State) (i : Instr) (a : Agent), s.RLOCK = some a → onReadPort i = true →
    exec i s = .next { s with rWait := s.rWait ++ [i] }) ∧
  (∀ (s : State) (i : Instr) (a : Agent), s.WLOCK = some a → onWritePort i = true →
    (∀ payload, (i = .write payload ∨ ∃ op final, i = .writeFrame payload op final) →
      payload.length ≤ 2 ^ 62 - 1 ∧ ∀ cap, s.cfg.wbufCap = some cap → 14 + payload.length ≤ cap) →
    exec i s = .next { s with wWait := s.wWait ++ [i] }) ∧
  (∀ (s : State) (pick : Nat) (rest : List Event) (i : Instr) (before after : List Instr),
    s.events = .reader pick :: rest → s.reader = .idle → s.RLOCK = none →
    s.rWait = before ++ i :: after → before.length = pick →
      step s = exec i { s with events := rest, rWait := before ++ after }) ∧
  (∀ (s : State) (pick : Nat) (rest : List Event) (i : Instr) (before after : List Instr),
    s.events = .writer pick :: rest → s.writer = .idle → s.WLOCK = none →
    s.wWait = before ++ i :: after → before.length = pick →
      step s = exec i { s with events := rest, wWait := before ++ after })

/-- 20_memory.md R78 and log entries 1 and 11: what lies between two suspension points is one transition. A turn of the
reader, and an R-port command when it is issued, end with the command returned or at a suspension point; so does every
run of moves, and a control frame's with its fetch: the model's bounds on moves never cut one short. -/
def Obligations.ReaderCommandsRunUntilTheyReturnOrWait : Prop :=
  (∀ (s t : State) (pick : Nat) (rest : List Event), s.Inv → s.events = .reader pick :: rest → step s = .next t →
    t.readerSuspended) ∧
  (∀ (s t : State) (i : Instr), s.Inv → s.RLOCK = none → onReadPort i = true → exec i s = .next t →
    t.readerSuspended) ∧
  (∀ s t : State, s.Inv → runReader (moveBound s) s = .next t → t.readerSuspended) ∧
  (∀ (s t : State) (call : HeaderCall) (phase : HeaderPhase), s.Inv → s.reader = .header call phase →
    runControl (moveBound s) s = .next t → t.reader = .header call .fetch ∨ t.readerSuspended)

/-- 10_state.md R20, R33, 20_memory.md R75, R79, 60_exceptions.md R268, 44_frame_writer.md R206: a turn of the reader
leaves `WCLOSED`, `TCLOSED` and the writer's command alone; the rest of the writer's registers too when `PONG_MODE` is
`PASSTHROUGH`, and, in either mode, together with `WLOCK` and the answers to `TWrite`, while a W-port command runs. (A
`FRESH` Pong composes its frame in `WBUF` under `WLOCK`, R207.) A turn of the writer leaves every register of the reader,
`RLOCK`, the reader's command and the RX stream alone. -/
def Obligations.TheTwoSidesTouchDisjointState : Prop :=
  ∀ (s t : State) (pick : Nat) (rest : List Event), s.Inv → step s = .next t →
    (s.events = .reader pick :: rest →
      (t.w.WCLOSED = s.w.WCLOSED ∧ t.w.TCLOSED = s.w.TCLOSED ∧ t.writer = s.writer ∧ t.wWait = s.wWait ∧
        t.env.closes = s.env.closes) ∧
      (s.cfg.pongMode = .passthrough → t.w = s.w) ∧
      (s.writer ≠ .idle → t.w = s.w ∧ t.WLOCK = s.WLOCK ∧ t.env.tx = s.env.tx)) ∧
    (s.events = .writer pick :: rest → t.r = s.r ∧ t.RLOCK = s.RLOCK ∧ t.reader = s.reader ∧ t.rWait = s.rWait ∧
      t.env.rx = s.env.rx)

/-- 60_exceptions.md R271: every R-port command issued in `Closed` answers `RERR`, with count 0 where it returns a count,
and makes no transaction; and no step leaves `Closed` or changes a register of the reader in it. -/
def Obligations.AClosedReaderAnswersItsStatusForEver : Prop :=
  (∀ s : State, s.RLOCK = none → s.r.RSTATE = .closed →
    exec .readFrameHeader s = .next { s with responses := ⟨0x01, .status s.r.RERR⟩ :: s.responses } ∧
    exec .readRawFrameHeader s = .next { s with responses := ⟨0x02, .status s.r.RERR⟩ :: s.responses } ∧
    (∀ n, exec (.appendFrame n) s = .next { s with responses := ⟨0x03, .delivered [] s.r.RERR⟩ :: s.responses }) ∧
    (∀ n, exec (.read n) s = .next { s with responses := ⟨0x04, .delivered [] s.r.RERR⟩ :: s.responses })) ∧
  (∀ s t : State, s.Inv → s.r.RSTATE = .closed → step s = .next t → t.r = s.r)

/-! ## The read buffer (42_read_buffer.md) -/

/-- R150, R154: `fill` slides from `I` iff `I ≥ END div 2`; the unread octets keep their order, `END - I`, `I - START`
and `MORE` are unchanged, the cursors stay in their order; it panics iff no room results. -/
def Obligations.CompactionKeepsTheUnreadOctets : Prop :=
  ∀ s : State, CursorInv s →
    (fill s = none ↔ (if s.r.I ≥ s.r.END / 2 then s.r.END - s.r.I else s.r.END) = s.cfg.rbufSize) ∧
    (∀ t, fill s = some t →
      t = { s with
        r := { s.r with RBUF := t.r.RBUF, ST := t.r.ST, I := t.r.I, END := t.r.END, START := t.r.START } } ∧
      (s.r.I ≥ s.r.END / 2 → t.r.I = 0 ∧ t.r.ST = s.r.ST - s.r.I ∧ t.r.START = s.r.START - s.r.I ∧
        t.r.END = s.r.END - s.r.I ∧ ∀ k < s.r.END - s.r.I, t.r.RBUF.readByte k = s.r.RBUF.readByte (s.r.I + k)) ∧
      (s.r.I < s.r.END / 2 → t = s) ∧
      t.r.END - t.r.I = s.r.END - s.r.I ∧ (t.r.I : Int) - t.r.START = s.r.I - s.r.START ∧ t.r.MORE = s.r.MORE ∧
      t.r.ST ≤ t.r.I ∧ t.r.I ≤ t.r.END ∧ t.r.END < t.cfg.rbufSize)

/-- R153: where the reader calls it, `fill` finds room: in a header fetch whose header is not complete, and when nothing
is unread. -/
def Obligations.FillFindsRoomWhereTheReaderCallsIt : Prop :=
  ∀ s : State, s.Inv →
    (∀ (call : HeaderCall) (octets : List Byte), s.reader = .header call .fetch →
      s.r.RBUF.readBytes s.r.ST (s.r.END - s.r.ST) = some octets → parseChecked s.cfg octets 0 = .needMore →
        ∃ t, fill s = some t) ∧
    (s.r.I = s.r.END → ∃ t, fill s = some t)

/-! ## Header fetch and dispatch (43_frame_reader.md, 45_facade.md) -/

/-- R231, R161, R164: `READ_FRAME_HEADER` on a data frame whose header is buffered. -/
def Obligations.ReadFrameHeaderReturnsTheNextDataFrame : Prop :=
  ∀ (s : State) (octets : List Byte) (bits : BitVec 16) (len next : Nat) (key : Key),
    s.RLOCK = none → s.r.RSTATE ≠ .closed → s.r.MORE = 0 →
    s.r.RBUF.readBytes s.r.I (s.r.END - s.r.I) = some octets →
    parseChecked s.cfg octets 0 = .ok bits len key next → (hdrOpcode bits).toNat ∈ [0, 1, 2] →
      exec .readFrameHeader s = .next { s with
        r := { s.r with
          ST := s.r.I, I := s.r.I + next, START := ((s.r.I + next : Nat) : Int), MORE := len, HDR := bits, KEY := key
          RSTATE := .inDataFrame }
        reader := .idle
        responses := ⟨0x01, .header (hdrOpcode bits) (hdrFin bits) len⟩ :: s.responses }

/-- R232: `READ_RAW_FRAME_HEADER` returns a frame of any known opcode and intercepts nothing. -/
def Obligations.ReadRawFrameHeaderReturnsAnyKnownFrame : Prop :=
  ∀ (s : State) (octets : List Byte) (bits : BitVec 16) (len next : Nat) (key : Key),
    s.RLOCK = none → s.r.RSTATE ≠ .closed → s.r.MORE = 0 →
    s.r.RBUF.readBytes s.r.I (s.r.END - s.r.I) = some octets →
    parseChecked s.cfg octets 0 = .ok bits len key next → (hdrOpcode bits).toNat ∈ [0, 1, 2, 8, 9, 10] →
      exec .readRawFrameHeader s = .next { s with
        r := { s.r with
          ST := s.r.I, I := s.r.I + next, START := ((s.r.I + next : Nat) : Int), MORE := len, HDR := bits, KEY := key
          RSTATE := .inDataFrame }
        reader := .idle
        responses := ⟨0x02, .header (hdrOpcode bits) (hdrFin bits) len⟩ :: s.responses }

/-- R161, R231, R232, 20_memory.md R64: the same two commands when the header's octets are not all buffered, however the
transport splits them. The header is latched and returned, what follows it stays unread in order, and no `TRead` is made
for a header that is whole in the buffer. -/
def Obligations.AHeaderIsFoundHoweverItsOctetsArrive : Prop :=
  ∀ (s : State) (i : Instr) (code : Byte) (ops : List Nat) (bits : BitVec 16) (len next : Nat) (key : Key),
    (i, code, ops) ∈ [(Instr.readFrameHeader, (0x01 : Byte), [0, 1, 2]),
      (.readRawFrameHeader, 0x02, [0, 1, 2, 8, 9, 10])] →
    s.Inv → s.RLOCK = none → s.r.RSTATE ≠ .closed → s.r.MORE = 0 → (∀ a ∈ s.env.rx, ∃ d, a = RxAnswer.data d) →
    parseChecked s.cfg (unread s) 0 = .ok bits len key next → (hdrOpcode bits).toNat ∈ ops →
      ∃ (t : State) (reads : List Transaction), exec i s = .next t ∧
        t = { s with
          r := { s.r with
            RBUF := t.r.RBUF, ST := t.r.ST, I := t.r.I, END := t.r.END, START := t.r.I, MORE := len, HDR := bits
            KEY := key, RSTATE := .inDataFrame }
          env := { s.env with rx := t.env.rx }
          responses := ⟨code, .header (hdrOpcode bits) (hdrFin bits) len⟩ :: s.responses
          trace := reads ++ s.trace } ∧
        t.r.ST + next = t.r.I ∧ unread t = (unread s).drop next ∧
        rxStream s.env.rx = receivedOctets reads ++ rxStream t.env.rx ∧ (next ≤ s.r.END - s.r.I → reads = [])

/-- R231, R232, R237: a header command in the middle of a payload is refused with `MISUSE` and changes nothing. -/
def Obligations.HeaderCommandsRefuseAnUnreadPayload : Prop :=
  ∀ s : State, s.RLOCK = none → s.r.RSTATE ≠ .closed → s.r.MORE > 0 →
    exec .readFrameHeader s = .next { s with responses := ⟨0x01, .status .misuse⟩ :: s.responses } ∧
    exec .readRawFrameHeader s = .next { s with responses := ⟨0x02, .status .misuse⟩ :: s.responses }

/-- R161, R177, 45_facade.md R230, 60_exceptions.md R269, R270: a transport status met while a header is not complete is
returned, by `read` with the count 0, the timeout relabelled iff the token has fired; it is not fatal, the partial header
stays buffered, and the one transaction is the `TRead` of the buffer's free room (42_read_buffer.md R151). -/
def Obligations.ATransportStatusInAHeaderFetchIsNotFatal : Prop :=
  ∀ (s : State) (n : Nat) (i : Instr) (call : HeaderCall) (octets : List Byte) (a : RxAnswer) (left : List RxAnswer),
    (i, call) ∈ [(Instr.readFrameHeader, HeaderCall.frameHeader), (.readRawFrameHeader, .rawFrameHeader),
      (.read n, .read n)] →
    s.Inv → s.RLOCK = none → s.r.RSTATE ≠ .closed → s.r.MORE = 0 →
    s.r.RBUF.readBytes s.r.I (s.r.END - s.r.I) = some octets → parseChecked s.cfg octets 0 = .needMore →
    s.env.rx = a :: left → (∀ d, a ≠ .data d) →
      let k : Status := match a with
        | .data _ => .ok
        | .eof => .endOfStream
        | .timeout => if s.env.cancelFired then .cancelled else .transport .timeout
        | .err e => .transport (.other e)
      let answer : ReadStatus := match a with
        | .data _ => .ok
        | .eof => .eof
        | .timeout => .timeout
        | .err e => .err e
      let response : Response := match call with
        | .frameHeader => ⟨0x01, .status k⟩
        | .rawFrameHeader => ⟨0x02, .status k⟩
        | .read _ => ⟨0x04, .delivered [] k⟩
      ∃ t, exec i s = .next t ∧
        t.r.RBUF.readBytes t.r.I (t.r.END - t.r.I) = some octets ∧
        t = { s with
          r := { s.r with RBUF := t.r.RBUF, ST := t.r.I, I := t.r.I, END := t.r.END, START := t.r.START }
          reader := .idle
          env := { s.env with rx := left }
          responses := response :: s.responses
          trace := .read (s.cfg.rbufSize - t.r.END) [] answer :: s.trace }

/-- R161, 45_facade.md R230, 20_memory.md R64, R78: while the octets that have arrived, buffered or on the transport, do
not complete a header, a header command waits, `RLOCK` held and nothing lost: those on the transport join the partial
header, in whatever pieces they come. So does a turn of a command that waits there already. -/
def Obligations.APartialHeaderWaitsForItsOctets : Prop :=
  (∀ (s : State) (n : Nat) (i : Instr) (call : HeaderCall),
    (i, call) ∈ [(Instr.readFrameHeader, HeaderCall.frameHeader), (.readRawFrameHeader, .rawFrameHeader),
      (.read n, .read n)] →
    s.Inv → s.RLOCK = none → s.r.RSTATE ≠ .closed → s.r.MORE = 0 → (∀ a ∈ s.env.rx, ∃ d, a = RxAnswer.data d) →
    parseChecked s.cfg (unread s) 0 = .needMore →
      ∃ (t : State) (reads : List Transaction), exec i s = .next t ∧
        t.r.RBUF.readBytes t.r.ST (t.r.END - t.r.ST) = some (unread s) ∧
        t = { s with
          r := { s.r with RBUF := t.r.RBUF, ST := t.r.I, I := t.r.I, END := t.r.END, START := t.r.START }
          RLOCK := some .reader
          reader := .header call .fetch
          env := { s.env with rx := [] }
          trace := reads ++ s.trace } ∧
        receivedOctets reads = rxStream s.env.rx ∧ (s.env.rx = [] → reads = [])) ∧
  (∀ (s : State) (pick : Nat) (call : HeaderCall) (rest : List Event),
    s.Inv → s.events = .reader pick :: rest → s.reader = .header call .fetch →
    (∀ a ∈ s.env.rx, ∃ d, a = RxAnswer.data d) → parseChecked s.cfg (unread s) 0 = .needMore →
      ∃ (t : State) (reads : List Transaction), step s = .next t ∧
        t.r.RBUF.readBytes t.r.ST (t.r.END - t.r.ST) = some (unread s) ∧
        t = { s with
          events := rest
          r := { s.r with RBUF := t.r.RBUF, ST := t.r.I, I := t.r.I, END := t.r.END, START := t.r.START }
          env := { s.env with rx := [] }
          trace := reads ++ s.trace } ∧
        receivedOctets reads = rxStream s.env.rx ∧ (s.env.rx = [] → reads = []))

/-- 60_exceptions.md R267, R250, 43_frame_reader.md R162: of several faults of one header the first in the order is
reported; the checks made during the parse latch nothing. -/
def Obligations.HeaderFaultsAreReportedInTheirOrder : Prop :=
  ∀ (s : State) (pick : Nat) (call : HeaderCall) (rest : List Event) (b0 b1 : Byte) (more : List Byte),
    s.events = .reader pick :: rest → s.reader = .header call .fetch →
    s.r.RBUF.readBytes s.r.ST (s.r.END - s.r.ST) = some (b0 :: b1 :: more) →
      let bits : BitVec 16 := b0 ++ b1
      let rsvBad := s.cfg.rsvEnforce = true ∧ bits.toNat / 4096 % 8 ≠ 0
      let maskBad := s.cfg.maskEnforce = true ∧ (bits.getLsbD 7 = decide (s.cfg.role = .client))
      let sizeBad := bits.toNat % 128 = 127 ∧ 8 ≤ more.length ∧ (more.getD 0 0).toNat / 64 ≠ 0
      let closed := fun k : Status => Host.Outcome.next (φ := Fault) (ρ := Refusal) { s with
        events := rest
        r := { s.r with RSTATE := .closed, RERR := k }
        RLOCK := none
        reader := .idle
        responses := ⟨headerCallCode call, headerStatus call k⟩ :: s.responses }
      (rsvBad → step s = closed .protocolReservedBits) ∧
      (¬ rsvBad → maskBad → step s = closed .protocolMaskViolation) ∧
      (¬ rsvBad → ¬ maskBad → sizeBad → step s = closed .protocolOversizeLength)

/-- R164 to R166: `CONT`, `TEXT` and `BIN` are latched and returned; under `read` the delivery of
`min(n, len)` octets follows (45_facade.md R230), whose place is the model's (log entry 1, DESIGN CHOICE). -/
def Obligations.DataFramesAreLatchedAndReturned : Prop :=
  ∀ (s : State) (h : Head) (call : HeaderCall) (i : Instr) (op : BitVec 4),
    (i, op) ∈ [(Instr.cont h, 0), (.text h, 1), (.bin h, 2)] → s.reader = .header call .fetch →
      let first := s.r.ST + (h.octets op).length
      let r : ReaderRegs := { s.r with
        HDR := h.bits op, KEY := h.key.getD ⟨0, 0, 0, 0⟩, I := first, START := (first : Int), MORE := h.len.length
        RSTATE := .inDataFrame }
      exec i s = .next (match call with
        | .frameHeader => { s with
          r := r, RLOCK := none, reader := .idle, responses := ⟨0x01, .header op h.fin h.len.length⟩ :: s.responses }
        | .rawFrameHeader => { s with
          r := r, RLOCK := none, reader := .idle, responses := ⟨0x02, .header op h.fin h.len.length⟩ :: s.responses }
        | .read n => { s with r := r, reader := .deliver .read (min n h.len.length) [] })

/-- R170, 60_exceptions.md R255, R268: the ten reserved opcodes close the reader, for every header command alike; the
header is latched. -/
def Obligations.ReservedOpcodesCloseTheReader : Prop :=
  ∀ (s : State) (h : Head) (call : HeaderCall) (i : Instr) (op : BitVec 4),
    (i, op) ∈ [(Instr.rsvd3 h, 3), (.rsvd4 h, 4), (.rsvd5 h, 5), (.rsvd6 h, 6), (.rsvd7 h, 7), (.rsvdB h, 11),
      (.rsvdC h, 12), (.rsvdD h, 13), (.rsvdE h, 14), (.rsvdF h, 15)] → s.reader = .header call .fetch →
      let first := s.r.ST + (h.octets op).length
      exec i s = .next { s with
        r := { s.r with
          HDR := h.bits op, KEY := h.key.getD ⟨0, 0, 0, 0⟩, I := first, START := (first : Int), MORE := h.len.length
          RSTATE := .closed, RERR := .protocolUnknownOpcode }
        RLOCK := none
        reader := .idle
        responses := ⟨headerCallCode call, headerStatus call .protocolUnknownOpcode⟩ :: s.responses }

/-- 45_facade.md R232: for `readRawFrameHeader` the control frames too are returned like data frames. -/
def Obligations.RawControlFramesAreReturned : Prop :=
  ∀ (s : State) (h : Head) (i : Instr) (op : BitVec 4),
    (i, op) ∈ [(Instr.close h, 8), (.ping h, 9), (.pong h, 10)] → s.reader = .header .rawFrameHeader .fetch →
      let first := s.r.ST + (h.octets op).length
      exec i s = .next { s with
        r := { s.r with
          HDR := h.bits op, KEY := h.key.getD ⟨0, 0, 0, 0⟩, I := first, START := (first : Int), MORE := h.len.length
          RSTATE := .inDataFrame }
        RLOCK := none
        reader := .idle
        responses := ⟨0x02, .header op h.fin h.len.length⟩ :: s.responses }

/-- R176, R169, R171, R173, 60_exceptions.md R253, R258, R270: a Close closes the reader with the status its payload,
unmasked, gives; at most 128 octets are read. First the payload whole in the buffer; then octets still on the transport,
in whatever pieces; then a status of the transport before they are there: an end after at least one octet is swallowed
and the octets obtained are parsed, any other status closes the reader; last, nothing more on the transport: the command
waits. -/
def Obligations.ACloseFrameEndsTheStream : Prop :=
  let verdict := fun payload : List Byte => match payload with
    | [] => Status.endOfStream
    | [_] => .malformedClose
    | [c0, c1] => if c0.toNat * 256 + c1.toNat = 1000 then .endOfStream else .closeStatus (c0 ++ c1) []
    | c0 :: c1 :: reason => .closeStatus (c0 ++ c1) reason
  (∀ (s : State) (h : Head) (call : HeaderCall) (bs : List Byte),
    let first := s.r.ST + (h.octets 8).length
    let k := min 128 h.len.length
    s.reader = .header call .fetch → call ≠ .rawFrameHeader → first + k ≤ s.r.END →
    s.r.RBUF.readBytes first k = some bs →
      let payload := mask bs (h.key.getD ⟨0, 0, 0, 0⟩) 0
      exec (.close h) s = .next { s with
        r := { s.r with
          HDR := h.bits 8, KEY := h.key.getD ⟨0, 0, 0, 0⟩, I := first + k, START := (first : Int)
          MORE := h.len.length - k, CBUF := s.r.CBUF.writeBytes 0 payload, RSTATE := .closed, RERR := verdict payload }
        RLOCK := none
        reader := .idle
        responses := ⟨headerCallCode call, headerStatus call (verdict payload)⟩ :: s.responses }) ∧
  (∀ (s : State) (h : Head) (call : HeaderCall) (bs : List Byte) (chunks : List (List Byte)) (tail : List RxAnswer),
    let first := s.r.ST + (h.octets 8).length
    let k := min 128 h.len.length
    let key := h.key.getD ⟨0, 0, 0, 0⟩
    let inHand := bs ++ chunks.flatten
    s.Inv → s.reader = .header call .fetch → call ≠ .rawFrameHeader → h.wellFormed = true → first ≤ s.r.END →
    s.r.RBUF.readBytes first (s.r.END - first) = some bs → s.env.rx = chunks.map RxAnswer.data ++ tail →
      (k ≤ inHand.length →
        let payload := mask (inHand.take k) key 0
        ∃ (t : State) (reads : List Transaction), exec (.close h) s = .next t ∧
          t = { s with
            r := { s.r with
              RBUF := t.r.RBUF, ST := t.r.ST, I := t.r.I, END := t.r.END, START := t.r.START
              HDR := h.bits 8, KEY := key, MORE := h.len.length - k, CBUF := s.r.CBUF.writeBytes 0 payload
              RSTATE := .closed, RERR := verdict payload }
            RLOCK := none
            reader := .idle
            env := { s.env with rx := t.env.rx }
            responses := ⟨headerCallCode call, headerStatus call (verdict payload)⟩ :: s.responses
            trace := reads ++ s.trace } ∧
          unread t = inHand.drop k ++ rxStream tail ∧ DeliveryReads s.cfg.rbufSize (k - bs.length) reads) ∧
      (∀ (a : RxAnswer) (left : List RxAnswer), inHand.length < k → tail = a :: left → (∀ d, a ≠ .data d) →
        let payload := mask inHand key 0
        let status : Status := match a with
          | .data _ => .ok
          | .eof => if 0 < inHand.length then verdict payload else .endOfStream
          | .timeout => if s.env.cancelFired then .cancelled else .transport .timeout
          | .err e => .transport (.other e)
        let answer : ReadStatus := match a with
          | .data _ => .ok
          | .eof => .eof
          | .timeout => .timeout
          | .err e => .err e
        let wanted := k - inHand.length
        ∃ (t : State) (reads : List Transaction), exec (.close h) s = .next t ∧
          t = { s with
            r := { s.r with
              RBUF := t.r.RBUF, ST := t.r.ST, I := t.r.I, END := t.r.I, START := t.r.START
              HDR := h.bits 8, KEY := key, MORE := h.len.length - inHand.length
              CBUF := s.r.CBUF.writeBytes 0 payload, RSTATE := .closed, RERR := status }
            RLOCK := none
            reader := .idle
            env := { s.env with rx := left }
            responses := ⟨headerCallCode call, headerStatus call status⟩ :: s.responses
            trace := .read (if wanted ≥ s.cfg.rbufSize - 16 then wanted else s.cfg.rbufSize) [] answer ::
              reads ++ s.trace } ∧
          receivedOctets reads = chunks.flatten ∧ DeliveryReads s.cfg.rbufSize (k - bs.length) reads) ∧
      (inHand.length < k → tail = [] →
        ∃ (t : State) (reads : List Transaction), exec (.close h) s = .next t ∧
          t = { s with
            r := { s.r with
              RBUF := t.r.RBUF, ST := t.r.ST, I := t.r.I, END := t.r.I, START := t.r.START
              HDR := h.bits 8, KEY := key, MORE := h.len.length - inHand.length
              CBUF := s.r.CBUF.writeBytes 0 (mask inHand key 0) }
            reader := .header call (.close k inHand.length)
            env := { s.env with rx := [] }
            trace := reads ++ s.trace } ∧
          receivedOctets reads = chunks.flatten ∧ DeliveryReads s.cfg.rbufSize (k - bs.length) reads))

/-- R168, R175: a Pong is dropped and the next header fetched; nothing is returned or sent. First the payload whole in
the buffer, then octets still on the transport, in whatever pieces: those after the payload stay unread in order. -/
def Obligations.APongIsDropped : Prop :=
  (∀ (s : State) (h : Head) (call : HeaderCall),
    let first := s.r.ST + (h.octets 10).length
    s.reader = .header call .fetch → call ≠ .rawFrameHeader → first + h.len.length ≤ s.r.END →
      exec (.pong h) s = .next { s with
        r := { s.r with
          HDR := h.bits 10, KEY := h.key.getD ⟨0, 0, 0, 0⟩, START := (first : Int), MORE := 0
          ST := first + h.len.length, I := first + h.len.length } }) ∧
  (∀ (s : State) (h : Head) (call : HeaderCall) (bs : List Byte) (chunks : List (List Byte)) (tail : List RxAnswer),
    let first := s.r.ST + (h.octets 10).length
    let inHand := bs ++ chunks.flatten
    s.Inv → s.reader = .header call .fetch → call ≠ .rawFrameHeader → h.wellFormed = true → first ≤ s.r.END →
    s.r.RBUF.readBytes first (s.r.END - first) = some bs → s.env.rx = chunks.map RxAnswer.data ++ tail →
    h.len.length ≤ inHand.length →
      ∃ (t : State) (reads : List Transaction), exec (.pong h) s = .next t ∧
        t = { s with
          r := { s.r with
            RBUF := t.r.RBUF, ST := t.r.I, I := t.r.I, END := t.r.END, START := t.r.START
            HDR := h.bits 10, KEY := h.key.getD ⟨0, 0, 0, 0⟩, MORE := 0 }
          env := { s.env with rx := t.env.rx }
          trace := reads ++ s.trace } ∧
        unread t = inHand.drop h.len.length ++ rxStream tail ∧
        ∀ x ∈ reads, ∃ d, x = Transaction.read s.cfg.rbufSize d .ok)

/-- 44_frame_writer.md R206, R208: `PASSTHROUGH`. A Ping whole in `RBUF` is sent back octet for octet but for its opcode,
in one `TWrite` under `WLOCK`; the cursor passes it. -/
def Obligations.APingIsSentBackWithItsOpcodeRewritten : Prop :=
  ∀ (s : State) (h : Head) (call : HeaderCall) (b : Byte) (tail : List Byte) (a : TxAnswer) (left : List TxAnswer),
    let hs := (h.octets 9).length
    let total := hs + h.len.length
    s.reader = .header call .fetch → call ≠ .rawFrameHeader → s.cfg.pongMode = .passthrough → s.WLOCK = none →
    total ≤ s.cfg.rbufSize → s.r.ST + total ≤ s.r.END → s.r.RBUF.readBytes s.r.ST total = some (b :: tail) →
    s.env.tx = a :: left → a.status = .ok → total ≤ a.accept →
      let pong : Byte := (b &&& 0xF0) ||| 0x0A
      exec (.ping h) s = .next { s with
        r := { s.r with
          RBUF := s.r.RBUF.writeByte s.r.ST pong, HDR := h.bits 9, KEY := h.key.getD ⟨0, 0, 0, 0⟩
          START := ((s.r.ST + hs : Nat) : Int), MORE := 0, ST := s.r.ST + total, I := s.r.ST + total }
        env := { s.env with tx := left }
        trace := .write (pong :: tail) total .ok :: s.trace }

/-- 44_frame_writer.md R207, R208: `FRESH`. The Pong is a new frame with the Ping's payload in clear, masked with a
fresh key iff the role is client; `RBUF` is not changed. (With no draw at hand the key is a free value: log entry 8,
DESIGN CHOICE.) -/
def Obligations.APingIsAnsweredWithAFreshPong : Prop :=
  ∀ (s : State) (h : Head) (call : HeaderCall) (bs : List Byte) (a : TxAnswer) (left : List TxAnswer),
    let hs := (h.octets 9).length
    let total := hs + h.len.length
    let clear := mask bs (h.key.getD ⟨0, 0, 0, 0⟩) 0
    s.reader = .header call .fetch → call ≠ .rawFrameHeader → s.cfg.pongMode = .fresh → s.WLOCK = none →
    total ≤ s.cfg.rbufSize → s.r.ST + total ≤ s.r.END →
    s.r.RBUF.readBytes (s.r.ST + hs) h.len.length = some bs →
    s.env.tx = a :: left → a.status = .ok → h.len.length + 14 ≤ a.accept →
      let sent := fun (frame : List Byte) (env : Inputs) => Host.Outcome.next (φ := Fault) (ρ := Refusal) { s with
        r := { s.r with
          HDR := h.bits 9, KEY := h.key.getD ⟨0, 0, 0, 0⟩
          START := ((s.r.ST + hs : Nat) : Int), MORE := 0, ST := s.r.ST + total, I := s.r.ST + total }
        w := { s.w with WBUF := s.w.WBUF.writeBytes 0 frame, WLEN := 0 }
        env := env
        trace := .write frame frame.length .ok :: s.trace }
      (s.cfg.role = .server →
        exec (.ping h) s = sent (encodeHeader 10 true false ⟨0, 0, 0, 0⟩ h.len.length ++ clear)
          { s.env with tx := left }) ∧
      (∀ key keys, s.cfg.role = .client → s.env.rand = key :: keys →
        exec (.ping h) s = sent (encodeHeader 10 true true key h.len.length ++ mask clear key 0)
          { s.env with tx := left, rand := keys }) ∧
      (s.cfg.role = .client → s.env.rand = [] → ∃ key,
        exec (.ping h) s = sent (encodeHeader 10 true true key h.len.length ++ mask clear key 0)
          { s.env with tx := left, draws := s.env.draws + 1 })

/-- 44_frame_writer.md R205, 42_read_buffer.md R155, 43_frame_reader.md R167, R178, 60_exceptions.md R270: a Ping not
yet whole in `RBUF`, in either `PONG_MODE`. When its octets stand on the transport, in whatever pieces, they join those
in the buffer, header included, and it is handled as the Ping whole in `RBUF` that it then is; with fewer octets and
nothing more the command waits, none of them lost; a status of the transport before it is whole closes the reader,
nothing sent. -/
def Obligations.APingIsGatheredBeforeItIsAnswered : Prop :=
  ∀ (s : State) (h : Head) (call : HeaderCall) (octets : List Byte) (chunks : List (List Byte)) (tail : List RxAnswer),
    let hs := (h.octets 9).length
    let total := hs + h.len.length
    let inHand := octets ++ chunks.flatten
    s.Inv → s.reader = .header call .fetch → call ≠ .rawFrameHeader → h.wellFormed = true →
    total ≤ s.cfg.rbufSize → s.r.RBUF.readBytes s.r.ST (s.r.END - s.r.ST) = some octets → hs ≤ octets.length →
    s.env.rx = chunks.map RxAnswer.data ++ tail →
      (total ≤ inHand.length → ∃ (u : State) (reads : List Transaction),
        u = { s with
          r := { s.r with RBUF := u.r.RBUF, ST := u.r.ST, I := u.r.ST, END := u.r.END, START := u.r.START }
          env := { s.env with rx := u.env.rx }
          trace := reads ++ s.trace } ∧
        u.Inv ∧ u.r.RBUF.readBytes u.r.ST total = some (inHand.take total) ∧ u.r.ST + total ≤ u.r.END ∧
        unread u = unread s ∧ rxStream s.env.rx = receivedOctets reads ++ rxStream u.env.rx ∧
        (total ≤ octets.length → reads = []) ∧
        exec (.ping h) s = exec (.ping h) u) ∧
      (inHand.length < total → tail = [] → ∃ (t : State) (reads : List Transaction), exec (.ping h) s = .next t ∧
        t = { s with
          r := { s.r with
            RBUF := t.r.RBUF, ST := t.r.ST, I := t.r.ST + hs, END := t.r.END, START := ((t.r.ST + hs : Nat) : Int)
            HDR := h.bits 9, KEY := h.key.getD ⟨0, 0, 0, 0⟩, MORE := h.len.length }
          reader := .header call .ping
          env := { s.env with rx := [] }
          trace := reads ++ s.trace } ∧
        t.r.RBUF.readBytes t.r.ST (t.r.END - t.r.ST) = some inHand ∧ receivedOctets reads = chunks.flatten) ∧
      (∀ (a : RxAnswer) (left : List RxAnswer), inHand.length < total → tail = a :: left → (∀ d, a ≠ .data d) →
        let k : Status := match a with
          | .data _ => .ok
          | .eof => .endOfStream
          | .timeout => if s.env.cancelFired then .cancelled else .transport .timeout
          | .err e => .transport (.other e)
        let answer : ReadStatus := match a with
          | .data _ => .ok
          | .eof => .eof
          | .timeout => .timeout
          | .err e => .err e
        ∃ (t : State) (reads : List Transaction), exec (.ping h) s = .next t ∧
          t = { s with
            r := { s.r with
              RBUF := t.r.RBUF, ST := t.r.ST, I := t.r.ST + hs, END := t.r.END, START := ((t.r.ST + hs : Nat) : Int)
              HDR := h.bits 9, KEY := h.key.getD ⟨0, 0, 0, 0⟩, MORE := h.len.length
              RSTATE := .closed, RERR := k }
            RLOCK := none
            reader := .idle
            env := { s.env with rx := left }
            responses := ⟨headerCallCode call, headerStatus call k⟩ :: s.responses
            trace := .read (s.cfg.rbufSize - t.r.END) [] answer :: reads ++ s.trace } ∧
          t.r.RBUF.readBytes t.r.ST (t.r.END - t.r.ST) = some inHand ∧ receivedOctets reads = chunks.flatten)

/-- 44_frame_writer.md R205, 60_exceptions.md R263: a Ping that cannot fit `RBUF` is the fault `PANIC`. -/
def Obligations.APingThatCannotFitPanics : Prop :=
  ∀ (s : State) (h : Head) (call : HeaderCall), s.reader = .header call .fetch → call ≠ .rawFrameHeader →
    (h.octets 9).length + h.len.length > s.cfg.rbufSize → exec (.ping h) s = .fault .panic

/-- 20_memory.md R77, R78, 60_exceptions.md R272: a reader with a Ping in hand waits for a held `WLOCK`, `RLOCK` kept and
nothing sent. -/
def Obligations.APingWaitsForTheWriteLock : Prop :=
  ∀ (s : State) (h : Head) (call : HeaderCall) (holder : Agent),
    let first := s.r.ST + (h.octets 9).length
    s.reader = .header call .fetch → call ≠ .rawFrameHeader → s.WLOCK = some holder →
    (h.octets 9).length + h.len.length ≤ s.cfg.rbufSize → first + h.len.length ≤ s.r.END →
      exec (.ping h) s = .next { s with
        r := { s.r with
          HDR := h.bits 9, KEY := h.key.getD ⟨0, 0, 0, 0⟩, I := first, START := (first : Int), MORE := h.len.length }
        reader := .header call .ping }

/-- 44_frame_writer.md R203, R206 to R208, 60_exceptions.md R268, R270: a Pong that the transport refuses or cuts short
closes the reader, releases `WLOCK`, touches no flag of the writer and leaves the cursors where they were: in
`PASSTHROUGH`, then in `FRESH`, where `WLEN` is 0 again. (With no draw at hand the key is a free value: log entry 8,
DESIGN CHOICE.) -/
def Obligations.AFailedPongClosesTheReader : Prop :=
  (∀ (s : State) (h : Head) (call : HeaderCall) (b : Byte) (tail : List Byte) (a : TxAnswer) (left : List TxAnswer),
    let hs := (h.octets 9).length
    let total := hs + h.len.length
    s.reader = .header call .fetch → call ≠ .rawFrameHeader → s.cfg.pongMode = .passthrough → s.WLOCK = none →
    total ≤ s.cfg.rbufSize → s.r.ST + total ≤ s.r.END → s.r.RBUF.readBytes s.r.ST total = some (b :: tail) →
    s.env.tx = a :: left → (a.status ≠ .ok ∨ a.accept < total) →
      let pong : Byte := (b &&& 0xF0) ||| 0x0A
      let k : Status := match a.status with
        | .err e => .transport (.other e)
        | .ok => .shortWrite
      exec (.ping h) s = .next { s with
        r := { s.r with
          RBUF := s.r.RBUF.writeByte s.r.ST pong, HDR := h.bits 9, KEY := h.key.getD ⟨0, 0, 0, 0⟩
          I := s.r.ST + hs, START := ((s.r.ST + hs : Nat) : Int), MORE := h.len.length
          RSTATE := .closed, RERR := k }
        RLOCK := none
        reader := .idle
        env := { s.env with tx := left }
        responses := ⟨headerCallCode call, headerStatus call k⟩ :: s.responses
        trace := .write (pong :: tail) (min a.accept total) a.status :: s.trace }) ∧
  (∀ (s : State) (h : Head) (call : HeaderCall) (bs : List Byte) (a : TxAnswer) (left : List TxAnswer),
    let hs := (h.octets 9).length
    let total := hs + h.len.length
    let clear := mask bs (h.key.getD ⟨0, 0, 0, 0⟩) 0
    s.reader = .header call .fetch → call ≠ .rawFrameHeader → s.cfg.pongMode = .fresh → s.WLOCK = none →
    total ≤ s.cfg.rbufSize → s.r.ST + total ≤ s.r.END →
    s.r.RBUF.readBytes (s.r.ST + hs) h.len.length = some bs → s.env.tx = a :: left →
      let k : Status := match a.status with
        | .err e => .transport (.other e)
        | .ok => .shortWrite
      let fails := fun (frame : List Byte) (env : Inputs) => (a.status ≠ .ok ∨ a.accept < frame.length) →
        exec (.ping h) s = .next { s with
          r := { s.r with
            HDR := h.bits 9, KEY := h.key.getD ⟨0, 0, 0, 0⟩
            I := s.r.ST + hs, START := ((s.r.ST + hs : Nat) : Int), MORE := h.len.length
            RSTATE := .closed, RERR := k }
          w := { s.w with WBUF := s.w.WBUF.writeBytes 0 frame, WLEN := 0 }
          RLOCK := none
          reader := .idle
          env := env
          responses := ⟨headerCallCode call, headerStatus call k⟩ :: s.responses
          trace := .write frame (min a.accept frame.length) a.status :: s.trace }
      (s.cfg.role = .server →
        fails (encodeHeader 10 true false ⟨0, 0, 0, 0⟩ h.len.length ++ clear) { s.env with tx := left }) ∧
      (∀ key keys, s.cfg.role = .client → s.env.rand = key :: keys →
        fails (encodeHeader 10 true true key h.len.length ++ mask clear key 0)
          { s.env with tx := left, rand := keys }) ∧
      (s.cfg.role = .client → s.env.rand = [] → ∃ key,
        fails (encodeHeader 10 true true key h.len.length ++ mask clear key 0)
          { s.env with tx := left, draws := s.env.draws + 1 }))

/-- 60_exceptions.md R270, 43_frame_reader.md R168, R175, R178: a transport status met while a Pong is skipped is fatal,
whatever part of its payload was buffered or arrived before. Every `TRead` is of the whole of the buffer, then empty
(42_read_buffer.md R150, R151). -/
def Obligations.ATransportStatusInAPongIsFatal : Prop :=
  ∀ (s : State) (h : Head) (call : HeaderCall) (bs : List Byte) (chunks : List (List Byte)) (a : RxAnswer)
      (left : List RxAnswer),
    let first := s.r.ST + (h.octets 10).length
    let inHand := bs ++ chunks.flatten
    s.Inv → s.reader = .header call .fetch → call ≠ .rawFrameHeader → h.wellFormed = true → first ≤ s.r.END →
    s.r.RBUF.readBytes first (s.r.END - first) = some bs → s.env.rx = chunks.map RxAnswer.data ++ a :: left →
    (∀ d, a ≠ .data d) → inHand.length < h.len.length →
      let k : Status := match a with
        | .data _ => .ok
        | .eof => .endOfStream
        | .timeout => if s.env.cancelFired then .cancelled else .transport .timeout
        | .err e => .transport (.other e)
      let answer : ReadStatus := match a with
        | .data _ => .ok
        | .eof => .eof
        | .timeout => .timeout
        | .err e => .err e
      ∃ (t : State) (reads : List Transaction), exec (.pong h) s = .next t ∧
        t = { s with
          r := { s.r with
            RBUF := t.r.RBUF, ST := t.r.ST, I := t.r.I, END := t.r.I, START := t.r.START
            HDR := h.bits 10, KEY := h.key.getD ⟨0, 0, 0, 0⟩, MORE := h.len.length - inHand.length
            RSTATE := .closed, RERR := k }
          RLOCK := none
          reader := .idle
          env := { s.env with rx := left }
          responses := ⟨headerCallCode call, headerStatus call k⟩ :: s.responses
          trace := .read s.cfg.rbufSize [] answer :: reads ++ s.trace } ∧
        receivedOctets reads = chunks.flatten ∧ ∀ x ∈ reads, ∃ d, x = Transaction.read s.cfg.rbufSize d .ok

/-! ## Delivery (43_frame_reader.md R171 to R174, 45_facade.md R230) -/

/-- R171, R172, R174, 10_state.md R39, 20_memory.md R65, R72, R82, 70_reset_and_hazards.md R312: with enough octets of
the payload in hand, `APPEND_FRAME n` delivers exactly the next `min(n, MORE)` octets of the stream, unmasked at their
place in the payload, however the transport split them and whichever path they take; the octets after them stay unread,
and the end of the payload is reported by its sentinel. No `TRead` is made for octets that are buffered, and each that
is made asks for the count still wanted, on the direct path, or for the whole of the empty buffer. -/
def Obligations.AppendFrameDeliversTheNextPayloadOctets : Prop :=
  ∀ (s : State) (n : Nat), let want := min n s.r.MORE
    s.Inv → s.RLOCK = none → s.r.RSTATE ≠ .closed → (∀ a ∈ s.env.rx, ∃ d, a = RxAnswer.data d) →
    want ≤ (unread s).length →
      ∃ (t : State) (reads : List Transaction), exec (.appendFrame n) s = .next t ∧
        t = { s with
          r := { s.r with
            RBUF := t.r.RBUF, ST := t.r.ST, I := t.r.I, END := t.r.END, START := t.r.START, MORE := s.r.MORE - want
            RSTATE := if want = s.r.MORE then .betweenFrames else s.r.RSTATE }
          env := { s.env with rx := t.env.rx }
          responses := ⟨0x03, .delivered (mask ((unread s).take want) s.r.KEY ((s.r.I : Int) - s.r.START).toNat)
            (if want = s.r.MORE then .endOfPayload else .ok)⟩ :: s.responses
          trace := reads ++ s.trace } ∧
        unread t = (unread s).drop want ∧ (t.r.I : Int) - t.r.START = s.r.I - s.r.START + want ∧
        rxStream s.env.rx = receivedOctets reads ++ rxStream t.env.rx ∧
        DeliveryReads s.cfg.rbufSize (want - (s.r.END - s.r.I)) reads ∧ (want ≤ s.r.END - s.r.I → reads = [])

/-- 45_facade.md R230: `READ n` in the middle of a payload delivers like `APPEND_FRAME`, and the sentinel becomes `OK`;
its `TRead`s are the same. -/
def Obligations.ReadDeliversTheRestOfAFrame : Prop :=
  ∀ (s : State) (n : Nat), let want := min n s.r.MORE
    s.Inv → s.RLOCK = none → s.r.RSTATE ≠ .closed → 0 < s.r.MORE → (∀ a ∈ s.env.rx, ∃ d, a = RxAnswer.data d) →
    want ≤ (unread s).length →
      ∃ (t : State) (reads : List Transaction), exec (.read n) s = .next t ∧
        t = { s with
          r := { s.r with
            RBUF := t.r.RBUF, ST := t.r.ST, I := t.r.I, END := t.r.END, START := t.r.START, MORE := s.r.MORE - want
            RSTATE := if want = s.r.MORE then .betweenFrames else s.r.RSTATE }
          env := { s.env with rx := t.env.rx }
          responses := ⟨0x04, .delivered (mask ((unread s).take want) s.r.KEY ((s.r.I : Int) - s.r.START).toNat) .ok⟩
            :: s.responses
          trace := reads ++ s.trace } ∧
        unread t = (unread s).drop want ∧ (t.r.I : Int) - t.r.START = s.r.I - s.r.START + want ∧
        rxStream s.env.rx = receivedOctets reads ++ rxStream t.env.rx ∧
        DeliveryReads s.cfg.rbufSize (want - (s.r.END - s.r.I)) reads ∧ (want ≤ s.r.END - s.r.I → reads = [])

/-- 45_facade.md R230: `READ n` between frames fetches the next data frame's header and delivers from its payload, under
one `RLOCK`, with the `TRead`s of that delivery alone. -/
def Obligations.ReadFetchesAFrameAndDelivers : Prop :=
  ∀ (s : State) (n : Nat) (octets : List Byte) (bits : BitVec 16) (len next : Nat) (key : Key),
    let want := min n len
    s.Inv → s.RLOCK = none → s.r.RSTATE ≠ .closed → s.r.MORE = 0 →
    s.r.RBUF.readBytes s.r.I (s.r.END - s.r.I) = some octets →
    parseChecked s.cfg octets 0 = .ok bits len key next → (hdrOpcode bits).toNat ∈ [0, 1, 2] →
    (∀ a ∈ s.env.rx, ∃ d, a = RxAnswer.data d) → next + want ≤ (unread s).length →
      ∃ (t : State) (reads : List Transaction), exec (.read n) s = .next t ∧
        t = { s with
          r := { s.r with
            RBUF := t.r.RBUF, ST := t.r.ST, I := t.r.I, END := t.r.END, START := t.r.START, MORE := len - want
            HDR := bits, KEY := key, RSTATE := if want = len then .betweenFrames else .inDataFrame }
          env := { s.env with rx := t.env.rx }
          responses := ⟨0x04, .delivered (mask (((unread s).drop next).take want) key 0) .ok⟩ :: s.responses
          trace := reads ++ s.trace } ∧
        unread t = (unread s).drop (next + want) ∧ (t.r.I : Int) - t.r.START = want ∧
        rxStream s.env.rx = receivedOctets reads ++ rxStream t.env.rx ∧
        DeliveryReads s.cfg.rbufSize (want - (s.r.END - (s.r.I + next))) reads ∧
        (next + want ≤ s.r.END - s.r.I → reads = [])

/-- R173, R177, 60_exceptions.md R252, R269: the transport's status in a delivery. An end of stream after octets were
delivered in the same call is swallowed; any other status is returned with the partial count; none of them closes the
reader. The one transaction is a `TRead` of the count still wanted, on the direct path, or of the whole of the empty
buffer (R174, 42_read_buffer.md R151). -/
def Obligations.AnEndOfStreamAfterOctetsIsSwallowed : Prop :=
  ∀ (s : State) (n : Nat) (bs : List Byte) (a : RxAnswer) (left : List RxAnswer),
    s.Inv → s.RLOCK = none → s.r.RSTATE ≠ .closed →
    s.r.RBUF.readBytes s.r.I (s.r.END - s.r.I) = some bs → bs.length < min n s.r.MORE →
    s.env.rx = a :: left → (∀ d, a ≠ .data d) →
      let k : Status := match a with
        | .data _ => .ok
        | .eof => if 0 < bs.length then .ok else .endOfStream
        | .timeout => if s.env.cancelFired then .cancelled else .transport .timeout
        | .err e => .transport (.other e)
      let answer : ReadStatus := match a with
        | .data _ => .ok
        | .eof => .eof
        | .timeout => .timeout
        | .err e => .err e
      let wanted := min n s.r.MORE - bs.length
      ∀ (i : Instr) (code : Byte), (i, code) ∈ [(Instr.appendFrame n, (0x03 : Byte)), (.read n, 0x04)] →
      ∃ t, exec i s = .next t ∧
        t = { s with
          r := { s.r with
            RBUF := t.r.RBUF, ST := t.r.ST, I := t.r.I, END := t.r.END, START := t.r.START
            MORE := s.r.MORE - bs.length }
          env := { s.env with rx := left }
          responses :=
            ⟨code, .delivered (mask bs s.r.KEY ((s.r.I : Int) - s.r.START).toNat) k⟩ :: s.responses
          trace := .read (if wanted ≥ s.cfg.rbufSize - 16 then wanted else s.cfg.rbufSize) [] answer :: s.trace } ∧
        t.r.I = t.r.END ∧ (t.r.I : Int) - t.r.START = s.r.I - s.r.START + bs.length

/-! ## The writer (44_frame_writer.md, 45_facade.md R233) -/

/-- R200, R201, R203, R204, 45_facade.md R233: a server's frame is its header and its payload in clear, in one `TWrite`;
the payload count and the status come from what the transport accepted. `WRITE` is `WRITE_FRAME` with opcode 2 and
FIN. -/
def Obligations.AServerSendsItsFrameInOneWrite : Prop :=
  ∀ (s : State) (payload : List Byte) (op : BitVec 4) (final : Bool) (a : TxAnswer) (left : List TxAnswer),
    payload.length ≤ 2 ^ 62 - 1 → (∀ cap, s.cfg.wbufCap = some cap → 14 + payload.length ≤ cap) →
    s.WLOCK = none → s.cfg.role = .server → s.env.tx = a :: left →
      let sent := fun (code : Byte) (op : BitVec 4) (final : Bool) =>
        let h := encodeHeader op final false ⟨0, 0, 0, 0⟩ payload.length
        let tn := min a.accept (h.length + payload.length)
        let st : Status := match a.status with
          | .err e => .transport (.other e)
          | .ok => if tn < h.length + payload.length then .shortWrite else .ok
        Host.Outcome.next (φ := Fault) (ρ := Refusal) { s with
          w := { s.w with WBUF := s.w.WBUF.writeBytes 0 (h ++ payload), WLEN := 0 }
          writer := .idle
          env := { s.env with tx := left }
          responses := ⟨code, .written (tn - h.length) st⟩ :: s.responses
          trace := .write (h ++ payload) tn a.status :: s.trace }
      exec (.writeFrame payload op final) s = sent 0x10 op final ∧ exec (.write payload) s = sent 0x11 2 true

/-- R200 to R203, 41_masking.md R145: a client's frame carries a key drawn for it and its payload masked from offset 0;
with no draw at hand the key is any key (a free value: log entry 8, DESIGN CHOICE). -/
def Obligations.AClientSendsItsFrameMasked : Prop :=
  ∀ (s : State) (payload : List Byte) (op : BitVec 4) (final : Bool) (a : TxAnswer) (left : List TxAnswer),
    payload.length ≤ 2 ^ 62 - 1 → (∀ cap, s.cfg.wbufCap = some cap → 14 + payload.length ≤ cap) →
    s.WLOCK = none → s.cfg.role = .client → s.env.tx = a :: left →
      let sent := fun (code : Byte) (op : BitVec 4) (final : Bool) (key : Key) (env : Inputs) =>
        let h := encodeHeader op final true key payload.length
        let tn := min a.accept (h.length + payload.length)
        let st : Status := match a.status with
          | .err e => .transport (.other e)
          | .ok => if tn < h.length + payload.length then .shortWrite else .ok
        Host.Outcome.next (φ := Fault) (ρ := Refusal) { s with
          w := { s.w with WBUF := s.w.WBUF.writeBytes 0 (h ++ mask payload key 0), WLEN := 0 }
          writer := .idle
          env := env
          responses := ⟨code, .written (tn - h.length) st⟩ :: s.responses
          trace := .write (h ++ mask payload key 0) tn a.status :: s.trace }
      (∀ key keys, s.env.rand = key :: keys →
        exec (.writeFrame payload op final) s = sent 0x10 op final key { s.env with tx := left, rand := keys } ∧
        exec (.write payload) s = sent 0x11 2 true key { s.env with tx := left, rand := keys }) ∧
      (s.env.rand = [] → ∃ key,
        exec (.writeFrame payload op final) s =
          sent 0x10 op final key { s.env with tx := left, draws := s.env.draws + 1 } ∧
        exec (.write payload) s = sent 0x11 2 true key { s.env with tx := left, draws := s.env.draws + 1 })

/-- 45_facade.md R237, 44_frame_writer.md R200: a payload no encoding or no write buffer holds is refused with `MISUSE`
before anything is sent, whoever holds `WLOCK`. -/
def Obligations.OverlongPayloadsAreRefused : Prop :=
  ∀ (s : State) (payload : List Byte) (op : BitVec 4) (final : Bool),
    (payload.length > 2 ^ 62 - 1 ∨ ∃ cap, s.cfg.wbufCap = some cap ∧ 14 + payload.length > cap) →
      exec (.writeFrame payload op final) s =
        .next { s with responses := ⟨0x10, .written 0 .misuse⟩ :: s.responses } ∧
      exec (.write payload) s = .next { s with responses := ⟨0x11, .written 0 .misuse⟩ :: s.responses }

/-- 20_memory.md R78, R74, 10_state.md R36, 44_frame_writer.md R201, R203, R209, R210: with no answer from the transport
each of the four commands that send a frame waits in `TWrite`, in either role, its frame whole in `WBUF[0..WLEN)` and
`WLOCK` held; the answer, when it comes, ends the command, `CLOSE_CONN` after it has closed the transport. (With no
draw, and no answer of `TClose`, at hand these are free values: log entry 8, DESIGN CHOICE; the writer's place is log
entry 1's.) -/
def Obligations.AWriteWaitsInTWriteHoldingItsLock : Prop :=
  (∀ s : State, s.WLOCK = none → s.env.tx = [] →
    let waits := fun (i : Instr) (call : WriteCall) (payload : List Byte) (op : BitVec 4) (final wclosed : Bool) =>
      let waiting := fun (h body : List Byte) (env : Inputs) => Host.Outcome.next (φ := Fault) (ρ := Refusal) { s with
        w := { s.w with
          WBUF := s.w.WBUF.writeBytes 0 (h ++ body), WLEN := h.length + payload.length, WCLOSED := wclosed }
        WLOCK := some .writer
        writer := .sending call h.length payload.length
        env := env }
      (s.cfg.role = .server →
        exec i s = waiting (encodeHeader op final false ⟨0, 0, 0, 0⟩ payload.length) payload s.env) ∧
      (∀ key keys, s.cfg.role = .client → s.env.rand = key :: keys →
        exec i s = waiting (encodeHeader op final true key payload.length) (mask payload key 0)
          { s.env with rand := keys }) ∧
      (s.cfg.role = .client → s.env.rand = [] → ∃ key,
        exec i s = waiting (encodeHeader op final true key payload.length) (mask payload key 0)
          { s.env with draws := s.env.draws + 1 })
    (∀ (payload : List Byte) (op : BitVec 4) (final : Bool),
      payload.length ≤ 2 ^ 62 - 1 → (∀ cap, s.cfg.wbufCap = some cap → 14 + payload.length ≤ cap) →
        waits (.writeFrame payload op final) .writeFrame payload op final s.w.WCLOSED ∧
        waits (.write payload) .write payload 2 true s.w.WCLOSED) ∧
    (s.w.WCLOSED = false →
      (∀ status : BitVec 16,
        let code := if status = 0 then 1000 else status.toNat
        waits (.closeWriter status) .closeWriter [BitVec.ofNat 8 (code / 256), BitVec.ofNat 8 (code % 256)] 8 true
          true) ∧
      waits .closeConn .closeConn [] 8 true true)) ∧
  (∀ (s : State) (pick hs len : Nat) (call : WriteCall) (frame : List Byte) (a : TxAnswer) (left : List TxAnswer)
      (rest : List Event),
    s.events = .writer pick :: rest → s.writer = .sending call hs len →
    s.w.WBUF.readBytes 0 s.w.WLEN = some frame → frame.length = hs + len → s.env.tx = a :: left →
      let tn := min a.accept (hs + len)
      let st : Status := match a.status with
        | .err e => .transport (.other e)
        | .ok => if tn < hs + len then .shortWrite else .ok
      let u : State := { s with
        events := rest
        w := { s.w with WLEN := 0 }
        env := { s.env with tx := left }
        trace := .write frame tn a.status :: s.trace }
      let ended := fun (u : State) (code : Byte) (result : Result) => Host.Outcome.next (φ := Fault) (ρ := Refusal)
        { u with WLOCK := none, writer := .idle, responses := ⟨code, result⟩ :: u.responses }
      let closeStatus := fun c : SendStatus => match c with
        | .ok => Status.ok
        | .err e => .transport (.other e)
      (call = .writeFrame → step s = ended u 0x10 (.written (tn - hs) st)) ∧
      (call = .write → step s = ended u 0x11 (.written (tn - hs) st)) ∧
      (call = .closeWriter → step s = ended u 0x12 (.status st)) ∧
      (call = .closeConn → s.w.TCLOSED = true → step s = ended u 0x13 (.status .ok)) ∧
      (∀ c cs, call = .closeConn → s.w.TCLOSED = false → s.env.closes = c :: cs →
        step s = ended { u with
          w := { u.w with TCLOSED := true }, env := { u.env with closes := cs }, trace := .close c :: u.trace }
          0x13 (.status (closeStatus c))) ∧
      (call = .closeConn → s.w.TCLOSED = false → s.env.closes = [] → ∃ c,
        step s = ended { u with
          w := { u.w with TCLOSED := true }, env := { u.env with draws := u.env.draws + 1 }
          trace := .close c :: u.trace } 0x13 (.status (closeStatus c))))

/-- R209: `CLOSE_WRITER` sends one Close frame with the status, 1000 for zero, sets `WCLOSED` whatever the transport
answers, and sends nothing once it is set. (With no draw at hand the key is a free value: log entry 8, DESIGN CHOICE;
with no answer to `TWrite` it waits: `AWriteWaitsInTWriteHoldingItsLock`.) -/
def Obligations.CloseWriterSendsOneCloseFrame : Prop :=
  ∀ (s : State) (status : BitVec 16), s.WLOCK = none →
    (s.w.WCLOSED = true →
      exec (.closeWriter status) s = .next { s with responses := ⟨0x12, .status .ok⟩ :: s.responses }) ∧
    (∀ (a : TxAnswer) (left : List TxAnswer), s.w.WCLOSED = false → s.env.tx = a :: left →
      let code := if status = 0 then 1000 else status.toNat
      let body : List Byte := [BitVec.ofNat 8 (code / 256), BitVec.ofNat 8 (code % 256)]
      let sent := fun (frame : List Byte) (env : Inputs) =>
        let tn := min a.accept frame.length
        let st : Status := match a.status with
          | .err e => .transport (.other e)
          | .ok => if tn < frame.length then .shortWrite else .ok
        Host.Outcome.next (φ := Fault) (ρ := Refusal) { s with
          w := { s.w with WBUF := s.w.WBUF.writeBytes 0 frame, WLEN := 0, WCLOSED := true }
          writer := .idle
          env := env
          responses := ⟨0x12, .status st⟩ :: s.responses
          trace := .write frame tn a.status :: s.trace }
      (s.cfg.role = .server →
        exec (.closeWriter status) s = sent (0x88 :: 0x02 :: body) { s.env with tx := left }) ∧
      (∀ key keys, s.cfg.role = .client → s.env.rand = key :: keys →
        exec (.closeWriter status) s =
          sent (0x88 :: 0x82 :: key.k0 :: key.k1 :: key.k2 :: key.k3 :: mask body key 0)
            { s.env with tx := left, rand := keys }) ∧
      (s.cfg.role = .client → s.env.rand = [] → ∃ key : Key,
        exec (.closeWriter status) s =
          sent (0x88 :: 0x82 :: key.k0 :: key.k1 :: key.k2 :: key.k3 :: mask body key 0)
            { s.env with tx := left, draws := s.env.draws + 1 }))

/-- R210: `CLOSE_CONN` sends an empty Close frame unless one was sent before, whatever comes of it, then closes the
transport at most once. (With no draw, and no answer of `TClose`, at hand these are free values: log entry 8, DESIGN
CHOICE; with no answer to `TWrite` it waits: `AWriteWaitsInTWriteHoldingItsLock`.) -/
def Obligations.CloseConnClosesTheTransportOnce : Prop :=
  ∀ s : State, s.WLOCK = none →
    let ended := fun (u : State) (result : Status) => Host.Outcome.next (φ := Fault) (ρ := Refusal) { u with
      writer := .idle, responses := ⟨0x13, .status result⟩ :: u.responses }
    -- what `TClose` does, at most once
    let closing := fun (u : State) (o : Outcome) =>
      (u.w.TCLOSED = true → o = ended u .ok) ∧
      (∀ (c : SendStatus) (cs : List SendStatus), u.w.TCLOSED = false → u.env.closes = c :: cs →
        o = ended { u with
          w := { u.w with TCLOSED := true }, env := { u.env with closes := cs }, trace := .close c :: u.trace }
          (match c with
            | .ok => .ok
            | .err e => .transport (.other e))) ∧
      (u.w.TCLOSED = false → u.env.closes = [] → ∃ c : SendStatus,
        o = ended { u with
          w := { u.w with TCLOSED := true }, env := { u.env with draws := u.env.draws + 1 }
          trace := .close c :: u.trace }
          (match c with
            | .ok => .ok
            | .err e => .transport (.other e)))
    (s.w.WCLOSED = true → closing s (exec .closeConn s)) ∧
    (∀ (a : TxAnswer) (left : List TxAnswer), s.w.WCLOSED = false → s.env.tx = a :: left →
      let sent := fun (frame : List Byte) (env : Inputs) => { s with
        w := { s.w with WBUF := s.w.WBUF.writeBytes 0 frame, WLEN := 0, WCLOSED := true }
        env := env
        trace := .write frame (min a.accept frame.length) a.status :: s.trace }
      (s.cfg.role = .server →
        closing (sent [0x88, 0x00] { s.env with tx := left }) (exec .closeConn s)) ∧
      (∀ key keys, s.cfg.role = .client → s.env.rand = key :: keys →
        closing (sent [0x88, 0x80, key.k0, key.k1, key.k2, key.k3] { s.env with tx := left, rand := keys })
          (exec .closeConn s)) ∧
      (s.cfg.role = .client → s.env.rand = [] → ∃ key : Key,
        closing (sent [0x88, 0x80, key.k0, key.k1, key.k2, key.k3]
          { s.env with tx := left, draws := s.env.draws + 1 }) (exec .closeConn s)))
end

