-- ==== Sys2Proof/Laws/Codec.lean ====
section
/-! SUPPORT. The header codec and the mask, one lemma per function: the fields of a base header, the byte order, the
parsers on octets laid out by the encoder, and the laws of masking. -/

namespace Sys2Proof

/-! ### Fields of a base header (30_encoding.md R91) -/
theorem word_getLsbD (a b : Byte) (i : Nat) :
    (a ++ b : BitVec 16).getLsbD i = if i < 8 then b.getLsbD i else a.getLsbD (i - 8) :=
  BitVec.getLsbD_append
theorem octet0_getLsbD (f : Bool) (r : BitVec 3) (op : BitVec 4) (i : Nat) :
    (BitVec.ofBool f ++ r ++ op : BitVec 8).getLsbD i =
      if i < 4 then op.getLsbD i else if i < 7 then r.getLsbD (i - 4) else (decide (i = 7) && f) := by
  refine (BitVec.getLsbD_append (x := (BitVec.ofBool f ++ r : BitVec (1 + 3))) (y := op)).trans ?_
  split
  · rfl
  · rw [BitVec.getLsbD_append]
    have e : (i - 4 < 3) = (i < 7) := by simp; omega
    simp only [e]
    split
    · rfl
    · rw [BitVec.getLsbD_ofBool]
      congr 1
      simp; omega
theorem octet1_getLsbD (m : Bool) (l : BitVec 7) (i : Nat) :
    (BitVec.ofBool m ++ l : BitVec 8).getLsbD i = if i < 7 then l.getLsbD i else (decide (i = 7) && m) := by
  refine (BitVec.getLsbD_append (x := BitVec.ofBool m) (y := l)).trans ?_
  split
  · rfl
  · rw [BitVec.getLsbD_ofBool]
    congr 1
    simp; omega
section
variable (h : Head) (op : BitVec 4)
theorem bits_getLsbD (i : Nat) : (h.bits op).getLsbD i =
   if i < 7 then h.len.len7.getLsbD i else if i = 7 then h.key.isSome else if i < 12 then op.getLsbD (i - 8)
    else if i < 15 then h.rsv.getLsbD (i - 12) else (decide (i = 15) && h.fin) := by
  rw [Head.bits, word_getLsbD, octet0_getLsbD, octet1_getLsbD]
  rcases Nat.lt_or_ge i 16 with hi | hi
  · interval_cases i <;> simp
  · simp [show ¬ i < 8 by omega, show ¬ i < 7 by omega, show ¬ i = 7 by omega, show ¬ i < 12 by omega, show ¬ i < 15 by omega, show ¬ i = 15 by omega, show ¬ i - 8 < 4 by omega, show ¬ i - 8 < 7 by omega, show ¬ i - 8 = 7 by omega]
@[simp] theorem hdrFin_bits : hdrFin (h.bits op) = h.fin := by
  rw [hdrFin, bits_getLsbD]; simp

@[simp] theorem hdrMask_bits : hdrMask (h.bits op) = h.key.isSome := by
  rw [hdrMask, bits_getLsbD]; simp

@[simp] theorem hdrRsv_bits : hdrRsv (h.bits op) = h.rsv := by
  ext i hi
  rw [hdrRsv, BitVec.getElem_extractLsb', bits_getLsbD]
  interval_cases i <;> simp

@[simp] theorem hdrOpcode_bits : hdrOpcode (h.bits op) = op := by
  ext i hi
  rw [hdrOpcode, BitVec.getElem_extractLsb', bits_getLsbD]
  interval_cases i <;> simp

@[simp] theorem hdrLen7_bits : hdrLen7 (h.bits op) = h.len.len7 := by
  ext i hi
  rw [hdrLen7, BitVec.getElem_extractLsb', bits_getLsbD]
  simp [hi]
theorem bits_of_fields (bits : BitVec 16) :
    (BitVec.ofBool (hdrFin bits) ++ hdrRsv bits ++ hdrOpcode bits : BitVec 8) ++
      (BitVec.ofBool (hdrMask bits) ++ hdrLen7 bits : BitVec 8) = bits := by
  apply BitVec.eq_of_getLsbD_eq
  intro i hi
  rw [word_getLsbD, octet0_getLsbD, octet1_getLsbD]
  simp only [hdrFin, hdrRsv, hdrOpcode, hdrMask, hdrLen7, BitVec.getLsbD_extractLsb']
  interval_cases i <;> simp
end

/-! ### Byte order (00_scope.md R6, 20_memory.md R62) -/

theorem beNat_lt (bs : List Byte) : beNat bs < 256 ^ bs.length := by
  induction bs with
  | nil => simp [beNat]
  | cons b bs ih =>
    have hb : b.toNat < 256 := b.isLt
    have : b.toNat * 256 ^ bs.length + 256 ^ bs.length ≤ 256 * 256 ^ bs.length := by
      rw [← Nat.succ_mul]
      exact Nat.mul_le_mul_right _ hb
    simp only [beNat, List.length_cons, Nat.pow_succ]
    omega

theorem beNat_be16 {v : Nat} (h : v < 65536) : beNat (be16 v) = v := by
  simp only [be16, beNat, List.length_cons, List.length_nil, BitVec.toNat_ofNat]
  omega

theorem beNat_be64 {v : Nat} (h : v < 18446744073709551616) : beNat (be64 v) = v := by
  simp only [be64, beNat, List.length_cons, List.length_nil, BitVec.toNat_ofNat]
  omega

theorem length_be16 (v : Nat) : (be16 v).length = 2 := rfl

theorem length_be64 (v : Nat) : (be64 v).length = 8 := rfl

/-! ### What a parser's success says (40_header_codec.md R120 to R122) -/

theorem parseHeader_ok {buf : List Byte} {st next : Nat} {bits : BitVec 16}
    (h : parseHeader buf st = .ok bits next) :
    ∃ b0 b1 rest, buf.drop st = b0 :: b1 :: rest ∧ bits = b0 ++ b1 ∧ next = st + 2 ∧ next ≤ buf.length := by
  unfold parseHeader at h
  split at h
  · rename_i b0 b1 rest hd
    cases h
    have := congrArg List.length hd
    simp at this
    exact ⟨b0, b1, rest, hd, rfl, rfl, by omega⟩
  · cases h

theorem parseHeader_ne_oversize (buf : List Byte) (st : Nat) : parseHeader buf st ≠ .oversize := by
  unfold parseHeader
  split <;> simp

theorem parseHeader_needMore {buf : List Byte} {st : Nat} (h : parseHeader buf st = .needMore) :
    buf.length < st + 2 := by
  unfold parseHeader at h
  split at h
  · cases h
  · rename_i hn
    by_contra hc
    match hd : buf.drop st, hn with
    | [], _ =>
      have := congrArg List.length hd
      simp at this
      omega
    | [b], _ =>
      have := congrArg List.length hd
      simp at this
      omega
    | b0 :: b1 :: rest, hn => exact hn b0 b1 rest rfl

/-- The length a success announces, the octets it took and the index after them (R121). -/
theorem parseLength_ok {bits : BitVec 16} {buf : List Byte} {i len next : Nat}
    (h : parseLength bits buf i = .ok len next) :
    ((hdrLen7 bits).toNat ≤ 125 ∧ len = (hdrLen7 bits).toNat ∧ next = i) ∨
    ((hdrLen7 bits).toNat = 126 ∧ len = beNat ((buf.drop i).take 2) ∧ next = i + 2 ∧ next ≤ buf.length) ∨
    ((hdrLen7 bits).toNat = 127 ∧ len = beNat ((buf.drop i).take 8) ∧ next = i + 8 ∧ next ≤ buf.length ∧
      len ≤ maxLen) := by
  have h7 : (hdrLen7 bits).toNat < 128 := (hdrLen7 bits).isLt
  unfold parseLength at h
  simp only at h
  split_ifs at h with h1 h2 h3 h4 h5
  · cases h
    exact .inl ⟨h1, rfl, rfl⟩
  · cases h
    exact .inr (.inl ⟨h2, rfl, rfl, by omega⟩)
  · cases h
    exact .inr (.inr ⟨by omega, rfl, rfl, by omega, by omega⟩)

theorem parseLength_needMore {bits : BitVec 16} {buf : List Byte} {i : Nat}
    (h : parseLength bits buf i = .needMore) : buf.length < i + 8 := by
  unfold parseLength at h
  simp only at h
  split_ifs at h <;> omega

/-- The key a success gives: four octets when the MASK bit is set, else the identity key (R122). -/
theorem readMask_ok {bits : BitVec 16} {buf : List Byte} {i next : Nat} {key : Key}
    (h : readMask bits buf i = .ok key next) :
    (hdrMask bits = true ∧ next = i + 4 ∧ next ≤ buf.length ∧ key.octets = (buf.drop i).take 4) ∨
    (hdrMask bits = false ∧ next = i ∧ key = Key.zero) := by
  unfold readMask at h
  split at h
  · rename_i hm
    split at h
    · rename_i k0 k1 k2 k3 rest hd
      cases h
      have := congrArg List.length hd
      simp at this
      exact .inl ⟨hm, rfl, by omega, by rw [hd]; rfl⟩
    · cases h
  · rename_i hm
    cases h
    exact .inr ⟨by simpa using hm, rfl, rfl⟩

theorem readMask_ne_oversize (bits : BitVec 16) (buf : List Byte) (i : Nat) : readMask bits buf i ≠ .oversize := by
  unfold readMask
  split
  · split <;> simp
  · simp

theorem readMask_needMore {bits : BitVec 16} {buf : List Byte} {i : Nat}
    (h : readMask bits buf i = .needMore) : buf.length < i + 4 := by
  unfold readMask at h
  split at h
  · split at h
    · cases h
    · rename_i hn
      by_contra hc
      match hd : buf.drop i, hn with
      | [], _ => have := congrArg List.length hd; simp at this; omega
      | [_], _ => have := congrArg List.length hd; simp at this; omega
      | [_, _], _ => have := congrArg List.length hd; simp at this; omega
      | [_, _, _], _ => have := congrArg List.length hd; simp at this; omega
      | k0 :: k1 :: k2 :: k3 :: rest, hn => exact hn k0 k1 k2 k3 rest rfl
  · cases h

/-! ### What a complete header says (43_frame_reader.md R162) -/

theorem parseRest_ok {bits bits' : BitVec 16} {buf : List Byte} {p len next : Nat} {key : Key}
    (h : parseRest bits buf p = .ok bits' len key next) :
    bits' = bits ∧ ∃ q, parseLength bits buf p = .ok len q ∧ readMask bits buf q = .ok key next := by
  unfold parseRest at h
  split at h <;> try cases h
  rename_i len' q hl
  split at h <;> try cases h
  rename_i hm
  exact ⟨rfl, q, hl, hm⟩

/-- With the checks passed, `parseFull'` is `parseFull` (R162). -/
theorem parseChecked_ok_parseFull {cfg : Config} {buf : List Byte} {st len next : Nat} {bits : BitVec 16} {key : Key}
    (h : parseChecked cfg buf st = .ok bits len key next) : parseFull buf st = .ok bits len key next := by
  unfold parseChecked at h
  unfold parseFull
  split at h
  · split at h
    · cases h
    · split at h
      · cases h
      · exact h
  · cases h
  · cases h

theorem parseFull_ok {buf : List Byte} {st len next : Nat} {bits : BitVec 16} {key : Key}
    (h : parseFull buf st = .ok bits len key next) :
    ∃ q, parseHeader buf st = .ok bits (st + 2) ∧ parseLength bits buf (st + 2) = .ok len q ∧
      readMask bits buf q = .ok key next := by
  unfold parseFull at h
  split at h
  · rename_i bits' p hp
    obtain ⟨rfl, q, hl, hm⟩ := parseRest_ok h
    obtain ⟨_, _, _, _, _, rfl, _⟩ := parseHeader_ok hp
    exact ⟨q, hp, hl, hm⟩
  · cases h
  · cases h

/-- A header that asks for more has fewer than 14 octets (30_encoding.md R102). -/
theorem parseRest_needMore {bits : BitVec 16} {buf : List Byte} {p : Nat}
    (h : parseRest bits buf p = .needMore) : buf.length < p + 12 := by
  unfold parseRest at h
  split at h
  · rename_i hl
    have := parseLength_needMore hl
    omega
  · cases h
  · rename_i len q hl
    split at h
    · cases h
    · rename_i hm
      have := readMask_needMore hm
      rcases parseLength_ok hl with ⟨_, _, hq⟩ | ⟨_, _, hq, _⟩ | ⟨_, _, hq, _⟩ <;> omega
    · cases h

theorem parseChecked_needMore {cfg : Config} {buf : List Byte} {st : Nat}
    (h : parseChecked cfg buf st = .needMore) : buf.length < st + 14 := by
  unfold parseChecked at h
  split at h
  · rename_i bits p hp
    obtain ⟨_, _, _, _, _, rfl, _⟩ := parseHeader_ok hp
    split at h
    · cases h
    · split at h
      · cases h
      · have := parseRest_needMore h
        omega
  · rename_i hp
    have := parseHeader_needMore hp
    omega
  · cases h

/-! ### The head a parsed header stands for -/

section
variable {buf : List Byte} {st len next : Nat} {bits : BitVec 16} {key : Key}

theorem ofParsed_len7 (h : parseFull buf st = .ok bits len key next) :
    (Head.ofParsed bits len key).len.len7 = hdrLen7 bits := by
  obtain ⟨q, -, hl, -⟩ := parseFull_ok h
  rcases parseLength_ok hl with ⟨h7, -, -⟩ | ⟨h7, -, -, -⟩ | ⟨h7, -, -, -, -⟩
  · simp [Head.ofParsed, h7, LenField.len7]
  · simp only [Head.ofParsed, h7, LenField.len7]
    apply BitVec.eq_of_toNat_eq
    simp [h7]
  · simp only [Head.ofParsed, h7, LenField.len7]
    apply BitVec.eq_of_toNat_eq
    simp [h7]

/-- The head keeps every bit of the base header (30_encoding.md R91). -/
theorem ofParsed_bits (h : parseFull buf st = .ok bits len key next) :
    (Head.ofParsed bits len key).bits (hdrOpcode bits) = bits := by
  have hk : (Head.ofParsed bits len key).key.isSome = hdrMask bits := by
    by_cases hm : hdrMask bits <;> simp [Head.ofParsed, hm]
  unfold Head.bits
  rw [ofParsed_len7 h, hk]
  exact bits_of_fields bits

/-- ... the payload length (R93) ... -/
theorem ofParsed_length (h : parseFull buf st = .ok bits len key next) :
    Machine.headLength (Head.ofParsed bits len key) = len := by
  obtain ⟨q, -, hl, -⟩ := parseFull_ok h
  have h2 := beNat_lt ((buf.drop (st + 2)).take 2)
  have h2' : ((buf.drop (st + 2)).take 2).length ≤ 2 := List.length_take_le _ _
  rcases parseLength_ok hl with ⟨h7, hlen, -⟩ | ⟨h7, hlen, hq, hq'⟩ | ⟨h7, hlen, -, -, hmax⟩
  · simp [Machine.headLength, Head.ofParsed, h7, LenField.length, hlen]
  · simp only [Machine.headLength, Head.ofParsed, h7, LenField.length]
    have : ((buf.drop (st + 2)).take 2).length = 2 := by simp; omega
    rw [this] at h2
    simp [hlen]
    omega
  · simp only [maxLen] at hmax
    simp only [Machine.headLength, Head.ofParsed, h7, LenField.length]
    simp
    omega

/-- ... the key (R94) ... -/
theorem ofParsed_key (h : parseFull buf st = .ok bits len key next) :
    Machine.headKey (Head.ofParsed bits len key) = key := by
  obtain ⟨q, -, -, hm⟩ := parseFull_ok h
  rcases readMask_ok hm with ⟨h1, -⟩ | ⟨h1, -, rfl⟩
  · simp [Machine.headKey, Head.ofParsed, h1]
  · simp [Machine.headKey, Head.ofParsed, h1]

/-- ... and its size is the index after it (R126). -/
theorem ofParsed_size (h : parseFull buf st = .ok bits len key next) :
    st + Machine.headSize (Head.ofParsed bits len key) = next := by
  obtain ⟨q, -, hl, hm⟩ := parseFull_ok h
  have hk : (Head.ofParsed bits len key).keyOctets.length = if hdrMask bits then 4 else 0 := by
    by_cases hm : hdrMask bits <;> simp [Head.ofParsed, Head.keyOctets, Key.octets, hm]
  have he : (Head.ofParsed bits len key).len.ext.length =
      if (hdrLen7 bits).toNat ≤ 125 then 0 else if (hdrLen7 bits).toNat = 126 then 2 else 8 := by
    simp only [Head.ofParsed]
    split
    · rfl
    · split <;> simp [LenField.ext, be16, be64]
  simp only [Machine.headSize, hk, he]
  rcases parseLength_ok hl with ⟨h7, -, hq⟩ | ⟨h7, -, hq, -⟩ | ⟨h7, -, hq, -, -⟩ <;>
    rcases readMask_ok hm with ⟨h1, hn, -⟩ | ⟨h1, hn, -⟩ <;> simp [h7, h1] <;> omega

theorem ofParsed_length_le (h : parseFull buf st = .ok bits len key next) : len ≤ maxLen := by
  obtain ⟨q, -, hl, -⟩ := parseFull_ok h
  have h2 := beNat_lt ((buf.drop (st + 2)).take 2)
  have h2' : ((buf.drop (st + 2)).take 2).length ≤ 2 := List.length_take_le _ _
  have : 256 ^ ((buf.drop (st + 2)).take 2).length ≤ 256 ^ 2 := Nat.pow_le_pow_right (by omega) h2'
  rcases parseLength_ok hl with ⟨h7, hlen, -⟩ | ⟨h7, hlen, hq, hq'⟩ | ⟨h7, hlen, -, -, hmax⟩ <;>
    simp only [maxLen] at * <;> omega

theorem parseFull_next_le (h : parseFull buf st = .ok bits len key next) : next ≤ buf.length := by
  obtain ⟨q, hh, hl, hm⟩ := parseFull_ok h
  obtain ⟨_, _, _, _, _, _, hp⟩ := parseHeader_ok hh
  rcases parseLength_ok hl with ⟨-, -, hq⟩ | ⟨-, -, hq, hq'⟩ | ⟨-, -, hq, hq', -⟩ <;>
    rcases readMask_ok hm with ⟨h1, hn, hn', -⟩ | ⟨h1, hn, -⟩ <;> omega

end

/-! ### Masking (41_masking.md) -/

namespace Machine

@[simp] theorem mask_nil (key : Key) (offset : Nat) : mask [] key offset = [] := rfl

@[simp] theorem length_mask (buf : List Byte) (key : Key) (offset : Nat) :
    (mask buf key offset).length = buf.length := by
  induction buf generalizing offset with
  | nil => rfl
  | cons b bs ih => simp [mask, ih]

theorem keyOctet_mod (key : Key) (j : Nat) : keyOctet key (j % 4) = keyOctet key j := by
  simp [keyOctet]

theorem keyOctet_zero (j : Nat) : keyOctet Key.zero j = 0 := by
  unfold keyOctet
  split <;> rfl

end Machine

end Sys2Proof
end

