-- ==== Sys2Proof/Laws/Memory.lean ====
section
/-! SUPPORT. What the operations on an octet space do: reading after writing, reading after a compaction, and the
canonical form they keep. -/

namespace Sys2Proof.Machine

variable {m : Memory}

/-! ### Reading after writing -/

theorem readByte_writeByte (m : Memory) (a : Nat) (v : Byte) (b : Nat) :
    (m.writeByte a v).readByte b = if b = a then some v else m.readByte b := by
  induction m with
  | nil => simp [Memory.writeByte, Memory.readByte]
  | cons c m ih =>
    obtain ⟨k, w⟩ := c
    simp only [Memory.writeByte]
    split
    · rfl
    · split
      · subst_vars
        by_cases hb : b = k <;> simp [Memory.readByte, hb]
      · simp only [Memory.readByte, ih]
        by_cases hb : b = k
        · subst hb
          simp_all [eq_comm]
        · simp [hb]

@[simp] theorem readByte_writeByte_self (m : Memory) (a : Nat) (v : Byte) :
    (m.writeByte a v).readByte a = some v := by simp [readByte_writeByte]

theorem readByte_writeByte_of_ne {a b : Nat} (h : b ≠ a) (v : Byte) :
    (m.writeByte a v).readByte b = m.readByte b := by simp [readByte_writeByte, h]

theorem readByte_writeBytes (m : Memory) (a : Nat) (vs : List Byte) (b : Nat) :
    (m.writeBytes a vs).readByte b = if a ≤ b ∧ b < a + vs.length then vs[b - a]? else m.readByte b := by
  induction vs generalizing m a with
  | nil =>
    simp only [Memory.writeBytes, List.length_nil, Nat.add_zero]
    split
    · omega
    · rfl
  | cons v vs ih =>
    simp only [Memory.writeBytes, ih, List.length_cons, readByte_writeByte]
    by_cases hb : b = a
    · subst hb
      simp
    · by_cases h : a + 1 ≤ b ∧ b < a + 1 + vs.length
      · have h' : a ≤ b ∧ b < a + (vs.length + 1) := by omega
        rw [if_pos h, if_pos h', show b - a = (b - (a + 1)) + 1 by omega, List.getElem?_cons_succ]
      · have h' : ¬ (a ≤ b ∧ b < a + (vs.length + 1)) := by omega
        rw [if_neg h, if_neg h', if_neg hb]

/-- A write of several octets leaves every other index alone. -/
theorem readByte_writeBytes_of_outside {a b : Nat} {vs : List Byte} (h : b < a ∨ a + vs.length ≤ b) :
    (m.writeBytes a vs).readByte b = m.readByte b := by
  rw [readByte_writeBytes, if_neg (by omega)]

theorem readBytes_eq_some_iff (m : Memory) (a n : Nat) (bs : List Byte) :
    m.readBytes a n = some bs ↔ bs.length = n ∧ ∀ k < n, m.readByte (a + k) = bs[k]? := by
  induction n generalizing a bs with
  | zero =>
    simp only [Memory.readBytes, Option.some.injEq, Nat.not_lt_zero, false_imp_iff, implies_true, and_true]
    constructor
    · rintro rfl
      rfl
    · intro h
      exact (List.length_eq_zero_iff.mp h).symm
  | succ n ih =>
    simp only [Memory.readBytes]
    constructor
    · intro h
      split at h
      · cases h
      · rename_i v hv
        split at h
        · cases h
        · rename_i vs hvs
          cases h
          obtain ⟨hl, hk⟩ := (ih (a + 1) vs).mp hvs
          refine ⟨by simp [hl], fun k hk' => ?_⟩
          cases k with
          | zero => simpa using hv
          | succ k =>
            rw [show a + (k + 1) = a + 1 + k by omega]
            simpa using hk k (by omega)
    · rintro ⟨hl, hk⟩
      cases bs with
      | nil => simp at hl
      | cons v vs =>
        have h0 := hk 0 (by omega)
        simp only [Nat.add_zero, List.getElem?_cons_zero] at h0
        have hvs : m.readBytes (a + 1) n = some vs := by
          refine (ih (a + 1) vs).mpr ⟨by simpa using hl, fun k hk' => ?_⟩
          have := hk (k + 1) (by omega)
          rw [show a + (k + 1) = a + 1 + k by omega] at this
          simpa using this
        simp [h0, hvs]

/-- What a write put there is what a read of the same slice gives. -/
theorem readBytes_writeBytes_self (m : Memory) (a : Nat) (vs : List Byte) :
    (m.writeBytes a vs).readBytes a vs.length = some vs := by
  rw [readBytes_eq_some_iff]
  refine ⟨rfl, fun k hk => ?_⟩
  rw [readByte_writeBytes, if_pos (by omega)]
  simp

theorem readBytes_length {a n : Nat} {bs : List Byte} (h : m.readBytes a n = some bs) : bs.length = n :=
  ((readBytes_eq_some_iff m a n bs).mp h).1

/-- A slice all of whose octets hold a value can be read. -/
theorem readBytes_isSome {a n : Nat} (h : ∀ k < n, (m.readByte (a + k)).isSome) :
    ∃ bs, m.readBytes a n = some bs := by
  induction n generalizing a with
  | zero => exact ⟨[], rfl⟩
  | succ n ih =>
    obtain ⟨v, hv⟩ := Option.isSome_iff_exists.mp (h 0 (by omega))
    obtain ⟨vs, hvs⟩ := @ih (a + 1) (fun k hk => by
      rw [show a + 1 + k = a + (k + 1) by omega]
      exact h (k + 1) (by omega))
    exact ⟨v :: vs, by simp only [Nat.add_zero] at hv; simp [Memory.readBytes, hv, hvs]⟩

/-- Two spaces that agree on a slice read the same there. -/
theorem readBytes_congr {m' : Memory} {a n : Nat} (h : ∀ k < n, m.readByte (a + k) = m'.readByte (a + k)) :
    m.readBytes a n = m'.readBytes a n := by
  induction n generalizing a with
  | zero => rfl
  | succ n ih =>
    have h0 := h 0 (by omega)
    simp only [Nat.add_zero] at h0
    have := @ih (a + 1) (fun k hk => by
      rw [show a + 1 + k = a + (k + 1) by omega]
      exact h (k + 1) (by omega))
    simp only [Memory.readBytes, h0, this]

theorem readBytes_add (m : Memory) (a n k : Nat) :
    m.readBytes a (n + k) =
      match m.readBytes a n, m.readBytes (a + n) k with
      | some xs, some ys => some (xs ++ ys)
      | _, _ => none := by
  induction n generalizing a with
  | zero =>
    simp only [Nat.zero_add, Nat.add_zero, Memory.readBytes]
    cases m.readBytes a k <;> rfl
  | succ n ih =>
    rw [show n + 1 + k = (n + k) + 1 by omega]
    simp only [Memory.readBytes, ih (a + 1)]
    rw [show a + 1 + n = a + (n + 1) by omega]
    cases m.readByte a with
    | none => rfl
    | some v =>
      cases m.readBytes (a + 1) n with
      | none => rfl
      | some xs => cases m.readBytes (a + (n + 1)) k <;> rfl

/-! ### Compaction (42_read_buffer.md R154) -/

/-- After a slide by `shift` index `b` holds what `b + shift` held, below the old top; nothing above holds a
value. -/
theorem readByte_slide (m : Memory) (shift hi b : Nat) :
    (m.slide shift hi).readByte b = if b + shift < hi then m.readByte (b + shift) else none := by
  induction m with
  | nil => simp [Memory.slide, Memory.readByte]
  | cons c m ih =>
    obtain ⟨k, w⟩ := c
    simp only [Memory.slide] at ih ⊢
    rw [List.filter_cons]
    by_cases h : shift ≤ k ∧ k < hi
    · have hd : (decide (shift ≤ k) && decide (k < hi)) = true := by simp [h]
      simp only [hd, if_true, List.map_cons, Memory.readByte, ih]
      by_cases hb : b = k - shift
      · subst hb
        have hk : k - shift + shift = k := by omega
        simp [hk, h.2]
      · have hk : b + shift ≠ k := by omega
        simp [hb, hk]
    · have hd : (decide (shift ≤ k) && decide (k < hi)) = false := by
        rw [← Bool.decide_and, decide_eq_false h]
      simp only [hd, Bool.false_eq_true, if_false, ih, Memory.readByte]
      by_cases hb : b + shift < hi
      · have hk : b + shift ≠ k := by omega
        simp [hb, hk]
      · simp [hb]

theorem readBytes_slide {shift hi a n : Nat} (h : a + n + shift ≤ hi) :
    (m.slide shift hi).readBytes a n = m.readBytes (a + shift) n := by
  induction n generalizing a with
  | zero => rfl
  | succ n ih =>
    have := @ih (a + 1) (by omega)
    rw [show a + 1 + shift = a + shift + 1 by omega] at this
    simp only [Memory.readBytes, readByte_slide, this]
    rw [if_pos (by omega)]

/-! ### The canonical form -/

theorem wf_iff (m : Memory) : m.wf = true ↔ m.Pairwise fun c d => c.1 < d.1 := by
  simp [Memory.wf, List.pairwise_map]

theorem mem_writeByte {a : Nat} {v : Byte} {c : Host.Cell} (h : c ∈ m.writeByte a v) :
    c = (a, v) ∨ c ∈ m := by
  induction m with
  | nil => simpa [Memory.writeByte] using h
  | cons d m ih =>
    obtain ⟨k, w⟩ := d
    simp only [Memory.writeByte] at h
    split at h
    · simpa using h
    · split at h
      · rcases List.mem_cons.mp h with h | h
        · exact .inl h
        · exact .inr (List.mem_cons_of_mem _ h)
      · rcases List.mem_cons.mp h with h | h
        · exact .inr (by simp [h])
        · rcases ih h with h | h
          · exact .inl h
          · exact .inr (List.mem_cons_of_mem _ h)

theorem writeByte_wf (h : m.wf = true) (a : Nat) (v : Byte) : (m.writeByte a v).wf = true := by
  rw [wf_iff] at h ⊢
  induction m with
  | nil => simp [Memory.writeByte]
  | cons d m ih =>
    obtain ⟨k, w⟩ := d
    rw [List.pairwise_cons] at h
    simp only [Memory.writeByte]
    split
    · rename_i hak
      refine List.pairwise_cons.mpr ⟨fun c hc => ?_, List.pairwise_cons.mpr h⟩
      rcases List.mem_cons.mp hc with rfl | hc
      · exact hak
      · exact lt_trans hak (h.1 c hc)
    · split
      · rename_i _ hak
        subst hak
        exact List.pairwise_cons.mpr ⟨h.1, h.2⟩
      · refine List.pairwise_cons.mpr ⟨fun c hc => ?_, ih h.2⟩
        rcases mem_writeByte hc with rfl | hc
        · show k < a
          omega
        · exact h.1 c hc

theorem writeBytes_wf (h : m.wf = true) (a : Nat) (vs : List Byte) : (m.writeBytes a vs).wf = true := by
  induction vs generalizing m a with
  | nil => exact h
  | cons v vs ih => exact ih (writeByte_wf h a v) (a + 1)

theorem slide_wf (h : m.wf = true) (shift hi : Nat) : (m.slide shift hi).wf = true := by
  rw [wf_iff] at h ⊢
  rw [Memory.slide, List.pairwise_map]
  refine (List.Pairwise.filter _ h).imp_of_mem fun {c d} hc hd hcd => ?_
  have hc' := (List.mem_filter.mp hc).2
  have hd' := (List.mem_filter.mp hd).2
  simp only [Bool.and_eq_true, decide_eq_true_eq] at hc' hd'
  show c.1 - shift < d.1 - shift
  omega

theorem mem_writeBytes {a : Nat} {vs : List Byte} {c : Host.Cell} (h : c ∈ m.writeBytes a vs) :
    (a ≤ c.1 ∧ c.1 < a + vs.length) ∨ c ∈ m := by
  induction vs generalizing m a with
  | nil => exact .inr h
  | cons v vs ih =>
    rcases ih h with h | h
    · exact .inl (by simp only [List.length_cons]; omega)
    · rcases mem_writeByte h with rfl | h
      · exact .inl (by simp)
      · exact .inr h

/-! ### A window: the indices `0..n-1`, as `RBUF` holds them (10_state.md R24) -/

theorem window_wf {n : Nat} (h : m.map Prod.fst = List.range n) : m.wf = true := by
  simp only [Memory.wf, h, decide_eq_true_eq]
  exact List.pairwise_lt_range

theorem readByte_isSome_iff (m : Memory) (a : Nat) : (m.readByte a).isSome ↔ a ∈ m.map Prod.fst := by
  induction m with
  | nil => simp [Memory.readByte]
  | cons c m ih =>
    obtain ⟨k, w⟩ := c
    by_cases h : a = k <;> simp_all [Memory.readByte]

theorem window_readByte_isSome {n : Nat} (h : m.map Prod.fst = List.range n) (a : Nat) :
    (m.readByte a).isSome ↔ a < n := by
  rw [readByte_isSome_iff, h, List.mem_range]

/-- Every slice of a window can be read. -/
theorem window_readBytes {n a k : Nat} (h : m.map Prod.fst = List.range n) (hk : a + k ≤ n) :
    ∃ bs, m.readBytes a k = some bs :=
  readBytes_isSome fun j hj => (window_readByte_isSome h _).mpr (by omega)

/-- In canonical form, the listed indices are exactly `0..n-1` once the readable ones are. -/
theorem window_of_isSome {n : Nat} (hwf : m.wf = true) (h : ∀ a, (m.readByte a).isSome ↔ a < n) :
    m.map Prod.fst = List.range n := by
  have hp : (m.map Prod.fst).Pairwise (· < ·) := by simpa [Memory.wf] using hwf
  refine List.Perm.eq_of_pairwise (le := (· < ·)) (fun a b _ _ h1 h2 => absurd h1 (by omega)) hp
    List.pairwise_lt_range ?_
  refine (List.perm_ext_iff_of_nodup (hp.imp fun h => Nat.ne_of_lt h) List.nodup_range).mpr fun a => ?_
  rw [← readByte_isSome_iff, h, List.mem_range]

/-- `readOnce`'s write at the top extends the window (42_read_buffer.md R151). -/
theorem window_writeBytes {n : Nat} (h : m.map Prod.fst = List.range n) (vs : List Byte) :
    (m.writeBytes n vs).map Prod.fst = List.range (n + vs.length) := by
  refine window_of_isSome (writeBytes_wf (window_wf h) n vs) fun a => ?_
  rw [readByte_writeBytes]
  split
  · rename_i h1
    rw [List.getElem?_eq_getElem (by omega)]
    simpa using h1.2
  · rw [window_readByte_isSome h]
    omega

theorem window_writeByte {n a : Nat} (h : m.map Prod.fst = List.range n) (ha : a < n) (v : Byte) :
    (m.writeByte a v).map Prod.fst = List.range n := by
  refine window_of_isSome (writeByte_wf (window_wf h) a v) fun b => ?_
  rw [readByte_writeByte]
  split
  · simp_all
  · exact window_readByte_isSome h b

/-- A compaction leaves a window (42_read_buffer.md R150, R155). -/
theorem window_slide {n shift : Nat} (h : m.map Prod.fst = List.range n) :
    (m.slide shift n).map Prod.fst = List.range (n - shift) := by
  refine window_of_isSome (slide_wf (window_wf h) shift n) fun a => ?_
  rw [readByte_slide]
  split
  · rw [window_readByte_isSome h]
    omega
  · simp
    omega

end Sys2Proof.Machine
end

