-- ==== Sys2Proof/Laws/State.lean ====
section
/-! SUPPORT. One lemma per field per update of State: what each named update of Ops.lean and Turns.lean leaves in each
field. True by definition; provers cite them instead of unfolding an update. -/

namespace Sys2Proof.Machine

variable (s : State)

/-! ### A response -/

@[simp] theorem respond_cfg (c : Byte) (x : Result) : (respond c x s).cfg = s.cfg := rfl
@[simp] theorem respond_r (c : Byte) (x : Result) : (respond c x s).r = s.r := rfl
@[simp] theorem respond_w (c : Byte) (x : Result) : (respond c x s).w = s.w := rfl
@[simp] theorem respond_RLOCK (c : Byte) (x : Result) : (respond c x s).RLOCK = s.RLOCK := rfl
@[simp] theorem respond_WLOCK (c : Byte) (x : Result) : (respond c x s).WLOCK = s.WLOCK := rfl
@[simp] theorem respond_reader (c : Byte) (x : Result) : (respond c x s).reader = s.reader := rfl
@[simp] theorem respond_writer (c : Byte) (x : Result) : (respond c x s).writer = s.writer := rfl
@[simp] theorem respond_rWait (c : Byte) (x : Result) : (respond c x s).rWait = s.rWait := rfl
@[simp] theorem respond_wWait (c : Byte) (x : Result) : (respond c x s).wWait = s.wWait := rfl
@[simp] theorem respond_events (c : Byte) (x : Result) : (respond c x s).events = s.events := rfl
@[simp] theorem respond_env (c : Byte) (x : Result) : (respond c x s).env = s.env := rfl
@[simp] theorem respond_responses (c : Byte) (x : Result) : (respond c x s).responses = ⟨c, x⟩ :: s.responses := rfl
@[simp] theorem respond_trace (c : Byte) (x : Result) : (respond c x s).trace = s.trace := rfl

/-! ### A recorded transaction -/

@[simp] theorem logTransaction_cfg (t : Transaction) : (logTransaction t s).cfg = s.cfg := rfl
@[simp] theorem logTransaction_r (t : Transaction) : (logTransaction t s).r = s.r := rfl
@[simp] theorem logTransaction_w (t : Transaction) : (logTransaction t s).w = s.w := rfl
@[simp] theorem logTransaction_RLOCK (t : Transaction) : (logTransaction t s).RLOCK = s.RLOCK := rfl
@[simp] theorem logTransaction_WLOCK (t : Transaction) : (logTransaction t s).WLOCK = s.WLOCK := rfl
@[simp] theorem logTransaction_reader (t : Transaction) : (logTransaction t s).reader = s.reader := rfl
@[simp] theorem logTransaction_writer (t : Transaction) : (logTransaction t s).writer = s.writer := rfl
@[simp] theorem logTransaction_rWait (t : Transaction) : (logTransaction t s).rWait = s.rWait := rfl
@[simp] theorem logTransaction_wWait (t : Transaction) : (logTransaction t s).wWait = s.wWait := rfl
@[simp] theorem logTransaction_events (t : Transaction) : (logTransaction t s).events = s.events := rfl
@[simp] theorem logTransaction_env (t : Transaction) : (logTransaction t s).env = s.env := rfl
@[simp] theorem logTransaction_responses (t : Transaction) : (logTransaction t s).responses = s.responses := rfl
@[simp] theorem logTransaction_trace (t : Transaction) : (logTransaction t s).trace = t :: s.trace := rfl

/-! ### The return of an R-port command -/

@[simp] theorem endRead_cfg (c : Byte) (x : Result) : (endRead c x s).cfg = s.cfg := rfl
@[simp] theorem endRead_r (c : Byte) (x : Result) : (endRead c x s).r = s.r := rfl
@[simp] theorem endRead_w (c : Byte) (x : Result) : (endRead c x s).w = s.w := rfl
@[simp] theorem endRead_RLOCK (c : Byte) (x : Result) : (endRead c x s).RLOCK = none := rfl
@[simp] theorem endRead_WLOCK (c : Byte) (x : Result) : (endRead c x s).WLOCK = s.WLOCK := rfl
@[simp] theorem endRead_reader (c : Byte) (x : Result) : (endRead c x s).reader = .idle := rfl
@[simp] theorem endRead_writer (c : Byte) (x : Result) : (endRead c x s).writer = s.writer := rfl
@[simp] theorem endRead_rWait (c : Byte) (x : Result) : (endRead c x s).rWait = s.rWait := rfl
@[simp] theorem endRead_wWait (c : Byte) (x : Result) : (endRead c x s).wWait = s.wWait := rfl
@[simp] theorem endRead_events (c : Byte) (x : Result) : (endRead c x s).events = s.events := rfl
@[simp] theorem endRead_env (c : Byte) (x : Result) : (endRead c x s).env = s.env := rfl
@[simp] theorem endRead_responses (c : Byte) (x : Result) : (endRead c x s).responses = ⟨c, x⟩ :: s.responses := rfl
@[simp] theorem endRead_trace (c : Byte) (x : Result) : (endRead c x s).trace = s.trace := rfl

/-! ### The return of a W-port command -/

@[simp] theorem endWrite_cfg (c : Byte) (x : Result) : (endWrite c x s).cfg = s.cfg := rfl
@[simp] theorem endWrite_r (c : Byte) (x : Result) : (endWrite c x s).r = s.r := rfl
@[simp] theorem endWrite_w (c : Byte) (x : Result) : (endWrite c x s).w = s.w := rfl
@[simp] theorem endWrite_RLOCK (c : Byte) (x : Result) : (endWrite c x s).RLOCK = s.RLOCK := rfl
@[simp] theorem endWrite_WLOCK (c : Byte) (x : Result) : (endWrite c x s).WLOCK = none := rfl
@[simp] theorem endWrite_reader (c : Byte) (x : Result) : (endWrite c x s).reader = s.reader := rfl
@[simp] theorem endWrite_writer (c : Byte) (x : Result) : (endWrite c x s).writer = .idle := rfl
@[simp] theorem endWrite_rWait (c : Byte) (x : Result) : (endWrite c x s).rWait = s.rWait := rfl
@[simp] theorem endWrite_wWait (c : Byte) (x : Result) : (endWrite c x s).wWait = s.wWait := rfl
@[simp] theorem endWrite_events (c : Byte) (x : Result) : (endWrite c x s).events = s.events := rfl
@[simp] theorem endWrite_env (c : Byte) (x : Result) : (endWrite c x s).env = s.env := rfl
@[simp] theorem endWrite_responses (c : Byte) (x : Result) :
    (endWrite c x s).responses = ⟨c, x⟩ :: s.responses := rfl
@[simp] theorem endWrite_trace (c : Byte) (x : Result) : (endWrite c x s).trace = s.trace := rfl

/-! ### The entry of a header fetch (43_frame_reader.md R161) -/

@[simp] theorem beginFetch_cfg (call : HeaderCall) : (beginFetch call s).cfg = s.cfg := rfl
@[simp] theorem beginFetch_r (call : HeaderCall) : (beginFetch call s).r = { s.r with ST := s.r.I } := rfl
@[simp] theorem beginFetch_w (call : HeaderCall) : (beginFetch call s).w = s.w := rfl
@[simp] theorem beginFetch_RLOCK (call : HeaderCall) : (beginFetch call s).RLOCK = s.RLOCK := rfl
@[simp] theorem beginFetch_WLOCK (call : HeaderCall) : (beginFetch call s).WLOCK = s.WLOCK := rfl
@[simp] theorem beginFetch_reader (call : HeaderCall) : (beginFetch call s).reader = .header call .fetch := rfl
@[simp] theorem beginFetch_writer (call : HeaderCall) : (beginFetch call s).writer = s.writer := rfl
@[simp] theorem beginFetch_rWait (call : HeaderCall) : (beginFetch call s).rWait = s.rWait := rfl
@[simp] theorem beginFetch_wWait (call : HeaderCall) : (beginFetch call s).wWait = s.wWait := rfl
@[simp] theorem beginFetch_events (call : HeaderCall) : (beginFetch call s).events = s.events := rfl
@[simp] theorem beginFetch_env (call : HeaderCall) : (beginFetch call s).env = s.env := rfl
@[simp] theorem beginFetch_responses (call : HeaderCall) : (beginFetch call s).responses = s.responses := rfl
@[simp] theorem beginFetch_trace (call : HeaderCall) : (beginFetch call s).trace = s.trace := rfl

/-! ### The latch of a header (43_frame_reader.md R161) -/

@[simp] theorem latch_cfg (op : BitVec 4) (h : Head) : (latch op h s).cfg = s.cfg := rfl
@[simp] theorem latch_r (op : BitVec 4) (h : Head) :
    (latch op h s).r = { s.r with
      HDR := h.bits op, KEY := headKey h, I := s.r.ST + headSize h
      START := (s.r.ST + headSize h : Nat), MORE := headLength h } := rfl
@[simp] theorem latch_w (op : BitVec 4) (h : Head) : (latch op h s).w = s.w := rfl
@[simp] theorem latch_RLOCK (op : BitVec 4) (h : Head) : (latch op h s).RLOCK = s.RLOCK := rfl
@[simp] theorem latch_WLOCK (op : BitVec 4) (h : Head) : (latch op h s).WLOCK = s.WLOCK := rfl
@[simp] theorem latch_reader (op : BitVec 4) (h : Head) : (latch op h s).reader = s.reader := rfl
@[simp] theorem latch_writer (op : BitVec 4) (h : Head) : (latch op h s).writer = s.writer := rfl
@[simp] theorem latch_rWait (op : BitVec 4) (h : Head) : (latch op h s).rWait = s.rWait := rfl
@[simp] theorem latch_wWait (op : BitVec 4) (h : Head) : (latch op h s).wWait = s.wWait := rfl
@[simp] theorem latch_events (op : BitVec 4) (h : Head) : (latch op h s).events = s.events := rfl
@[simp] theorem latch_env (op : BitVec 4) (h : Head) : (latch op h s).env = s.env := rfl
@[simp] theorem latch_responses (op : BitVec 4) (h : Head) : (latch op h s).responses = s.responses := rfl
@[simp] theorem latch_trace (op : BitVec 4) (h : Head) : (latch op h s).trace = s.trace := rfl

/-! ### A header command that returns a status -/

@[simp] theorem endHeader_cfg (call : HeaderCall) (k : Status) : (endHeader call k s).cfg = s.cfg := rfl
@[simp] theorem endHeader_r (call : HeaderCall) (k : Status) : (endHeader call k s).r = s.r := rfl
@[simp] theorem endHeader_w (call : HeaderCall) (k : Status) : (endHeader call k s).w = s.w := rfl
@[simp] theorem endHeader_RLOCK (call : HeaderCall) (k : Status) : (endHeader call k s).RLOCK = none := rfl
@[simp] theorem endHeader_WLOCK (call : HeaderCall) (k : Status) : (endHeader call k s).WLOCK = s.WLOCK := rfl
@[simp] theorem endHeader_reader (call : HeaderCall) (k : Status) : (endHeader call k s).reader = .idle := rfl
@[simp] theorem endHeader_writer (call : HeaderCall) (k : Status) : (endHeader call k s).writer = s.writer := rfl
@[simp] theorem endHeader_rWait (call : HeaderCall) (k : Status) : (endHeader call k s).rWait = s.rWait := rfl
@[simp] theorem endHeader_wWait (call : HeaderCall) (k : Status) : (endHeader call k s).wWait = s.wWait := rfl
@[simp] theorem endHeader_events (call : HeaderCall) (k : Status) : (endHeader call k s).events = s.events := rfl
@[simp] theorem endHeader_env (call : HeaderCall) (k : Status) : (endHeader call k s).env = s.env := rfl
@[simp] theorem endHeader_responses (call : HeaderCall) (k : Status) :
    (endHeader call k s).responses = ⟨headerCallCode call, headerStatus call k⟩ :: s.responses := rfl
@[simp] theorem endHeader_trace (call : HeaderCall) (k : Status) : (endHeader call k s).trace = s.trace := rfl

/-! ### A fatal status (43_frame_reader.md R178) -/

@[simp] theorem takeFatal_cfg (call : HeaderCall) (k : Status) : (takeFatal call k s).cfg = s.cfg := rfl
@[simp] theorem takeFatal_r (call : HeaderCall) (k : Status) :
    (takeFatal call k s).r = { s.r with RSTATE := .closed, RERR := k } := rfl
@[simp] theorem takeFatal_w (call : HeaderCall) (k : Status) : (takeFatal call k s).w = s.w := rfl
@[simp] theorem takeFatal_RLOCK (call : HeaderCall) (k : Status) : (takeFatal call k s).RLOCK = none := rfl
@[simp] theorem takeFatal_WLOCK (call : HeaderCall) (k : Status) : (takeFatal call k s).WLOCK = s.WLOCK := rfl
@[simp] theorem takeFatal_reader (call : HeaderCall) (k : Status) : (takeFatal call k s).reader = .idle := rfl
@[simp] theorem takeFatal_writer (call : HeaderCall) (k : Status) : (takeFatal call k s).writer = s.writer := rfl
@[simp] theorem takeFatal_rWait (call : HeaderCall) (k : Status) : (takeFatal call k s).rWait = s.rWait := rfl
@[simp] theorem takeFatal_wWait (call : HeaderCall) (k : Status) : (takeFatal call k s).wWait = s.wWait := rfl
@[simp] theorem takeFatal_events (call : HeaderCall) (k : Status) : (takeFatal call k s).events = s.events := rfl
@[simp] theorem takeFatal_env (call : HeaderCall) (k : Status) : (takeFatal call k s).env = s.env := rfl
@[simp] theorem takeFatal_responses (call : HeaderCall) (k : Status) :
    (takeFatal call k s).responses = ⟨headerCallCode call, headerStatus call k⟩ :: s.responses := rfl
@[simp] theorem takeFatal_trace (call : HeaderCall) (k : Status) : (takeFatal call k s).trace = s.trace := rfl

/-! ### A command answered by a closed reader (60_exceptions.md R271) -/

@[simp] theorem answerClosed_cfg (c : Byte) (counts : Bool) : (answerClosed c counts s).cfg = s.cfg := rfl
@[simp] theorem answerClosed_r (c : Byte) (counts : Bool) : (answerClosed c counts s).r = s.r := rfl
@[simp] theorem answerClosed_w (c : Byte) (counts : Bool) : (answerClosed c counts s).w = s.w := rfl
@[simp] theorem answerClosed_RLOCK (c : Byte) (counts : Bool) : (answerClosed c counts s).RLOCK = s.RLOCK := rfl
@[simp] theorem answerClosed_WLOCK (c : Byte) (counts : Bool) : (answerClosed c counts s).WLOCK = s.WLOCK := rfl
@[simp] theorem answerClosed_reader (c : Byte) (counts : Bool) : (answerClosed c counts s).reader = s.reader := rfl
@[simp] theorem answerClosed_writer (c : Byte) (counts : Bool) : (answerClosed c counts s).writer = s.writer := rfl
@[simp] theorem answerClosed_rWait (c : Byte) (counts : Bool) : (answerClosed c counts s).rWait = s.rWait := rfl
@[simp] theorem answerClosed_wWait (c : Byte) (counts : Bool) : (answerClosed c counts s).wWait = s.wWait := rfl
@[simp] theorem answerClosed_events (c : Byte) (counts : Bool) : (answerClosed c counts s).events = s.events := rfl
@[simp] theorem answerClosed_env (c : Byte) (counts : Bool) : (answerClosed c counts s).env = s.env := rfl
@[simp] theorem answerClosed_responses (c : Byte) (counts : Bool) :
    (answerClosed c counts s).responses = ⟨c, if counts then .delivered [] s.r.RERR else .status s.r.RERR⟩ :: s.responses := rfl
@[simp] theorem answerClosed_trace (c : Byte) (counts : Bool) : (answerClosed c counts s).trace = s.trace := rfl

/-! ### The compaction of a Ping (42_read_buffer.md R155) -/

@[simp] theorem compactFromST_cfg : (compactFromST s).cfg = s.cfg := rfl
@[simp] theorem compactFromST_r :
    (compactFromST s).r = { s.r with
      RBUF := s.r.RBUF.slide s.r.ST s.r.END, ST := 0, I := s.r.I - s.r.ST, END := s.r.END - s.r.ST
      START := s.r.START - s.r.ST } := rfl
@[simp] theorem compactFromST_w : (compactFromST s).w = s.w := rfl
@[simp] theorem compactFromST_RLOCK : (compactFromST s).RLOCK = s.RLOCK := rfl
@[simp] theorem compactFromST_WLOCK : (compactFromST s).WLOCK = s.WLOCK := rfl
@[simp] theorem compactFromST_reader : (compactFromST s).reader = s.reader := rfl
@[simp] theorem compactFromST_writer : (compactFromST s).writer = s.writer := rfl
@[simp] theorem compactFromST_rWait : (compactFromST s).rWait = s.rWait := rfl
@[simp] theorem compactFromST_wWait : (compactFromST s).wWait = s.wWait := rfl
@[simp] theorem compactFromST_events : (compactFromST s).events = s.events := rfl
@[simp] theorem compactFromST_env : (compactFromST s).env = s.env := rfl
@[simp] theorem compactFromST_responses : (compactFromST s).responses = s.responses := rfl
@[simp] theorem compactFromST_trace : (compactFromST s).trace = s.trace := rfl

/-! ### A new level of `cancel_fired` -/

@[simp] theorem driveCancel_cfg (level : Bool) : (driveCancel level s).cfg = s.cfg := rfl
@[simp] theorem driveCancel_r (level : Bool) : (driveCancel level s).r = s.r := rfl
@[simp] theorem driveCancel_w (level : Bool) : (driveCancel level s).w = s.w := rfl
@[simp] theorem driveCancel_RLOCK (level : Bool) : (driveCancel level s).RLOCK = s.RLOCK := rfl
@[simp] theorem driveCancel_WLOCK (level : Bool) : (driveCancel level s).WLOCK = s.WLOCK := rfl
@[simp] theorem driveCancel_reader (level : Bool) : (driveCancel level s).reader = s.reader := rfl
@[simp] theorem driveCancel_writer (level : Bool) : (driveCancel level s).writer = s.writer := rfl
@[simp] theorem driveCancel_rWait (level : Bool) : (driveCancel level s).rWait = s.rWait := rfl
@[simp] theorem driveCancel_wWait (level : Bool) : (driveCancel level s).wWait = s.wWait := rfl
@[simp] theorem driveCancel_events (level : Bool) : (driveCancel level s).events = s.events := rfl
@[simp] theorem driveCancel_env (level : Bool) :
    (driveCancel level s).env = { s.env with
      cancelFired := level || (s.env.cancelFired && s.reader != .idle) } := rfl
@[simp] theorem driveCancel_responses (level : Bool) : (driveCancel level s).responses = s.responses := rfl
@[simp] theorem driveCancel_trace (level : Bool) : (driveCancel level s).trace = s.trace := rfl

end Sys2Proof.Machine
end

