-- ==== Sys2Proof/Laws/Ops.lean ====
section
/-! SUPPORT. The shared operations of Ops.lean, one lemma each that says everything it can do. -/

namespace Sys2Proof.Machine

variable {s t : State}

/-! ### The ports -/

/-- `TRead` (20_memory.md R66): at most `cap` octets, none with another status than `T_OK`; they leave the RX stream
in order, and one transaction is recorded. -/
theorem tRead_some {cap : Nat} {d : List Byte} {st : ReadStatus} (h : tRead cap s = some (d, st, t)) :
    d.length ≤ cap ∧ (st ≠ .ok → d = []) ∧
    ∃ left, t = { s with env := { s.env with rx := left }, trace := .read cap d st :: s.trace } ∧
      rxStream s.env.rx = d ++ rxStream left := by
  unfold tRead at h
  split at h
  · cases h
  · rename_i c rest hrx
    cases h
    refine ⟨List.length_take_le _ _, fun h => absurd rfl h, _, rfl, ?_⟩
    rw [hrx]
    split
    · rename_i hl
      simp [rxStream, List.take_of_length_le hl]
    · simp [rxStream, ← List.append_assoc]
  all_goals
    rename_i hrx
    cases h
    exact ⟨Nat.zero_le _, fun _ => rfl, _, rfl, by rw [hrx]; rfl⟩

/-- The transport has not answered exactly when nothing stands ready. -/
theorem tRead_none {cap : Nat} : tRead cap s = none ↔ s.env.rx = [] := by
  unfold tRead
  split <;> simp_all

/-- `TWrite` (20_memory.md R67): it accepts at most the frame. -/
theorem tWrite_some {frame : List Byte} {n : Nat} {ts : SendStatus} (h : tWrite frame s = some (n, ts, t)) :
    n ≤ frame.length ∧
    ∃ left, t = { s with env := { s.env with tx := left }, trace := .write frame n ts :: s.trace } := by
  unfold tWrite at h
  split at h
  · cases h
  · cases h
    exact ⟨Nat.min_le_right _ _, _, rfl⟩

theorem tWrite_none {frame : List Byte} : tWrite frame s = none ↔ s.env.tx = [] := by
  unfold tWrite
  split <;> simp_all

/-- `TWrite` with an answer ready. -/
theorem tWrite_cons {frame : List Byte} {a : TxAnswer} {rest : List TxAnswer} (h : s.env.tx = a :: rest) :
    tWrite frame s = some (min a.accept frame.length, a.status,
      { s with
        env := { s.env with tx := rest }
        trace := .write frame (min a.accept frame.length) a.status :: s.trace }) := by
  unfold tWrite
  rw [h]
  rfl

/-- `TClose` (20_memory.md R68) touches the inputs and the trace alone. -/
theorem tClose_eq (s : State) :
    ∃ a env, tClose s = (a, { s with env := env, trace := .close a :: s.trace }) ∧
      env.rx = s.env.rx ∧ env.tx = s.env.tx ∧ env.cancelFired = s.env.cancelFired := by
  unfold tClose
  split <;> exact ⟨_, _, rfl, rfl, rfl, rfl⟩

/-- `Rand4` (20_memory.md R69) touches the inputs alone. -/
theorem rand4_eq (s : State) :
    ∃ env, (rand4 s).2 = { s with env := env } ∧
      env.rx = s.env.rx ∧ env.tx = s.env.tx ∧ env.closes = s.env.closes ∧
      env.cancelFired = s.env.cancelFired := by
  unfold rand4
  split <;> exact ⟨_, rfl, rfl, rfl, rfl, rfl⟩

/-! ### The read buffer -/

/-- What `fill` leaves (42_read_buffer.md R150): everything but the window and its cursors. -/
theorem fill_some (h : fill s = some t) :
    t = { s with r := if s.r.I ≥ s.r.END / 2 then slideFromI s.r else s.r } ∧ t.r.END ≠ s.cfg.rbufSize := by
  unfold fill at h
  by_cases hI : s.r.I ≥ s.r.END / 2 <;> simp only [hI, if_true, if_false] at h ⊢ <;> split at h <;>
    first
      | (rename_i hne; injection h with h; subst h; exact ⟨rfl, hne⟩)
      | cases h

theorem fill_none : fill s = none ↔
    (if s.r.I ≥ s.r.END / 2 then s.r.END - s.r.I else s.r.END) = s.cfg.rbufSize := by
  unfold fill
  by_cases h : s.r.I ≥ s.r.END / 2 <;> simp [h, slideFromI]

theorem slideFromI_cursors {r : ReaderRegs} {size : Nat} (h1 : r.ST ≤ r.I) (h2 : r.I ≤ r.END)
    (h3 : r.END ≤ size) (h4 : r.RBUF.map Prod.fst = List.range r.END) (h5 : r.START ≤ r.I)
    (h6 : (r.I : Int) - r.START + r.MORE ≤ maxLen) (hs : s.r = slideFromI r) (hc : s.cfg.rbufSize = size) :
    CursorInv s := by
  constructor <;> rw [hs] <;> simp only [slideFromI]
  · omega
  · omega
  · omega
  · exact window_slide h4
  · omega
  · omega

/-- `fill` keeps the cursor invariants and makes room (R150, R154). -/
theorem fill_cursorInv (hi : CursorInv s) (h : fill s = some t) : CursorInv t ∧ t.r.END < t.cfg.rbufSize := by
  obtain ⟨rfl, hne⟩ := fill_some h
  have hc : CursorInv { s with r := if s.r.I ≥ s.r.END / 2 then slideFromI s.r else s.r } := by
    by_cases hI : s.r.I ≥ s.r.END / 2
    · exact slideFromI_cursors hi.st_le_i hi.i_le_end hi.end_le_size hi.filled hi.start_le_i hi.payload
        (by simp [hI]) rfl
    · simpa [hI] using hi
  exact ⟨hc, lt_of_le_of_ne hc.end_le_size hne⟩

/-- The registers `fill` does not touch. -/
theorem fill_regs (h : fill s = some t) :
    t.r.MORE = s.r.MORE ∧ t.r.HDR = s.r.HDR ∧ t.r.KEY = s.r.KEY ∧ t.r.RSTATE = s.r.RSTATE ∧
      t.r.RERR = s.r.RERR ∧ t.r.CBUF = s.r.CBUF ∧ (t.r.I : Int) - t.r.START = s.r.I - s.r.START := by
  obtain ⟨rfl, -⟩ := fill_some h
  by_cases hI : s.r.I ≥ s.r.END / 2 <;> simp [hI, slideFromI]

/-- `readOnce` (R151): octets of one `TRead` are placed at the top of the window. -/
theorem readOnce_some {n : Nat} {st : ReadStatus} (h : readOnce s = some (n, st, t)) :
    ∃ d left, n = d.length ∧ d.length ≤ s.cfg.rbufSize - s.r.END ∧ (st ≠ .ok → d = []) ∧
      rxStream s.env.rx = d ++ rxStream left ∧
      t = { s with
        r := { s.r with RBUF := s.r.RBUF.writeBytes s.r.END d, END := s.r.END + d.length }
        env := { s.env with rx := left }
        trace := .read (s.cfg.rbufSize - s.r.END) d st :: s.trace } := by
  unfold readOnce at h
  split at h
  · cases h
  · rename_i d st' s' hr
    cases h
    obtain ⟨hl, hd, left, rfl, hs⟩ := tRead_some hr
    exact ⟨d, left, rfl, hl, hd, hs, rfl⟩

theorem readOnce_none : readOnce s = none ↔ s.env.rx = [] := by
  unfold readOnce
  split
  · rename_i h
    simpa using tRead_none.mp h
  · rename_i h
    simp only [reduceCtorEq, false_iff]
    intro hrx
    rw [tRead_none.mpr hrx] at h
    cases h

theorem readOnce_cursorInv {n : Nat} {st : ReadStatus} (hi : CursorInv s) (h : readOnce s = some (n, st, t)) :
    CursorInv t := by
  obtain ⟨d, left, -, hd, -, -, rfl⟩ := readOnce_some h
  have h1 := hi.i_le_end
  have h2 := hi.end_le_size
  exact ⟨hi.st_le_i, by show s.r.I ≤ s.r.END + d.length; omega,
    by show s.r.END + d.length ≤ s.cfg.rbufSize; omega, window_writeBytes hi.filled d, hi.start_le_i, hi.payload⟩

/-- `compactFromST` keeps the cursor invariants (42_read_buffer.md R155). -/
theorem compactFromST_cursorInv (hi : CursorInv s) : CursorInv (compactFromST s) := by
  have h1 := hi.st_le_i
  have h2 := hi.i_le_end
  have h3 := hi.end_le_size
  have h4 := hi.start_le_i
  have h5 := hi.payload
  constructor <;> simp only [compactFromST]
  · omega
  · omega
  · omega
  · exact window_slide hi.filled
  · omega
  · omega

/-! ### The unread octets -/

/-- `RBUF[I..END)` when the window is whole. -/
theorem CursorInv.buffered (hi : CursorInv s) :
    ∃ bs, s.r.RBUF.readBytes s.r.I (s.r.END - s.r.I) = some bs ∧ bs.length = s.r.END - s.r.I := by
  obtain ⟨bs, h⟩ := window_readBytes (a := s.r.I) (k := s.r.END - s.r.I) hi.filled (by have := hi.i_le_end; omega)
  exact ⟨bs, h, readBytes_length h⟩

/-- A compaction changes no unread octet (R154). -/
theorem fill_unread (hi : CursorInv s) (h : fill s = some t) : unread t = unread s := by
  obtain ⟨rfl, -⟩ := fill_some h
  by_cases hI : s.r.I ≥ s.r.END / 2
  · have : (s.r.RBUF.slide s.r.I s.r.END).readBytes 0 (s.r.END - s.r.I) =
        s.r.RBUF.readBytes s.r.I (s.r.END - s.r.I) := by
      rw [readBytes_slide (by have := hi.i_le_end; omega), Nat.zero_add]
    simp [unread, hI, slideFromI, this]
  · simp [hI]

/-- `readOnce` moves octets from the transport to the buffer and changes no unread octet. -/
theorem readOnce_unread {n : Nat} {st : ReadStatus} (hi : CursorInv s) (h : readOnce s = some (n, st, t)) :
    unread t = unread s := by
  obtain ⟨d, left, -, -, -, hs, rfl⟩ := readOnce_some h
  have h1 := hi.i_le_end
  obtain ⟨bs, hb, hl⟩ := hi.buffered
  have e : (s.r.RBUF.writeBytes s.r.END d).readBytes s.r.I (s.r.END + d.length - s.r.I) = some (bs ++ d) := by
    rw [show s.r.END + d.length - s.r.I = (s.r.END - s.r.I) + d.length by omega, readBytes_add,
      show s.r.I + (s.r.END - s.r.I) = s.r.END by omega, readBytes_writeBytes_self,
      readBytes_congr (m' := s.r.RBUF) fun k hk => readByte_writeBytes_of_outside (.inl (by omega)), hb]
  simp [unread, e, hb, hs]

/-! ### The frame a write composes -/

/-- `composeFrame` (44_frame_writer.md R201 steps 1 to 6) touches the write buffer and the inputs alone; the frame
stands in `WBUF[0..WLEN)`. -/
theorem composeFrame_eq (payload : List Byte) (op : BitVec 4) (final : Bool) (s : State) :
    ∃ key env, let h := frameHeader s.cfg.role key payload op final
      let body := framePayload s.cfg.role key payload
      composeFrame payload op final s = (h.length, { s with
        w := { s.w with WBUF := s.w.WBUF.writeBytes 0 (h ++ body), WLEN := h.length + payload.length }
        env := env }) ∧ body.length = payload.length ∧
      env.rx = s.env.rx ∧ env.tx = s.env.tx ∧ env.closes = s.env.closes ∧
      env.cancelFired = s.env.cancelFired := by
  unfold composeFrame
  split
  · rename_i hr
    exact ⟨Key.zero, s.env, by simp [hr, framePayload]⟩
  · rename_i hr
    obtain ⟨env, he, h1, h2, h3, h4⟩ := rand4_eq s
    refine ⟨(rand4 s).1, env, ?_⟩
    simp only [he, hr, framePayload, length_mask, and_self, h1, h2, h3, h4]

end Sys2Proof.Machine
end

