-- ==== Sys2Proof/Laws/Delivery.lean ====
section
/-! SUPPORT. Consuming payload: what a delivery, a skip or a refill takes from the stream, said once, and what one turn
of `deliver` can do. -/

namespace Sys2Proof.Machine

variable {s t u : State}

/-! ### Transactions -/

@[simp] theorem receivedOctets_nil : receivedOctets [] = [] := rfl

@[simp] theorem receivedOctets_read (cap : Nat) (d : List Byte) (st : ReadStatus) (older : List Transaction) :
    receivedOctets (.read cap d st :: older) = receivedOctets older ++ d := rfl

theorem receivedOctets_append (newer older : List Transaction) :
    receivedOctets (newer ++ older) = receivedOctets older ++ receivedOctets newer := by
  induction newer with
  | nil => simp
  | cons x newer ih => cases x <;> simp [receivedOctets, ih]

/-! ### What was taken -/

/-- From `s` to `t` the octets `pre` of the payload were consumed: the window, its cursors, `MORE`, the transport's
answers and the trace moved, and nothing else did (10_state.md R39, R42; 20_memory.md R72). -/
structure Taken (s t : State) (pre : List Byte) : Prop where
  frame : t = { s with
    r := { s.r with
      RBUF := t.r.RBUF, ST := t.r.ST, I := t.r.I, END := t.r.END, START := t.r.START, MORE := t.r.MORE }
    env := { s.env with rx := t.env.rx }
    trace := t.trace }
  reads : ∃ reads, t.trace = reads ++ s.trace ∧ rxStream s.env.rx = receivedOctets reads ++ rxStream t.env.rx
  more : t.r.MORE + pre.length = s.r.MORE
  offset : (t.r.I : Int) - t.r.START = s.r.I - s.r.START + pre.length
  unread : unread s = pre ++ unread t

namespace Taken

variable {pre pre' : List Byte}

theorem refl (s : State) : Taken s s [] := ⟨rfl, ⟨[], rfl, rfl⟩, rfl, by simp, rfl⟩

theorem trans (h : Taken s t pre) (h' : Taken t u pre') : Taken s u (pre ++ pre') := by
  refine ⟨?_, ?_, ?_, ?_, ?_⟩
  · refine h'.frame.trans ?_
    rw [h.frame]
  · obtain ⟨reads, e, hrx⟩ := h.reads
    obtain ⟨reads', e', hrx'⟩ := h'.reads
    exact ⟨reads' ++ reads, by rw [e', e, List.append_assoc],
      by rw [hrx, hrx', receivedOctets_append, List.append_assoc]⟩
  · have h1 := h.more
    have h2 := h'.more
    simp only [List.length_append]
    omega
  · have h1 := h.offset
    have h2 := h'.offset
    simp only [List.length_append]
    omega
  · rw [h.unread, h'.unread, List.append_assoc]

theorem trace (h : Taken s t pre) : s.trace <:+ t.trace := by
  obtain ⟨reads, e, -⟩ := h.reads
  exact ⟨reads, e.symm⟩

theorem cfg (h : Taken s t pre) : t.cfg = s.cfg := by rw [h.frame]
theorem w (h : Taken s t pre) : t.w = s.w := by rw [h.frame]
theorem RLOCK (h : Taken s t pre) : t.RLOCK = s.RLOCK := by rw [h.frame]
theorem WLOCK (h : Taken s t pre) : t.WLOCK = s.WLOCK := by rw [h.frame]
theorem reader (h : Taken s t pre) : t.reader = s.reader := by rw [h.frame]
theorem writer (h : Taken s t pre) : t.writer = s.writer := by rw [h.frame]
theorem rWait (h : Taken s t pre) : t.rWait = s.rWait := by rw [h.frame]
theorem wWait (h : Taken s t pre) : t.wWait = s.wWait := by rw [h.frame]
theorem events (h : Taken s t pre) : t.events = s.events := by rw [h.frame]
theorem responses (h : Taken s t pre) : t.responses = s.responses := by rw [h.frame]
theorem HDR (h : Taken s t pre) : t.r.HDR = s.r.HDR := by rw [h.frame]
theorem KEY (h : Taken s t pre) : t.r.KEY = s.r.KEY := by rw [h.frame]
theorem RSTATE (h : Taken s t pre) : t.r.RSTATE = s.r.RSTATE := by rw [h.frame]
theorem RERR (h : Taken s t pre) : t.r.RERR = s.r.RERR := by rw [h.frame]
theorem CBUF (h : Taken s t pre) : t.r.CBUF = s.r.CBUF := by rw [h.frame]
theorem tx (h : Taken s t pre) : t.env.tx = s.env.tx := by rw [h.frame]
theorem closes (h : Taken s t pre) : t.env.closes = s.env.closes := by rw [h.frame]
theorem cancelFired (h : Taken s t pre) : t.env.cancelFired = s.env.cancelFired := by rw [h.frame]

/-- The mask phase after it counts the octets taken (10_state.md R39). -/
theorem maskOffset (h : Taken s t pre) (hc : s.r.START ≤ s.r.I) :
    Machine.maskOffset t.r = Machine.maskOffset s.r + pre.length := by
  have := h.offset
  unfold Machine.maskOffset
  omega

end Taken

/-- `fill` takes no octet (42_read_buffer.md R154). -/
theorem fill_taken (hi : CursorInv s) (h : fill s = some t) : Taken s t [] := by
  refine ⟨?_, ?_, ?_, ?_, ?_⟩
  · obtain ⟨rfl, -⟩ := fill_some h
    by_cases hI : s.r.I ≥ s.r.END / 2 <;> simp [hI, slideFromI]
  · obtain ⟨rfl, -⟩ := fill_some h
    exact ⟨[], rfl, rfl⟩
  · simpa using (fill_regs h).1
  · simpa using (fill_regs h).2.2.2.2.2.2
  · simpa using (fill_unread hi h).symm

/-- `readOnce` takes no octet: it moves octets from the transport to the buffer (R151). -/
theorem readOnce_taken {n : Nat} {st : ReadStatus} (hi : CursorInv s) (h : readOnce s = some (n, st, t)) :
    Taken s t [] := by
  have hu := readOnce_unread hi h
  obtain ⟨d, left, -, -, -, hs, rfl⟩ := readOnce_some h
  exact ⟨rfl, ⟨[_], rfl, hs⟩, rfl, by simp, by simpa using hu.symm⟩

/-- `fill` finds room when nothing is unread (R153). -/
theorem fill_isSome_of_empty (hi : CursorInv s) (hsize : 32 ≤ s.cfg.rbufSize) (h : s.r.END ≤ s.r.I) :
    ∃ t, fill s = some t := by
  refine Option.ne_none_iff_exists'.mp fun hn => ?_
  rw [fill_none] at hn
  have := hi.i_le_end
  split at hn <;> omega

/-- `fill` finds room for a header that is not complete (R153): fewer than 14 octets stand from `I = ST` on. -/
theorem fill_isSome_of_header (hi : CursorInv s) (hsize : 32 ≤ s.cfg.rbufSize) (h : s.r.END - s.r.I < 14) :
    ∃ t, fill s = some t := by
  refine Option.ne_none_iff_exists'.mp fun hn => ?_
  rw [fill_none] at hn
  have := hi.i_le_end
  split at hn <;> omega

/-- What one turn of `deliver` can do on a whole window (43_frame_reader.md R171, R173, R174). It never panics
(42_read_buffer.md R153). -/
theorem deliverTurn_cases {want got : Nat} (hi : CursorInv s) (hsize : 32 ≤ s.cfg.rbufSize)
    (hmore : want - got ≤ s.r.MORE) :
    match deliverTurn want got s with
    | .done => want ≤ got
    | .octets bs t => got < want ∧ ∃ pre, bs = mask pre s.r.KEY (maskOffset s.r) ∧ pre.length ≤ want - got ∧
        Taken s t pre ∧ CursorInv t
    | .again t => got < want ∧ Taken s t [] ∧ CursorInv t
    | .waiting t => got < want ∧ s.env.rx = [] ∧ Taken s t [] ∧ CursorInv t
    | .ended st t => got < want ∧ (∃ rs, rs ≠ .ok ∧ st = eofRule s.env.cancelFired got rs) ∧ Taken s t [] ∧
        CursorInv t
    | .halt _ => False := by
  have h1 := hi.i_le_end
  have h2 := hi.start_le_i
  have h3 := hi.end_le_size
  have h4 := hi.payload
  unfold deliverTurn
  by_cases hg : got ≥ want
  · simp only [hg, if_true]
  simp only [hg, if_false]
  by_cases hI : s.r.I < s.r.END
  · simp only [hI, if_true]
    obtain ⟨bs, hb⟩ := window_readBytes (a := s.r.I) (k := min (want - got) (s.r.END - s.r.I)) hi.filled (by omega)
    have hl := readBytes_length hb
    simp only [hb]
    refine ⟨by omega, bs, rfl, by omega, ⟨rfl, ⟨[], rfl, rfl⟩, ?_, ?_, ?_⟩, ?_⟩
    · simp only
      omega
    · simp only
      omega
    · obtain ⟨cs, hc⟩ := window_readBytes (a := s.r.I + bs.length) (k := s.r.END - (s.r.I + bs.length)) hi.filled
        (by omega)
      have : s.r.RBUF.readBytes s.r.I (s.r.END - s.r.I) = some (bs ++ cs) := by
        rw [show s.r.END - s.r.I = bs.length + (s.r.END - (s.r.I + bs.length)) by omega, readBytes_add, hc,
          show bs.length = min (want - got) (s.r.END - s.r.I) from hl, hb]
      simp only [unread, this, ← hl, hc, Option.getD_some, List.append_assoc]
    · exact ⟨by show s.r.ST ≤ _ + _; have := hi.st_le_i; omega, by show _ + _ ≤ s.r.END; omega, h3, hi.filled,
        by show s.r.START ≤ ((_ + _ : Nat) : Int); omega,
        by show ((_ + _ : Nat) : Int) - s.r.START + (_ - _ : Nat) ≤ maxLen; omega⟩
  simp only [hI, if_false]
  by_cases hd : want - got ≥ s.cfg.rbufSize - directMargin
  · simp only [hd, if_true]
    cases hr : tRead (want - got) s with
    | none => exact ⟨by omega, tRead_none.mp hr, Taken.refl s, hi⟩
    | some x =>
      obtain ⟨d, st, t⟩ := x
      obtain ⟨hdl, hdn, left, rfl, hs⟩ := tRead_some hr
      simp only
      by_cases hst : st = .ok
      · simp only [hst, if_true]
        refine ⟨by omega, d, rfl, hdl, ⟨rfl, ⟨[_], rfl, hs⟩, ?_, ?_, ?_⟩, ?_⟩
        · simp only
          omega
        · simp only
          omega
        · have : s.r.END - s.r.I = 0 := by omega
          simp [unread, this, Memory.readBytes, hs]
        · exact ⟨hi.st_le_i, h1, h3, hi.filled, by show s.r.START - (d.length : Int) ≤ s.r.I; omega,
            by show (s.r.I : Int) - (s.r.START - d.length) + (s.r.MORE - d.length : Nat) ≤ maxLen; omega⟩
      · simp only [hst, if_false]
        refine ⟨by omega, ⟨st, hst, rfl⟩, ⟨rfl, ⟨[_], rfl, hs⟩, rfl, by simp, ?_⟩,
          ⟨hi.st_le_i, h1, h3, hi.filled, h2, h4⟩⟩
        simp [unread, hs, hdn hst]
  · simp only [hd, if_false]
    obtain ⟨s1, hf⟩ := fill_isSome_of_empty hi hsize (by omega)
    have hft := fill_taken hi hf
    have hfc := (fill_cursorInv hi hf).1
    simp only [hf]
    cases hr : readOnce s1 with
    | none => exact ⟨by omega, by rw [← readOnce_none.mp hr, (fill_some hf).1], hft, hfc⟩
    | some x =>
      obtain ⟨n, st, t⟩ := x
      have hrt := hft.trans (readOnce_taken hfc hr)
      have hrc := readOnce_cursorInv hfc hr
      simp only
      by_cases hst : st = .ok
      · simp only [hst, if_true]
        exact ⟨by omega, hrt, hrc⟩
      · simp only [hst, if_false]
        exact ⟨by omega, ⟨st, hst, rfl⟩, hrt, hrc⟩

/-- The transaction of one turn of `deliver` (R171, R174; 20_memory.md R65): none while octets are buffered; else one
`TRead`, of the count still wanted on the direct path, or of the whole of the buffer, which is then empty. -/
theorem deliverTurn_reads {want got : Nat} (hi : CursorInv s) :
    match deliverTurn want got s with
    | .done => True
    | .octets _ t =>
      (s.r.I < s.r.END ∧ t.trace = s.trace) ∨
        (s.r.I = s.r.END ∧ t.r.I = t.r.END ∧ want - got ≥ s.cfg.rbufSize - 16 ∧
          ∃ d, d.length ≤ want - got ∧ t.trace = .read (want - got) d .ok :: s.trace)
    | .again t =>
      s.r.I = s.r.END ∧ want - got < s.cfg.rbufSize - 16 ∧
        ∃ d, d.length ≤ s.cfg.rbufSize ∧ t.r.END - t.r.I = d.length ∧ t.trace = .read s.cfg.rbufSize d .ok :: s.trace
    | .waiting t => s.r.I = s.r.END ∧ t.trace = s.trace
    | .ended _ t =>
      s.r.I = s.r.END ∧ ∃ answer,
        t.trace = .read (if want - got ≥ s.cfg.rbufSize - 16 then want - got else s.cfg.rbufSize) [] answer :: s.trace
    | .halt _ => True := by
  have h1 := hi.i_le_end
  unfold deliverTurn
  by_cases hg : got ≥ want
  · simp only [hg, if_true]
  simp only [hg, if_false]
  by_cases hI : s.r.I < s.r.END
  · simp only [hI, if_true]
    cases s.r.RBUF.readBytes s.r.I (min (want - got) (s.r.END - s.r.I)) with
    | none => trivial
    | some bs => exact .inl ⟨trivial, rfl⟩
  simp only [hI, if_false]
  have he : s.r.I = s.r.END := by omega
  by_cases hd : want - got ≥ s.cfg.rbufSize - directMargin
  · simp only [hd, if_true]
    cases hr : tRead (want - got) s with
    | none => exact ⟨he, rfl⟩
    | some x =>
      obtain ⟨d, st, t⟩ := x
      obtain ⟨hdl, hdn, left, rfl, -⟩ := tRead_some hr
      simp only
      by_cases hst : st = .ok
      · simp only [hst, if_true]
        exact .inr ⟨he, he, trivial, d, hdl, rfl⟩
      · simp only [hst, if_false]
        exact ⟨he, st, by rw [hdn hst]⟩
  · simp only [hd, if_false]
    cases hf : fill s with
    | none => trivial
    | some s1 =>
      have hz : s1.r.END = 0 ∧ s1.r.I = 0 ∧ s1.cfg = s.cfg ∧ s1.trace = s.trace := by
        rw [(fill_some hf).1, if_pos (by omega)]
        exact ⟨by simp only [slideFromI]; omega, rfl, rfl, rfl⟩
      simp only
      cases hr : readOnce s1 with
      | none => exact ⟨he, hz.2.2.2⟩
      | some x =>
        obtain ⟨n, st, t⟩ := x
        obtain ⟨d, left, -, hl, hdn, -, rfl⟩ := readOnce_some hr
        simp only [hz.1, hz.2.1, hz.2.2.1, hz.2.2.2, Nat.sub_zero, Nat.zero_add] at hl ⊢
        by_cases hst : st = .ok
        · simp only [hst, if_true]
          exact ⟨he, by simp only [directMargin] at hd; omega, d, hl, rfl, rfl⟩
        · simp only [hst, if_false]
          exact ⟨he, st, by rw [hdn hst]⟩

end Sys2Proof.Machine
end

