-- ==== Sys2Proof/Laws/Control.lean ====
section
/-! SUPPORT. What a move of the reader keeps: the invariant of the block and the frame of the reader, for the control
frames (43_frame_reader.md R175, R176; 44_frame_writer.md R205 to R207). -/

namespace Sys2Proof.Machine

variable {s t u : State}

/-- What no move of the reader changes, and what it only extends (20_memory.md R72, R75; 10_state.md R20, R33, R34). -/
structure ReaderFrame (s t : State) : Prop where
  cfg : t.cfg = s.cfg
  writer : t.writer = s.writer
  rWait : t.rWait = s.rWait
  wWait : t.wWait = s.wWait
  events : t.events = s.events
  closes : t.env.closes = s.env.closes
  cancelFired : t.env.cancelFired = s.env.cancelFired
  wclosed : t.w.WCLOSED = s.w.WCLOSED
  tclosed : t.w.TCLOSED = s.w.TCLOSED
  trace : s.trace <:+ t.trace
  responses : s.responses <:+ t.responses
  unread : unread t <:+ unread s

namespace ReaderFrame

theorem refl (s : State) : ReaderFrame s s :=
  ⟨rfl, rfl, rfl, rfl, rfl, rfl, rfl, rfl, rfl, List.suffix_rfl, List.suffix_rfl, List.suffix_rfl⟩

theorem trans (h : ReaderFrame s t) (h' : ReaderFrame t u) : ReaderFrame s u :=
  ⟨h'.cfg.trans h.cfg, h'.writer.trans h.writer, h'.rWait.trans h.rWait, h'.wWait.trans h.wWait,
    h'.events.trans h.events, h'.closes.trans h.closes, h'.cancelFired.trans h.cancelFired,
    h'.wclosed.trans h.wclosed, h'.tclosed.trans h.tclosed, h.trace.trans h'.trace,
    h.responses.trans h'.responses, h'.unread.trans h.unread⟩

end ReaderFrame

theorem Taken.readerFrame {pre : List Byte} (h : Taken s t pre) : ReaderFrame s t :=
  ⟨h.cfg, h.writer, h.rWait, h.wWait, h.events, h.closes, h.cancelFired, by rw [h.w], by rw [h.w], h.trace,
    by rw [h.responses], ⟨pre, h.unread.symm⟩⟩

/-- What a move keeps: the invariant, and the reader's frame. -/
structure Kept (s t : State) : Prop where
  inv : t.Inv
  frame : ReaderFrame s t

/-- What a move may be: it keeps the invariant, or it is the fault `PANIC`. -/
def Move.Keeps (s : State) : Move → Prop
  | .go t => Kept s t
  | .wait t => Kept s t
  | .halt o => o = .fault .panic

/-- The same of an outcome. -/
def OutcomeKeeps (s : State) : Outcome → Prop
  | .next t => Kept s t
  | .fault f => f = .panic
  | .refused _ => False

theorem Move.Keeps.outcome {m : Move} (h : m.Keeps s) : OutcomeKeeps s m.outcome := by
  cases m with
  | go t => exact h
  | wait t => exact h
  | halt o => cases (show o = .fault .panic from h); rfl

theorem OutcomeKeeps.moveOf {o : Outcome} (h : OutcomeKeeps s o) : (moveOf o).Keeps s := by
  cases o with
  | next t => exact h
  | fault f => exact congrArg Host.Outcome.fault h
  | refused r => exact h.elim

theorem OutcomeKeeps.trans {o : Outcome} (h : ReaderFrame s t) (h' : OutcomeKeeps t o) : OutcomeKeeps s o := by
  cases o with
  | next u => exact ⟨h'.inv, h.trans h'.frame⟩
  | fault f => exact h'
  | refused r => exact h'

/-- The invariant after a move of the reader that leaves the writer's side and `WLOCK` alone. -/
theorem State.Inv.of_reader (hi : s.Inv) (hcfg : t.cfg = s.cfg) (hw : t.w = s.w) (hwr : t.writer = s.writer)
    (hwl : t.WLOCK = s.WLOCK) (hwt : t.reader.writing = s.reader.writing) (hrW : t.rWait = s.rWait)
    (hwW : t.wWait = s.wWait) (hl : t.RLOCK = if t.reader = .idle then none else some .reader)
    (hc : CursorInv t) (hr : ReaderInv t) (hcl : t.r.RSTATE = .closed → t.r.RERR.canClose = true)
    (hwf : t.r.CBUF.wf = true) (hsz : ∀ c ∈ t.r.CBUF, c.1 < closeCap) : t.Inv where
  legal := hcfg ▸ hi.legal
  cursors := hc
  reader := hr
  closedBy := hcl
  rlock := hl
  wlock := by rw [hwl, hwr, hwt]; exact hi.wlock
  oneWriter := by rw [hwr, hwt]; exact hi.oneWriter
  wlen := by rw [hwr, hwt, hcfg, hw]; exact hi.wlen
  sending := by rw [hwr, hw]; exact hi.sending
  composed := by rw [hw]; exact hi.composed
  wbufWf := by rw [hw]; exact hi.wbufWf
  cbufWf := hwf
  cbufSize := hsz
  rWait := by rw [hrW]; exact hi.rWait
  wWait := by rw [hwW]; exact hi.wWait

/-- The least legal buffer (00_scope.md R5). -/
theorem State.Inv.size (hi : s.Inv) : 32 ≤ s.cfg.rbufSize := by
  have := hi.legal
  simp only [Config.legal, Bool.and_eq_true, decide_eq_true_eq] at this
  exact this.1

/-- A command that takes octets and stays where it was keeps the invariant. -/
theorem State.Inv.of_taken {pre : List Byte} (hi : s.Inv) (h : Taken s t pre) (hc : CursorInv t)
    (hr : ReaderInv t) : t.Inv :=
  hi.of_reader h.cfg h.w h.writer h.WLOCK (by rw [h.reader]) h.rWait h.wWait
    (by rw [h.RLOCK, h.reader]; exact hi.rlock) hc hr (by rw [h.RSTATE, h.RERR]; exact hi.closedBy)
    (by rw [h.CBUF]; exact hi.cbufWf) (by rw [h.CBUF]; exact hi.cbufSize)

/-- A fatal status keeps the invariant (43_frame_reader.md R178, 60_exceptions.md R268). -/
theorem Kept.takeFatal {k : Status} (hi : s.Inv) (hw : s.reader.writing = false) (hk : k.canClose = true)
    (call : HeaderCall) : Kept s (takeFatal call k s) where
  inv := hi.of_reader rfl rfl rfl rfl hw.symm rfl rfl rfl
    ⟨hi.cursors.st_le_i, hi.cursors.i_le_end, hi.cursors.end_le_size, hi.cursors.filled, hi.cursors.start_le_i,
      hi.cursors.payload⟩
    (fun h => absurd h (by simp)) (fun _ => hk) hi.cbufWf hi.cbufSize
  frame := ⟨rfl, rfl, rfl, rfl, rfl, rfl, rfl, rfl, rfl, List.suffix_rfl, List.suffix_cons _ _, List.suffix_rfl⟩

theorem terr_canClose {c : Bool} {rs : ReadStatus} (h : rs ≠ .ok) : (terr c rs).canClose = true := by
  cases rs <;> cases c <;> simp_all [terr, Status.canClose]

theorem eofRule_canClose {c : Bool} {got : Nat} {rs : ReadStatus} (h : rs ≠ .ok) :
    eofRule c got rs = .ok ∨ (eofRule c got rs).canClose = true := by
  unfold eofRule
  split
  · exact .inl rfl
  · exact .inr (terr_canClose h)

theorem closeStatusOf_canClose (bs : List Byte) : (closeStatusOf bs).canClose = true := by
  unfold closeStatusOf
  split
  · rfl
  · rfl
  · split <;> rfl

theorem writeStatus_canClose {ts : SendStatus} {n k : Nat} (h : writeStatus ts n k ≠ .ok) :
    (writeStatus ts n k).canClose = true := by
  unfold writeStatus at h ⊢
  split
  · rfl
  · split
    · rfl
    · simp_all

/-! ### Pong (43_frame_reader.md R175) -/

theorem skipMove_keeps {call : HeaderCall} (hi : s.Inv) (hr : s.reader = .header call .skip) :
    (skipMove call s).Keeps s := by
  have hri : s.r.RSTATE ≠ .closed ∧ call ≠ .rawFrameHeader := by simpa [ReaderInv, hr] using hi.reader
  have hc := hi.cursors
  have hl := hi.rlock
  have hri' : ∀ t pre, Taken s t pre → ReaderInv t := by
    intro t pre h
    simp only [ReaderInv, h.reader, hr, h.RSTATE]
    exact hri
  simp only [skipMove]
  by_cases hm : s.r.MORE = 0
  · simp only [hm, if_true]
    exact ⟨hi.of_reader rfl rfl rfl rfl (by simp [hr, RUnit.writing]) rfl rfl (by simp [hl, hr])
      ⟨le_rfl, hc.i_le_end, hc.end_le_size, hc.filled, hc.start_le_i, hc.payload⟩
      (by simp [ReaderInv, hri.1, hm]) hi.closedBy hi.cbufWf hi.cbufSize,
      ⟨rfl, rfl, rfl, rfl, rfl, rfl, rfl, rfl, rfl, List.suffix_rfl, List.suffix_rfl, List.suffix_rfl⟩⟩
  simp only [hm, if_false]
  by_cases hI : s.r.I < s.r.END
  · simp only [hI, if_true]
    obtain ⟨bs, hb⟩ := window_readBytes (a := s.r.I) (k := min s.r.MORE (s.r.END - s.r.I)) hc.filled (by omega)
    obtain ⟨cs, hcs⟩ := window_readBytes (a := s.r.I + min s.r.MORE (s.r.END - s.r.I))
      (k := s.r.END - (s.r.I + min s.r.MORE (s.r.END - s.r.I))) hc.filled (by omega)
    have hl := readBytes_length hb
    have hu : s.r.RBUF.readBytes s.r.I (s.r.END - s.r.I) = some (bs ++ cs) := by
      rw [show s.r.END - s.r.I = min s.r.MORE (s.r.END - s.r.I) +
        (s.r.END - (s.r.I + min s.r.MORE (s.r.END - s.r.I))) by omega, readBytes_add, hcs, hb]
    have h1 := hc.st_le_i
    have h4 := hc.start_le_i
    have h5 := hc.payload
    have ht : Taken s { s with r := { s.r with
        I := s.r.I + min s.r.MORE (s.r.END - s.r.I), MORE := s.r.MORE - min s.r.MORE (s.r.END - s.r.I) } } bs :=
      ⟨rfl, ⟨[], rfl, rfl⟩, by simp only [hl]; omega, by simp only [hl]; omega,
        by simp only [unread, hu, hcs, Option.getD_some, List.append_assoc]⟩
    refine ⟨hi.of_taken ht ⟨?_, ?_, hc.end_le_size, hc.filled, ?_, ?_⟩ (hri' _ _ ht), ht.readerFrame⟩ <;>
      simp only <;> omega
  simp only [hI, if_false]
  obtain ⟨s1, hf⟩ := fill_isSome_of_empty hc hi.size (by omega)
  have hft := fill_taken hc hf
  have hfc := (fill_cursorInv hc hf).1
  simp only [hf]
  cases hrd : readOnce s1 with
  | none => exact ⟨hi.of_taken hft hfc (hri' _ _ hft), hft.readerFrame⟩
  | some x =>
    obtain ⟨n, st, s2⟩ := x
    have hrt := hft.trans (readOnce_taken hfc hrd)
    have hrc := readOnce_cursorInv hfc hrd
    have hk2 : Kept s s2 := ⟨hi.of_taken hrt hrc (hri' _ _ hrt), hrt.readerFrame⟩
    simp only
    by_cases hst : st = .ok
    · simp only [hst, if_true]
      exact hk2
    · simp only [hst, if_false]
      have hf := Kept.takeFatal (k := terr s.env.cancelFired st) hk2.inv
        (by rw [hrt.reader, hr]; rfl) (terr_canClose hst) call
      exact ⟨hf.inv, hk2.frame.trans hf.frame⟩

/-! ### Close (43_frame_reader.md R176) -/

theorem endClose_keeps {call : HeaderCall} {want got : Nat} (hi : s.Inv)
    (hr : s.reader = .header call (.close want got)) : (endClose call got s).Keeps s := by
  have hri : s.r.CBUF.filledBelow got := by
    have := hi.reader
    simp only [ReaderInv, hr] at this
    exact this.2.2.2.2.2
  obtain ⟨bs, hb⟩ := readBytes_isSome (m := s.r.CBUF) (a := 0) (n := got) fun k hk => by
    rw [Nat.zero_add]
    exact hri k hk
  simp only [endClose, hb]
  exact Kept.takeFatal hi (by rw [hr]; rfl) (closeStatusOf_canClose bs) call

theorem closeMove_keeps {call : HeaderCall} {want got : Nat} (hi : s.Inv)
    (hr : s.reader = .header call (.close want got)) : (closeMove call want got s).Keeps s := by
  have hri := hi.reader
  simp only [ReaderInv, hr] at hri
  obtain ⟨h1, h2, h3, h4, h5, h6⟩ := hri
  have hri' : ∀ t, Taken s t [] → ReaderInv t := by
    intro t h
    have := h.more
    simp only [List.length_nil] at this
    simp only [ReaderInv, h.reader, hr, h.RSTATE, h.CBUF]
    exact ⟨h1, h2, h3, h4, by omega, h6⟩
  have hd := deliverTurn_cases (s := s) (want := want) (got := got) hi.cursors hi.size h5
  unfold closeMove
  revert hd
  cases deliverTurn want got s with
  | done => exact fun _ => endClose_keeps hi hr
  | octets bs t =>
    rintro ⟨hg, pre, rfl, hl, ht, hc⟩
    have hm := ht.more
    have hlen := length_mask pre s.r.KEY (maskOffset s.r)
    refine ⟨hi.of_reader ht.cfg ht.w ht.writer ht.WLOCK (by rw [hr]; rfl) ht.rWait ht.wWait
      (by show t.RLOCK = _; rw [ht.RLOCK, hi.rlock, hr]; rfl)
      ⟨hc.st_le_i, hc.i_le_end, hc.end_le_size, hc.filled, hc.start_le_i, hc.payload⟩ ?_
      (by show t.r.RSTATE = _ → t.r.RERR.canClose = _; rw [ht.RSTATE, ht.RERR]; exact hi.closedBy) ?_ ?_,
      ht.readerFrame.trans ⟨rfl, rfl, rfl, rfl, rfl, rfl, rfl, rfl, rfl, List.suffix_rfl, List.suffix_rfl,
        List.suffix_rfl⟩⟩
    · simp only [ReaderInv]
      refine ⟨by rw [ht.RSTATE]; exact h1, h2, by omega, h4, by omega, ?_⟩
      intro a ha
      rw [readByte_writeBytes]
      split
      · rw [List.getElem?_eq_getElem (by omega)]
        rfl
      · rw [ht.CBUF]
        exact h6 a (by omega)
    · exact writeBytes_wf (by rw [ht.CBUF]; exact hi.cbufWf) _ _
    · intro c hcm
      rcases mem_writeBytes hcm with h | h
      · omega
      · rw [ht.CBUF] at h
        exact hi.cbufSize c h
  | again t =>
    rintro ⟨-, ht, hc⟩
    exact ⟨hi.of_taken ht hc (hri' t ht), ht.readerFrame⟩
  | waiting t =>
    rintro ⟨-, -, ht, hc⟩
    exact ⟨hi.of_taken ht hc (hri' t ht), ht.readerFrame⟩
  | ended st t =>
    rintro ⟨-, ⟨rs, hrs, hst⟩, ht, hc⟩
    have hk : Kept s t := ⟨hi.of_taken ht hc (hri' t ht), ht.readerFrame⟩
    simp only
    split
    · have he := endClose_keeps (got := got) (want := want) (call := call) hk.inv (by rw [ht.reader, hr])
      revert he
      cases endClose call got t with
      | go u => exact fun he => ⟨he.inv, hk.frame.trans he.frame⟩
      | wait u => exact fun he => ⟨he.inv, hk.frame.trans he.frame⟩
      | halt o => exact fun he => he
    · rename_i hne
      have hf := Kept.takeFatal (k := st) hk.inv (by rw [ht.reader, hr]; rfl)
        ((hst ▸ eofRule_canClose hrs).resolve_left hne) call
      exact ⟨hf.inv, hk.frame.trans hf.frame⟩
  | halt f => exact fun h => h.elim

/-! ### Ping (44_frame_writer.md R205 to R207) -/

/-- `compactFromST` takes no octet (R154, R155). -/
theorem compactFromST_taken (hi : CursorInv s) : Taken s (compactFromST s) [] := by
  have h1 := hi.st_le_i
  have h2 := hi.i_le_end
  refine ⟨rfl, ⟨[], rfl, rfl⟩, rfl, ?_, ?_⟩
  · simp only [compactFromST_r, List.length_nil]
    omega
  · have : (s.r.RBUF.slide s.r.ST s.r.END).readBytes (s.r.I - s.r.ST) (s.r.END - s.r.ST - (s.r.I - s.r.ST)) =
        s.r.RBUF.readBytes s.r.I (s.r.END - s.r.I) := by
      rw [readBytes_slide (by omega)]
      congr 1 <;> omega
    simp only [unread, compactFromST_r, this, List.nil_append]
    rfl

theorem readerInv_ping {call : HeaderCall} (hi : s.Inv) (hr : s.reader = .header call .ping)
    (h : Taken s t []) (hs : (t.r.I : Int) - t.r.ST = s.r.I - s.r.ST) : ReaderInv t := by
  have := hi.reader
  simp only [ReaderInv, hr] at this
  simp only [ReaderInv, h.reader, hr, h.RSTATE]
  exact ⟨this.1, this.2.1, by have := this.2.2; omega⟩

theorem readable_writeBytes (m : Memory) (bs : List Byte) : (m.writeBytes 0 bs).filledBelow bs.length := by
  intro a ha
  rw [readByte_writeBytes, if_pos (by omega), List.getElem?_eq_getElem (by omega)]
  rfl

/-- The invariant after a move of the reader that takes or gives back the write lock, the writer being idle. -/
theorem State.Inv.of_pong (hi : s.Inv) (hcfg : t.cfg = s.cfg) (hwr : t.writer = .idle)
    (hwl : t.WLOCK = if t.reader.writing then some .reader else none)
    (hwlen : (t.reader.writing = true → t.cfg.pongMode = .passthrough) → t.w.WLEN = 0)
    (hcomp : t.w.WBUF.filledBelow t.w.WLEN) (hwb : t.w.WBUF.wf = true) (hrW : t.rWait = s.rWait)
    (hwW : t.wWait = s.wWait) (hl : t.RLOCK = if t.reader = .idle then none else some .reader)
    (hc : CursorInv t) (hr : ReaderInv t) (hcl : t.r.RSTATE = .closed → t.r.RERR.canClose = true)
    (hwf : t.r.CBUF.wf = true) (hsz : ∀ c ∈ t.r.CBUF, c.1 < closeCap) : t.Inv where
  legal := hcfg ▸ hi.legal
  cursors := hc
  reader := hr
  closedBy := hcl
  rlock := hl
  wlock := by rw [hwl, hwr]; rfl
  oneWriter := by simp [hwr]
  wlen := fun _ => hwlen
  sending := by simp [hwr]
  composed := hcomp
  wbufWf := hwb
  cbufWf := hwf
  cbufSize := hsz
  rWait := by rw [hrW]; exact hi.rWait
  wWait := by rw [hwW]; exact hi.wWait

theorem pongCompose_keeps {call : HeaderCall} (hi : s.Inv) (hr : s.reader = .header call .ping)
    (hn : frameEnd s.r ≤ s.r.END) : (pongCompose call s).Keeps s := by
  have hri := hi.reader
  simp only [ReaderInv, hr] at hri
  obtain ⟨h1, h2, h3⟩ := hri
  have hc := hi.cursors
  have hie := hc.i_le_end
  unfold pongCompose
  cases hwl : s.WLOCK with
  | some a => exact ⟨hi, ReaderFrame.refl s⟩
  | none =>
    have hwi : s.writer = .idle := by
      by_contra hne
      have := hi.wlock
      simp [hwl, hne] at this
    simp only
    cases hpm : s.cfg.pongMode with
    | passthrough =>
      obtain ⟨b, hb⟩ := Option.isSome_iff_exists.mp ((window_readByte_isSome hc.filled s.r.ST).mpr (by omega))
      have hu : (s.r.RBUF.writeByte s.r.ST (pongOctet b)).readBytes s.r.I (s.r.END - s.r.I) =
          s.r.RBUF.readBytes s.r.I (s.r.END - s.r.I) :=
        readBytes_congr fun k _ => readByte_writeByte_of_ne (by omega) _
      simp only [hb]
      refine ⟨hi.of_pong rfl hwi rfl (fun _ => hi.wlen hwi fun _ => hpm) hi.composed hi.wbufWf rfl rfl
        (by simpa [hr] using hi.rlock)
        ⟨hc.st_le_i, hie, hc.end_le_size, window_writeByte hc.filled (by omega) _, hc.start_le_i, hc.payload⟩
        ⟨h1, h2, hn⟩ hi.closedBy hi.cbufWf hi.cbufSize,
        ⟨rfl, rfl, rfl, rfl, rfl, rfl, rfl, rfl, rfl, List.suffix_rfl, List.suffix_rfl, ?_⟩⟩
      simp only [unread, hu]
      exact List.suffix_rfl
    | fresh =>
      obtain ⟨bs, hb⟩ := window_readBytes (a := s.r.I) (k := s.r.MORE) hc.filled hn
      simp only [hb]
      obtain ⟨key, env, he, hbl, hrx, -, hcl, hcf⟩ := composeFrame_eq (mask bs s.r.KEY 0) 10 true s
      simp only [he]
      refine ⟨hi.of_pong rfl hwi rfl (fun h => absurd (h rfl) (by simp [hpm])) ?_ (writeBytes_wf hi.wbufWf _ _)
        rfl rfl (by simpa [hr] using hi.rlock)
        ⟨hc.st_le_i, hie, hc.end_le_size, hc.filled, hc.start_le_i, hc.payload⟩
        ⟨h1, h2, hn⟩ hi.closedBy hi.cbufWf hi.cbufSize,
        ⟨rfl, rfl, rfl, rfl, rfl, hcl, hcf, rfl, rfl, List.suffix_rfl, List.suffix_rfl, ?_⟩⟩
      · rw [← hbl, ← List.length_append]
        exact readable_writeBytes _ _
      · simp only [unread, hrx]
        exact List.suffix_rfl

theorem pingMove_keeps {call : HeaderCall} (hi : s.Inv) (hr : s.reader = .header call .ping) :
    (pingMove call s).Keeps s := by
  have hc := hi.cursors
  have h3 := hc.st_le_i
  unfold pingMove
  split
  · rfl
  · rename_i hfit
    split
    · rename_i hend
      set s1 := if frameEnd s.r > s.cfg.rbufSize then compactFromST s else s with hs1
      have h1 : Taken s s1 [] ∧ CursorInv s1 ∧ (s1.r.I : Int) - s1.r.ST = s.r.I - s.r.ST := by
        rw [hs1]
        split
        · exact ⟨compactFromST_taken hc, compactFromST_cursorInv hc, by simp only [compactFromST_r]; omega⟩
        · exact ⟨Taken.refl s, hc, rfl⟩
      obtain ⟨ht, hc1, hd⟩ := h1
      have hk1 : Kept s s1 := ⟨hi.of_taken ht hc1 (readerInv_ping hi hr ht hd), ht.readerFrame⟩
      simp only
      cases hrd : readOnce s1 with
      | none => exact hk1
      | some x =>
        obtain ⟨n, st, s2⟩ := x
        have ht2 := ht.trans (readOnce_taken hc1 hrd)
        have hd2 : (s2.r.I : Int) - s2.r.ST = s.r.I - s.r.ST := by
          obtain ⟨d, left, -, -, -, -, rfl⟩ := readOnce_some hrd
          exact hd
        have hk2 : Kept s s2 :=
          ⟨hi.of_taken ht2 (readOnce_cursorInv hc1 hrd) (readerInv_ping hi hr ht2 hd2), ht2.readerFrame⟩
        simp only
        split
        · exact hk2
        · rename_i hst
          have hf := Kept.takeFatal (k := terr s.env.cancelFired st) hk2.inv (by rw [ht2.reader, hr]; rfl)
            (terr_canClose hst) call
          exact ⟨hf.inv, hk2.frame.trans hf.frame⟩
    · exact pongCompose_keeps hi hr (by omega)

theorem pongMove_keeps {call : HeaderCall} (hi : s.Inv) (hr : s.reader = .header call .pongWrite) :
    (pongMove call s).Keeps s := by
  have hri := hi.reader
  simp only [ReaderInv, hr] at hri
  obtain ⟨h1, h2, hn⟩ := hri
  have hc := hi.cursors
  have hie := hc.i_le_end
  have hst := hc.st_le_i
  have hsti := hc.start_le_i
  have hpay := hc.payload
  have hne : frameEnd s.r = s.r.I + s.r.MORE := rfl
  have hwi : s.writer = .idle := by
    by_contra hw
    have := hi.oneWriter hw
    rw [hr] at this
    cases this
  have hframe : ∃ frame, pongFrame s = some frame := by
    unfold pongFrame
    split
    · exact window_readBytes hc.filled (by omega)
    · exact readBytes_isSome fun k hk => by rw [Nat.zero_add]; exact hi.composed k hk
  obtain ⟨frame, hfr⟩ := hframe
  simp only [pongMove, hfr]
  cases htw : tWrite frame s with
  | none => exact ⟨hi, ReaderFrame.refl s⟩
  | some x =>
    obtain ⟨tn, ts, s1⟩ := x
    obtain ⟨-, left, rfl⟩ := tWrite_some htw
    have hw : (afterPong s.cfg.pongMode s.w).WLEN = 0 ∧
        (afterPong s.cfg.pongMode s.w).WBUF = s.w.WBUF ∧
        (afterPong s.cfg.pongMode s.w).WCLOSED = s.w.WCLOSED ∧
        (afterPong s.cfg.pongMode s.w).TCLOSED = s.w.TCLOSED := by
      unfold afterPong
      split
      · rename_i hp
        exact ⟨hi.wlen hwi fun _ => hp, rfl, rfl, rfl⟩
      · exact ⟨rfl, rfl, rfl, rfl⟩
    have hcomp : (afterPong s.cfg.pongMode s.w).WBUF.filledBelow (afterPong s.cfg.pongMode s.w).WLEN := by
      rw [hw.1]
      intro a ha
      omega
    have hwb : (afterPong s.cfg.pongMode s.w).WBUF.wf = true := by
      rw [hw.2.1]
      exact hi.wbufWf
    simp only
    split
    · obtain ⟨bs, hb⟩ := window_readBytes (a := s.r.I) (k := s.r.MORE) hc.filled (by omega)
      obtain ⟨cs, hcs⟩ := window_readBytes (a := frameEnd s.r) (k := s.r.END - frameEnd s.r) hc.filled (by omega)
      have hu : s.r.RBUF.readBytes s.r.I (s.r.END - s.r.I) = some (bs ++ cs) := by
        rw [show s.r.END - s.r.I = s.r.MORE + (s.r.END - frameEnd s.r) by omega, readBytes_add, hb,
          show s.r.I + s.r.MORE = frameEnd s.r from rfl, hcs]
      refine ⟨hi.of_pong rfl hwi rfl (fun _ => hw.1) hcomp hwb rfl rfl
        (by simpa [hr] using hi.rlock)
        ⟨le_rfl, hn, hc.end_le_size, hc.filled, by show s.r.START ≤ (frameEnd s.r : Int); omega,
          by show (frameEnd s.r : Int) - s.r.START + (0 : Nat) ≤ maxLen; omega⟩
        ⟨h1, rfl, rfl⟩ hi.closedBy hi.cbufWf hi.cbufSize,
        ⟨rfl, rfl, rfl, rfl, rfl, rfl, rfl, hw.2.2.1, hw.2.2.2, List.suffix_cons _ _, List.suffix_rfl, bs, ?_⟩⟩
      simp only [unread, hu, beginFetch, hcs, Option.getD_some, List.append_assoc]
    · rename_i hst
      exact ⟨hi.of_pong rfl hwi rfl (fun _ => hw.1) hcomp hwb rfl rfl rfl
        ⟨hc.st_le_i, hie, hc.end_le_size, hc.filled, hsti, hpay⟩ (fun h => absurd h (by simp))
        (fun _ => writeStatus_canClose hst) hi.cbufWf hi.cbufSize,
        ⟨rfl, rfl, rfl, rfl, rfl, rfl, rfl, hw.2.2.1, hw.2.2.2, List.suffix_cons _ _, List.suffix_cons _ _,
          List.suffix_rfl⟩⟩

/-! ### Control frames as far as they go -/

theorem controlMove_keeps (hi : s.Inv) : (controlMove s).Keeps s := by
  have hrefl : Kept s s := ⟨hi, ReaderFrame.refl s⟩
  unfold controlMove
  split
  · exact hrefl
  · exact hrefl
  · exact hrefl
  · rename_i hr
    exact pingMove_keeps hi hr
  · rename_i hr
    exact pongMove_keeps hi hr
  · rename_i hr
    exact skipMove_keeps hi hr
  · rename_i hr
    exact closeMove_keeps hi hr

/-- Running a control frame keeps what its moves keep. -/
theorem runControl_keeps (n : Nat) (hi : s.Inv) : OutcomeKeeps s (runControl n s) := by
  induction n generalizing s with
  | zero => exact ⟨hi, ReaderFrame.refl s⟩
  | succ n ih =>
    have hm := controlMove_keeps hi
    simp only [runControl]
    revert hm
    cases controlMove s with
    | go t => exact fun h => (ih h.inv).trans h.frame
    | wait t => exact fun h => h
    | halt o => exact fun h => Move.Keeps.outcome (m := .halt o) h

end Sys2Proof.Machine
end

