-- ==== Sys2Proof/Laws/Reader.lean ====
section
/-! SUPPORT. What a move of the reader keeps: the header fetch, the dispatch, the delivery (43_frame_reader.md R161 to
R172), and a command run as far as it goes. -/

namespace Sys2Proof.Machine

variable {s t : State}

/-! ### The header fetch (R161, R162) -/

/-- What a header fetch parses when the window is whole. -/
theorem fetchOctets_eq (hc : CursorInv s) (hI : s.r.I = s.r.ST) :
    ∃ octets, fetchOctets s = some octets ∧ octets.length = s.r.END - s.r.I ∧
      s.r.RBUF.readBytes s.r.I (s.r.END - s.r.I) = some octets := by
  obtain ⟨bs, hb, hl⟩ := hc.buffered
  exact ⟨bs, by rw [fetchOctets, ← hI, hb], hl, hb⟩

/-- The size, length and key of a header that parsed (40_header_codec.md R125, R126). -/
theorem parseChecked_head {cfg : Config} {octets : List Byte} {bits : BitVec 16} {len next : Nat} {key : Key}
    (h : parseChecked cfg octets 0 = .ok bits len key next) :
    let hd := Head.ofParsed bits len key
    hd.bits (hdrOpcode bits) = bits ∧ headSize hd = next ∧ headLength hd = len ∧ headKey hd = key ∧
      2 ≤ next ∧ next ≤ octets.length ∧ len ≤ maxLen := by
  have hf := parseChecked_ok_parseFull h
  have hs := ofParsed_size hf
  rw [Nat.zero_add] at hs
  exact ⟨ofParsed_bits hf, hs, ofParsed_length hf, ofParsed_key hf, by rw [← hs, headSize]; omega,
    parseFull_next_le hf, ofParsed_length_le hf⟩

/-- The latch of a header that stands in the window keeps the cursors (R161). -/
theorem latch_cursorInv {op : BitVec 4} {h : Head} (hc : CursorInv s)
    (hs : s.r.ST + headSize h ≤ s.r.END) (hl : headLength h ≤ maxLen) : CursorInv (latch op h s) :=
  ⟨by simp only [latch_r]; omega, hs, hc.end_le_size, hc.filled, le_rfl, by simp only [latch_r]; omega⟩

/-- The latch consumes the header's octets. -/
theorem latch_frame {op : BitVec 4} {h : Head} (hc : CursorInv s) (hI : s.r.I = s.r.ST)
    (hs : s.r.ST + headSize h ≤ s.r.END) : ReaderFrame s (latch op h s) := by
  refine ⟨rfl, rfl, rfl, rfl, rfl, rfl, rfl, rfl, rfl, List.suffix_rfl, List.suffix_rfl, ?_⟩
  obtain ⟨bs, hb⟩ := window_readBytes (a := s.r.I) (k := headSize h) hc.filled (by omega)
  obtain ⟨cs, hcs⟩ := window_readBytes (a := s.r.I + headSize h) (k := s.r.END - (s.r.I + headSize h)) hc.filled
    (by omega)
  have hu : s.r.RBUF.readBytes s.r.I (s.r.END - s.r.I) = some (bs ++ cs) := by
    rw [show s.r.END - s.r.I = headSize h + (s.r.END - (s.r.I + headSize h)) by omega, readBytes_add, hb, hcs]
  refine ⟨bs, ?_⟩
  simp only [unread, latch_r, latch_env, ← hI, hu, hcs, Option.getD_some, List.append_assoc]

/-- The return of a frame keeps what the reader keeps (R163, R164). -/
theorem returnFrame_frame (call : HeaderCall) (op : BitVec 4) (s : State) :
    ReaderFrame s (returnFrame call op s) := by
  cases call <;>
    exact ⟨rfl, rfl, rfl, rfl, rfl, rfl, rfl, rfl, rfl, List.suffix_rfl,
      by first | exact List.suffix_cons _ _ | exact List.suffix_rfl, List.suffix_rfl⟩

section
variable {call : HeaderCall} {op : BitVec 4} {h : Head}

/-- A latched header leaves a state whose invariant holds but for the reader's place. -/
theorem returnFrame_keeps (hi : s.Inv) (hr : s.reader = .header call .fetch)
    (hs : s.r.ST + headSize h ≤ s.r.END) (hl : headLength h ≤ maxLen) :
    Kept s (returnFrame call op (latch op h s)) := by
  have hri := hi.reader
  simp only [ReaderInv, hr] at hri
  have hlock := hi.rlock
  have hc := latch_cursorInv (op := op) hi.cursors hs hl
  refine ⟨?_, (latch_frame hi.cursors hri.2.2 hs).trans (returnFrame_frame call op _)⟩
  cases call with
  | frameHeader =>
    exact hi.of_reader rfl rfl rfl rfl (by rw [hr]; rfl) rfl rfl rfl
      ⟨hc.st_le_i, hc.i_le_end, hc.end_le_size, hc.filled, hc.start_le_i, hc.payload⟩
      (fun h => absurd h (by simp [returnFrame])) (fun h => absurd h (by simp [returnFrame])) hi.cbufWf hi.cbufSize
  | rawFrameHeader =>
    exact hi.of_reader rfl rfl rfl rfl (by rw [hr]; rfl) rfl rfl rfl
      ⟨hc.st_le_i, hc.i_le_end, hc.end_le_size, hc.filled, hc.start_le_i, hc.payload⟩
      (fun h => absurd h (by simp [returnFrame])) (fun h => absurd h (by simp [returnFrame])) hi.cbufWf hi.cbufSize
  | read n =>
    refine hi.of_reader rfl rfl rfl rfl (by rw [hr]; rfl) rfl rfl ?_
      ⟨hc.st_le_i, hc.i_le_end, hc.end_le_size, hc.filled, hc.start_le_i, hc.payload⟩ ?_
      (fun h => absurd h (by simp [returnFrame])) hi.cbufWf hi.cbufSize
    · rw [hr] at hlock
      exact hlock
    · simp only [returnFrame, ReaderInv, deliveryWant, List.length_nil]
      refine ⟨by simp, by omega, ?_, by simp⟩
      show min n _ - 0 ≤ _
      omega

theorem controlFrame_keeps {phase : HeaderPhase} (hi : s.Inv) (hr : s.reader = .header call .fetch)
    (hs : s.r.ST + headSize h ≤ s.r.END) (hl : headLength h ≤ maxLen) (hw : phase ≠ .pongWrite)
    (hp : ∀ call', call' ≠ .rawFrameHeader →
      ReaderInv { latch op h s with reader := .header call' phase }) :
    OutcomeKeeps s (controlFrame op h phase s) := by
  have hri := hi.reader
  simp only [ReaderInv, hr] at hri
  have hlock := hi.rlock
  rw [hr] at hlock
  have hc := latch_cursorInv (op := op) hi.cursors hs hl
  have hrun : ∀ call', call' ≠ .rawFrameHeader → ∀ n,
      OutcomeKeeps s (runControl n { latch op h s with reader := .header call' phase }) := by
    intro call' hne n
    have hwt : (RUnit.header call' phase).writing = false := by
      cases phase <;> first | rfl | exact absurd rfl hw
    have hf : ReaderFrame (latch op h s) { latch op h s with reader := .header call' phase } :=
      ⟨rfl, rfl, rfl, rfl, rfl, rfl, rfl, rfl, rfl, List.suffix_rfl, List.suffix_rfl, List.suffix_rfl⟩
    exact (runControl_keeps n (hi.of_reader (t := { latch op h s with reader := .header call' phase }) rfl rfl rfl
      rfl (by rw [hr]; exact hwt) rfl rfl hlock ⟨hc.st_le_i, hc.i_le_end, hc.end_le_size, hc.filled, hc.start_le_i, hc.payload⟩
      (hp call' hne) hi.closedBy hi.cbufWf hi.cbufSize)).trans
      ((latch_frame hi.cursors hri.2.2 hs).trans hf)
  unfold controlFrame
  cases call with
  | rawFrameHeader =>
    simp only [hr]
    exact returnFrame_keeps hi hr hs hl
  | frameHeader => simpa only [hr] using hrun _ (by simp) _
  | read n => simpa only [hr] using hrun _ (by simp) _

/-- Every opcode's meaning, at a fetch whose header stands in the window (R163 to R170). -/
theorem dispatchOpcode_keeps (hi : s.Inv) (hr : s.reader = .header call .fetch)
    (hs : s.r.ST + headSize h ≤ s.r.END) (hl : headLength h ≤ maxLen) :
    OutcomeKeeps s (dispatchOpcode op h s) := by
  have hri := hi.reader
  simp only [ReaderInv, hr] at hri
  have hdata : ∀ op', OutcomeKeeps s (dataFrame op' h s) := by
    intro op'
    simp only [dataFrame, hr]
    exact returnFrame_keeps hi hr hs hl
  have hres : ∀ op', OutcomeKeeps s (reservedFrame op' h s) := by
    intro op'
    simp only [reservedFrame, hr]
    have hc := latch_cursorInv (op := op') hi.cursors hs hl
    have hf : ReaderFrame (latch op' h s) (takeFatal call .protocolUnknownOpcode (latch op' h s)) :=
      ⟨rfl, rfl, rfl, rfl, rfl, rfl, rfl, rfl, rfl, List.suffix_rfl, List.suffix_cons _ _, List.suffix_rfl⟩
    exact ⟨hi.of_reader rfl rfl rfl rfl (by rw [hr]; rfl) rfl rfl rfl
      ⟨hc.st_le_i, hc.i_le_end, hc.end_le_size, hc.filled, hc.start_le_i, hc.payload⟩
      (fun h => absurd h (by simp)) (fun _ => rfl) hi.cbufWf hi.cbufSize,
      (latch_frame hi.cursors hri.2.2 hs).trans hf⟩
  unfold dispatchOpcode
  split
  · exact hdata _
  · exact hdata _
  · exact hdata _
  · exact hres _
  · exact hres _
  · exact hres _
  · exact hres _
  · exact hres _
  · refine controlFrame_keeps hi hr hs hl (by simp) fun call' hne => ?_
    refine ⟨hri.1, hne, Nat.zero_le _, Nat.min_le_left _ _, ?_, fun a ha => absurd ha (Nat.not_lt_zero a)⟩
    show min closeCap (headLength h) - 0 ≤ headLength h
    omega
  · refine controlFrame_keeps hi hr hs hl (by simp) fun call' hne => ⟨hri.1, hne, ?_⟩
    show s.r.ST < s.r.ST + headSize h
    unfold headSize
    omega
  · exact controlFrame_keeps hi hr hs hl (by simp) fun call' hne => ⟨hri.1, hne⟩
  · exact hres _
  · exact hres _
  · exact hres _
  · exact hres _
  · exact hres _

end

theorem fetchMore_keeps {call : HeaderCall} {octets : List Byte} (hi : s.Inv)
    (hr : s.reader = .header call .fetch) (ho : octets.length = s.r.END - s.r.I)
    (hp : parseChecked s.cfg octets 0 = .needMore) : (fetchMore call s).Keeps s := by
  have hc := hi.cursors
  have hri := hi.reader
  simp only [ReaderInv, hr] at hri
  obtain ⟨h1, h2, h3⟩ := hri
  have h14 := parseChecked_needMore hp
  have hri' : ∀ t, Taken s t [] → t.r.I = t.r.ST → ReaderInv t := by
    intro t h hI
    have := h.more
    simp only [List.length_nil] at this
    simp only [ReaderInv, h.reader, hr, h.RSTATE]
    exact ⟨h1, by omega, hI⟩
  obtain ⟨s1, hf⟩ := fill_isSome_of_header hc hi.size (by omega)
  have hft := fill_taken hc hf
  have hfc := (fill_cursorInv hc hf).1
  have hfI : s1.r.I = s1.r.ST := by
    obtain ⟨rfl, -⟩ := fill_some hf
    by_cases hI : s.r.I ≥ s.r.END / 2 <;> simp only [hI, if_true, if_false, slideFromI] <;> omega
  simp only [fetchMore, hf]
  cases hrd : readOnce s1 with
  | none => exact ⟨hi.of_taken hft hfc (hri' _ hft hfI), hft.readerFrame⟩
  | some x =>
    obtain ⟨n, st, s2⟩ := x
    have hrt := hft.trans (readOnce_taken hfc hrd)
    have hrc := readOnce_cursorInv hfc hrd
    have hI2 : s2.r.I = s2.r.ST := by
      obtain ⟨d, left, -, -, -, -, rfl⟩ := readOnce_some hrd
      exact hfI
    have hk2 : Kept s s2 := ⟨hi.of_taken hrt hrc (hri' _ hrt hI2), hrt.readerFrame⟩
    have hm2 : s2.r.MORE = 0 := by
      have := hrt.more
      simp only [List.append_nil, List.length_nil] at this
      omega
    simp only
    split
    · exact hk2
    · refine ⟨hk2.inv.of_reader rfl rfl rfl rfl (by rw [hrt.reader, hr]; rfl) rfl rfl rfl
        ⟨hrc.st_le_i, hrc.i_le_end, hrc.end_le_size, hrc.filled, hrc.start_le_i, hrc.payload⟩ (fun _ => hm2)
        hk2.inv.closedBy hk2.inv.cbufWf hk2.inv.cbufSize,
        hk2.frame.trans ⟨rfl, rfl, rfl, rfl, rfl, rfl, rfl, rfl, rfl, List.suffix_rfl, List.suffix_cons _ _,
          List.suffix_rfl⟩⟩

theorem fetchMove_keeps {call : HeaderCall} (hi : s.Inv) (hr : s.reader = .header call .fetch) :
    (fetchMove call s).Keeps s := by
  have hri := hi.reader
  simp only [ReaderInv, hr] at hri
  obtain ⟨octets, ho, hl, hb⟩ := fetchOctets_eq hi.cursors hri.2.2
  simp only [fetchMove, ho]
  cases hp : parseChecked s.cfg octets 0 with
  | ok bits len key next =>
    obtain ⟨-, hs, hlen, -, -, hle, hmax⟩ := parseChecked_head hp
    exact (dispatchOpcode_keeps hi hr (by have := hi.cursors.i_le_end; omega) (by omega)).moveOf
  | needMore => exact fetchMore_keeps hi hr hl hp
  | reservedBits => exact Kept.takeFatal hi (by rw [hr]; rfl) rfl call
  | maskViolation => exact Kept.takeFatal hi (by rw [hr]; rfl) rfl call
  | oversize => exact Kept.takeFatal hi (by rw [hr]; rfl) rfl call

/-! ### Delivery to the host (R171, R172, 45_facade.md R230) -/

theorem endDelivery_keeps {call : DataCall} {want : Nat} {out : List Byte} (hi : s.Inv)
    (hr : s.reader = .deliver call want out) (out' : List Byte) (st : Status) :
    Kept s (endDelivery call out' st s) := by
  have hri := hi.reader
  simp only [ReaderInv, hr] at hri
  obtain ⟨h1, -, -, h4⟩ := hri
  have hc := hi.cursors
  have hidle : (if st = .ok ∧ s.r.MORE = 0 then RState.betweenFrames else s.r.RSTATE) = .betweenFrames →
      s.r.MORE = 0 := by
    split
    · rename_i h
      exact fun _ => h.2
    · exact h4
  have hclosed : (if st = .ok ∧ s.r.MORE = 0 then RState.betweenFrames else s.r.RSTATE) ≠ .closed := by
    split
    · simp
    · exact h1
  cases call <;>
    exact ⟨hi.of_reader rfl rfl rfl rfl (by rw [hr]; rfl) rfl rfl rfl
      ⟨hc.st_le_i, hc.i_le_end, hc.end_le_size, hc.filled, hc.start_le_i, hc.payload⟩ hidle
      (fun h => absurd h hclosed) hi.cbufWf hi.cbufSize,
      ⟨rfl, rfl, rfl, rfl, rfl, rfl, rfl, rfl, rfl, List.suffix_rfl, List.suffix_cons _ _, List.suffix_rfl⟩⟩

theorem deliverMove_keeps {call : DataCall} {want : Nat} {out : List Byte} (hi : s.Inv)
    (hr : s.reader = .deliver call want out) : (deliverMove call want out s).Keeps s := by
  have hri := hi.reader
  simp only [ReaderInv, hr] at hri
  obtain ⟨h1, h2, h3, h4⟩ := hri
  have hri' : ∀ t, Taken s t [] → ReaderInv t := by
    intro t h
    have := h.more
    simp only [List.length_nil] at this
    simp only [ReaderInv, h.reader, hr, h.RSTATE]
    exact ⟨h1, h2, by omega, fun hb => by have := h4 hb; omega⟩
  have hd := deliverTurn_cases (s := s) (want := want) (got := out.length) hi.cursors hi.size h3
  unfold deliverMove
  revert hd
  cases deliverTurn want out.length s with
  | done => exact fun _ => endDelivery_keeps hi hr _ _
  | octets bs t =>
    rintro ⟨hg, pre, rfl, hl, ht, hc⟩
    have hm := ht.more
    have hlen := length_mask pre s.r.KEY (maskOffset s.r)
    refine ⟨hi.of_reader ht.cfg ht.w ht.writer ht.WLOCK (by rw [hr]; rfl) ht.rWait ht.wWait
      (by show t.RLOCK = _; rw [ht.RLOCK, hi.rlock, hr]; rfl)
      ⟨hc.st_le_i, hc.i_le_end, hc.end_le_size, hc.filled, hc.start_le_i, hc.payload⟩ ?_
      (by show t.r.RSTATE = _ → t.r.RERR.canClose = _; rw [ht.RSTATE, ht.RERR]; exact hi.closedBy)
      (by rw [ht.CBUF]; exact hi.cbufWf) (by rw [ht.CBUF]; exact hi.cbufSize),
      ht.readerFrame.trans ⟨rfl, rfl, rfl, rfl, rfl, rfl, rfl, rfl, rfl, List.suffix_rfl, List.suffix_rfl,
        List.suffix_rfl⟩⟩
    simp only [ReaderInv, ht.RSTATE, List.length_append]
    exact ⟨h1, by omega, by omega, fun hb => by have := h4 hb; omega⟩
  | again t =>
    rintro ⟨-, ht, hc⟩
    exact ⟨hi.of_taken ht hc (hri' t ht), ht.readerFrame⟩
  | waiting t =>
    rintro ⟨-, -, ht, hc⟩
    exact ⟨hi.of_taken ht hc (hri' t ht), ht.readerFrame⟩
  | ended st t =>
    rintro ⟨-, -, ht, hc⟩
    have hk : Kept s t := ⟨hi.of_taken ht hc (hri' t ht), ht.readerFrame⟩
    have he := endDelivery_keeps (call := call) hk.inv (by rw [ht.reader, hr]) out st
    exact ⟨he.inv, hk.frame.trans he.frame⟩
  | halt f => exact fun h => h.elim

/-! ### The reader as a whole -/

theorem readerMove_keeps (hi : s.Inv) : (readerMove s).Keeps s := by
  have hrefl : Kept s s := ⟨hi, ReaderFrame.refl s⟩
  unfold readerMove
  split
  · exact hrefl
  · rename_i hr
    exact fetchMove_keeps hi hr
  · exact controlMove_keeps hi
  · exact controlMove_keeps hi
  · exact controlMove_keeps hi
  · exact controlMove_keeps hi
  · rename_i hr
    exact deliverMove_keeps hi hr

/-- Running a command keeps what its moves keep. -/
theorem runReader_keeps (n : Nat) (hi : s.Inv) : OutcomeKeeps s (runReader n s) := by
  induction n generalizing s with
  | zero => exact ⟨hi, ReaderFrame.refl s⟩
  | succ n ih =>
    have hm := readerMove_keeps hi
    simp only [runReader]
    revert hm
    cases readerMove s with
    | go t => exact fun h => (ih h.inv).trans h.frame
    | wait t => exact fun h => h
    | halt o => exact fun h => Move.Keeps.outcome (m := .halt o) h

end Sys2Proof.Machine
end

