-- ==== Sys2Proof/Laws/Writer.lean ====
section
/-! SUPPORT. What a move of the writer keeps: the composition of a frame, its `TWrite`, and the end of a W-port command
(44_frame_writer.md R200 to R204, R209, R210). -/

namespace Sys2Proof.Machine

variable {s t u : State}

/-- What no move of the writer changes, and what it only extends (20_memory.md R75; 10_state.md R20, R33, R34). -/
structure WriterFrame (s t : State) : Prop where
  cfg : t.cfg = s.cfg
  r : t.r = s.r
  reader : t.reader = s.reader
  RLOCK : t.RLOCK = s.RLOCK
  rWait : t.rWait = s.rWait
  events : t.events = s.events
  rx : t.env.rx = s.env.rx
  cancelFired : t.env.cancelFired = s.env.cancelFired
  wclosed : s.w.WCLOSED = true → t.w.WCLOSED = true
  tclosed : s.w.TCLOSED = true → t.w.TCLOSED = true
  trace : s.trace <:+ t.trace
  responses : s.responses <:+ t.responses

namespace WriterFrame

theorem refl (s : State) : WriterFrame s s :=
  ⟨rfl, rfl, rfl, rfl, rfl, rfl, rfl, rfl, id, id, List.suffix_rfl, List.suffix_rfl⟩

theorem trans (h : WriterFrame s t) (h' : WriterFrame t u) : WriterFrame s u :=
  ⟨h'.cfg.trans h.cfg, h'.r.trans h.r, h'.reader.trans h.reader, h'.RLOCK.trans h.RLOCK, h'.rWait.trans h.rWait,
    h'.events.trans h.events, h'.rx.trans h.rx, h'.cancelFired.trans h.cancelFired,
    fun hw => h'.wclosed (h.wclosed hw), fun hw => h'.tclosed (h.tclosed hw), h.trace.trans h'.trace,
    h.responses.trans h'.responses⟩

end WriterFrame

/-- What a writer's move keeps: the invariant, and the writer's frame. -/
structure WKept (s t : State) : Prop where
  inv : t.Inv
  frame : WriterFrame s t

/-- A writer's move goes on or waits; it never stops the machine. -/
def Move.WKeeps (s : State) : Move → Prop
  | .go t => WKept s t
  | .wait t => WKept s t
  | .halt _ => False

/-- The same of an outcome. -/
def OutcomeWKeeps (s : State) : Outcome → Prop
  | .next t => WKept s t
  | .fault _ => False
  | .refused _ => False

theorem Move.WKeeps.outcome {m : Move} (h : m.WKeeps s) : OutcomeWKeeps s m.outcome := by
  cases m with
  | go t => exact h
  | wait t => exact h
  | halt o => exact h.elim

theorem OutcomeWKeeps.trans {o : Outcome} (h : WriterFrame s t) (h' : OutcomeWKeeps t o) : OutcomeWKeeps s o := by
  cases o with
  | next u => exact ⟨h'.inv, h.trans h'.frame⟩
  | fault f => exact h'
  | refused r => exact h'

/-- The invariant after a move of the writer, while the reader is not writing a Pong. -/
theorem State.Inv.of_writer (hi : s.Inv) (hf : WriterFrame s t) (hwt : s.reader.writing = false)
    (hwW : ∀ i ∈ t.wWait, onWritePort i = true)
    (hwl : t.WLOCK = if t.writer ≠ .idle then some .writer else none) (hwlen : t.writer = .idle → t.w.WLEN = 0)
    (hsend : ∀ call hs len, t.writer = .sending call hs len → t.w.WLEN = hs + len)
    (hcomp : t.w.WBUF.filledBelow t.w.WLEN) (hwb : t.w.WBUF.wf = true) : t.Inv where
  legal := hf.cfg ▸ hi.legal
  cursors := by
    have hc := hi.cursors
    exact ⟨by rw [hf.r]; exact hc.st_le_i, by rw [hf.r]; exact hc.i_le_end, by rw [hf.r, hf.cfg]; exact hc.end_le_size,
      by rw [hf.r]; exact hc.filled, by rw [hf.r]; exact hc.start_le_i, by rw [hf.r]; exact hc.payload⟩
  reader := by
    have := hi.reader
    unfold ReaderInv at this ⊢
    rw [hf.reader, hf.r]
    exact this
  closedBy := by rw [hf.r]; exact hi.closedBy
  rlock := by rw [hf.RLOCK, hf.reader]; exact hi.rlock
  wlock := by rw [hwl, hf.reader, hwt]; simp
  oneWriter := fun _ => by rw [hf.reader, hwt]
  wlen := fun h _ => hwlen h
  sending := hsend
  composed := hcomp
  wbufWf := hwb
  cbufWf := by rw [hf.r]; exact hi.cbufWf
  cbufSize := by rw [hf.r]; exact hi.cbufSize
  rWait := by rw [hf.rWait]; exact hi.rWait
  wWait := hwW

/-- The end of a W-port command, with `WLEN = 0` (R204). -/
theorem endWrite_keeps (hi : s.Inv) (hwt : s.reader.writing = false) (hl : s.w.WLEN = 0) (code : Byte)
    (result : Result) : WKept s (endWrite code result s) := by
  have hf : WriterFrame s (endWrite code result s) :=
    ⟨rfl, rfl, rfl, rfl, rfl, rfl, rfl, rfl, id, id, List.suffix_rfl, List.suffix_cons _ _⟩
  exact ⟨hi.of_writer hf hwt hi.wWait rfl (fun _ => hl) (fun _ _ _ h => absurd h (by simp)) hi.composed hi.wbufWf, hf⟩

/-- The end of `Close`, with `WLEN = 0` (R210). -/
theorem closeTransport_keeps (hi : s.Inv) (hwt : s.reader.writing = false) (hl : s.w.WLEN = 0) :
    WKept s (closeTransport s) := by
  unfold closeTransport
  split
  · exact endWrite_keeps hi hwt hl _ _
  · obtain ⟨a, env, he, hrx, -, hcf⟩ := tClose_eq { s with w := { s.w with TCLOSED := true } }
    simp only [he]
    have hf : WriterFrame s (endWrite 0x13 (.status (closeTransportStatus a))
        { s with w := { s.w with TCLOSED := true }, env := env, trace := Transaction.close a :: s.trace }) :=
      ⟨rfl, rfl, rfl, rfl, rfl, rfl, hrx, hcf, id, fun _ => rfl, List.suffix_cons _ _, List.suffix_cons _ _⟩
    exact ⟨hi.of_writer hf hwt hi.wWait rfl (fun _ => hl) (fun _ _ _ h => absurd h (by simp)) hi.composed hi.wbufWf, hf⟩

theorem writerMove_keeps (hi : s.Inv) : (writerMove s).WKeeps s := by
  unfold writerMove
  cases hw : s.writer with
  | idle => exact ⟨hi, WriterFrame.refl s⟩
  | sending call hs len =>
    have hne : s.writer ≠ .idle := by simp [hw]
    have hwt := hi.oneWriter hne
    obtain ⟨frame, hfr⟩ := readBytes_isSome (m := s.w.WBUF) (a := 0) (n := s.w.WLEN) fun k hk => by
      rw [Nat.zero_add]
      exact hi.composed k hk
    simp only [hfr]
    cases htw : tWrite frame s with
    | none => exact ⟨hi, WriterFrame.refl s⟩
    | some x =>
      obtain ⟨tn, ts, s1⟩ := x
      obtain ⟨-, left, rfl⟩ := tWrite_some htw
      -- the state after the write, its writer put to rest
      have hf0 : WriterFrame s { s with
          w := { s.w with WLEN := 0 }, WLOCK := none, writer := .idle, env := { s.env with tx := left }
          trace := .write frame tn ts :: s.trace } :=
        ⟨rfl, rfl, rfl, rfl, rfl, rfl, rfl, rfl, id, id, List.suffix_cons _ _, List.suffix_rfl⟩
      have hi0 := hi.of_writer hf0 hwt hi.wWait rfl (fun _ => rfl) (fun _ _ _ h => absurd h (by simp))
        (fun a ha => absurd ha (Nat.not_lt_zero a)) hi.wbufWf
      have hk0 : ∀ code result, WKept s (endWrite code result { s with
          w := { s.w with WLEN := 0 }, WLOCK := none, writer := .idle, env := { s.env with tx := left }
          trace := .write frame tn ts :: s.trace }) := fun code result =>
        have h := endWrite_keeps hi0 hwt rfl code result
        ⟨h.inv, hf0.trans h.frame⟩
      simp only [Move.WKeeps, endSend]
      cases call with
      | writeFrame => exact hk0 _ _
      | write => exact hk0 _ _
      | closeWriter => exact hk0 _ _
      | closeConn =>
        have h := closeTransport_keeps hi0 hwt rfl
        have e : closeTransport { s with
            w := { s.w with WLEN := 0 }, env := { s.env with tx := left }, trace := .write frame tn ts :: s.trace } =
            closeTransport { s with
              w := { s.w with WLEN := 0 }, WLOCK := none, writer := .idle, env := { s.env with tx := left }
              trace := .write frame tn ts :: s.trace } := by
          unfold closeTransport tClose
          split
          · rfl
          · cases s.env.closes <;> rfl
        show WKept s (closeTransport _)
        rw [e]
        exact ⟨h.inv, hf0.trans h.frame⟩

/-- `sendFrame` with the write lock free (R201). -/
theorem sendFrame_keeps (hi : s.Inv) (hl : s.WLOCK = none) (call : WriteCall) (payload : List Byte) (op : BitVec 4)
    (final : Bool) : OutcomeWKeeps s (sendFrame call payload op final s) := by
  have hwi : s.writer = .idle ∧ s.reader.writing = false := by
    have := hi.wlock
    rw [hl] at this
    split at this
    · cases this
    · rename_i h
      split at this
      · cases this
      · rename_i h'
        exact ⟨by simpa using h, by simpa using h'⟩
  obtain ⟨key, env, he, hbl, hrx, -, -, hcf⟩ := composeFrame_eq payload op final s
  simp only [sendFrame, he]
  set s1 : State := { s with
    w := { s.w with
      WBUF := s.w.WBUF.writeBytes 0 (frameHeader s.cfg.role key payload op final ++ framePayload s.cfg.role key payload)
      WLEN := (frameHeader s.cfg.role key payload op final).length + payload.length }
    env := env, WLOCK := some .writer
    writer := .sending call (frameHeader s.cfg.role key payload op final).length payload.length } with hs1
  have hf : WriterFrame s s1 :=
    ⟨rfl, rfl, rfl, rfl, rfl, rfl, hrx, hcf, id, id, List.suffix_rfl, List.suffix_rfl⟩
  have hi1 : s1.Inv := hi.of_writer hf hwi.2 hi.wWait rfl (fun h => absurd h (by simp [hs1]))
    (fun _ _ _ h => by simp only [hs1] at h ⊢; injection h with _ h2 h3; omega)
    (by
      simp only [hs1]
      rw [← hbl, ← List.length_append]
      exact readable_writeBytes _ _)
    (writeBytes_wf hi.wbufWf _ _)
  exact OutcomeWKeeps.trans hf (writerMove_keeps hi1).outcome

end Sys2Proof.Machine
end

