-- ==== Sys2Proof/Laws/Exec.lean ====
section
/-! SUPPORT. What the commands of the R port and of the W port keep, the frames' meanings as the dispatch calls them, and
which instructions a port can hold. -/

namespace Sys2Proof.Machine

variable {s t : State}

/-! ### Frames and commands -/

/-- The received frames among the instructions (30_encoding.md R96). -/
def isFrame : Instr → Bool
  | .cont _ => true
  | .text _ => true
  | .bin _ => true
  | .rsvd3 _ => true
  | .rsvd4 _ => true
  | .rsvd5 _ => true
  | .rsvd6 _ => true
  | .rsvd7 _ => true
  | .close _ => true
  | .ping _ => true
  | .pong _ => true
  | .rsvdB _ => true
  | .rsvdC _ => true
  | .rsvdD _ => true
  | .rsvdE _ => true
  | .rsvdF _ => true
  | _ => false

theorem isFrame_ofWire (op : BitVec 4) (h : Head) : isFrame (Instr.ofWire op h) = true := by
  unfold Instr.ofWire
  split <;> rfl

/-- The dispatch of an opcode is the meaning of that opcode's frame (43_frame_reader.md R163). -/
theorem exec_ofWire (op : BitVec 4) (h : Head) (s : State) :
    exec (Instr.ofWire op h) s = dispatchOpcode op h s := by
  unfold Instr.ofWire dispatchOpcode
  have := op.isLt
  generalize op.toNat = n at *
  interval_cases n <;> rfl

theorem isFrame_of_onReadPort {i : Instr} (h : onReadPort i = true) : isFrame i = false := by
  cases i <;> first | rfl | cases h

theorem isFrame_of_onWritePort {i : Instr} (h : onWritePort i = true) : isFrame i = false := by
  cases i <;> first | rfl | cases h

/-- No command code decodes to a frame (30_encoding.md R104). -/
theorem isFrame_of_decodeCommand {c : Command} {i : Instr} (h : decodeCommand c = some i) : isFrame i = false := by
  unfold decodeCommand at h
  simp only at h
  split at h <;> first | (injection h with h; subst h; rfl) | cases h

/-! ### Quiet changes -/

/-- The invariant reads neither the inputs nor the observations. -/
theorem State.Inv.of_quiet (hi : s.Inv) (hcfg : t.cfg = s.cfg) (hr : t.r = s.r) (hw : t.w = s.w)
    (hRL : t.RLOCK = s.RLOCK) (hWL : t.WLOCK = s.WLOCK) (hrd : t.reader = s.reader) (hwr : t.writer = s.writer)
    (hrW : ∀ i ∈ t.rWait, onReadPort i = true) (hwW : ∀ i ∈ t.wWait, onWritePort i = true) : t.Inv where
  legal := hcfg ▸ hi.legal
  cursors := by
    have hc := hi.cursors
    exact ⟨by rw [hr]; exact hc.st_le_i, by rw [hr]; exact hc.i_le_end, by rw [hr, hcfg]; exact hc.end_le_size,
      by rw [hr]; exact hc.filled, by rw [hr]; exact hc.start_le_i, by rw [hr]; exact hc.payload⟩
  reader := by
    have := hi.reader
    unfold ReaderInv at this ⊢
    rw [hrd, hr]
    exact this
  closedBy := by rw [hr]; exact hi.closedBy
  rlock := by rw [hRL, hrd]; exact hi.rlock
  wlock := by rw [hWL, hrd, hwr]; exact hi.wlock
  oneWriter := by rw [hrd, hwr]; exact hi.oneWriter
  wlen := by rw [hrd, hwr, hcfg, hw]; exact hi.wlen
  sending := by rw [hwr, hw]; exact hi.sending
  composed := by rw [hw]; exact hi.composed
  wbufWf := by rw [hw]; exact hi.wbufWf
  cbufWf := by rw [hr]; exact hi.cbufWf
  cbufSize := by rw [hr]; exact hi.cbufSize
  rWait := hrW
  wWait := hwW

theorem respond_keeps (hi : s.Inv) (code : Byte) (result : Result) : Kept s (respond code result s) :=
  ⟨hi.of_quiet rfl rfl rfl rfl rfl rfl rfl hi.rWait hi.wWait,
    ⟨rfl, rfl, rfl, rfl, rfl, rfl, rfl, rfl, rfl, List.suffix_rfl, List.suffix_cons _ _, List.suffix_rfl⟩⟩

theorem respond_wkeeps (hi : s.Inv) (code : Byte) (result : Result) : WKept s (respond code result s) :=
  ⟨(respond_keeps hi code result).inv,
    ⟨rfl, rfl, rfl, rfl, rfl, rfl, rfl, rfl, id, id, List.suffix_rfl, List.suffix_cons _ _⟩⟩

/-! ### The locks (20_memory.md R76) -/

theorem acquireRead_free {i : Instr} {k : State → Outcome} (h : s.RLOCK = none) : acquireRead i s k = k s := by
  simp only [acquireRead, h]

theorem acquireRead_held {i : Instr} {k : State → Outcome} {a : Agent} (h : s.RLOCK = some a) :
    acquireRead i s k = .next { s with rWait := s.rWait ++ [i] } := by
  simp only [acquireRead, h]

theorem acquireWrite_free {i : Instr} {k : State → Outcome} (h : s.WLOCK = none) : acquireWrite i s k = k s := by
  simp only [acquireWrite, h]

theorem acquireWrite_held {i : Instr} {k : State → Outcome} {a : Agent} (h : s.WLOCK = some a) :
    acquireWrite i s k = .next { s with wWait := s.wWait ++ [i] } := by
  simp only [acquireWrite, h]

/-- With `RLOCK` free no R-port command runs (10_state.md R36). -/
theorem State.Inv.reader_idle (hi : s.Inv) (h : s.RLOCK = none) : s.reader = .idle := by
  have := hi.rlock
  rw [h] at this
  split at this
  · assumption
  · cases this

/-- With `WLOCK` free no W-port command runs and no Pong is being written (10_state.md R36). -/
theorem State.Inv.writer_idle (hi : s.Inv) (h : s.WLOCK = none) :
    s.writer = .idle ∧ s.reader.writing = false := by
  have := hi.wlock
  rw [h] at this
  split at this
  · cases this
  · rename_i hw
    split at this
    · cases this
    · rename_i hr
      exact ⟨by simpa using hw, by simpa using hr⟩

/-! ### The R port -/

theorem beginFetch_inv (hi : s.Inv) (hl : s.RLOCK = none) (hm : s.r.MORE = 0) (hc : s.r.RSTATE ≠ .closed)
    (call : HeaderCall) : (beginFetch call { s with RLOCK := some .reader }).Inv := by
  have h := hi.cursors
  exact hi.of_reader rfl rfl rfl rfl (by rw [hi.reader_idle hl]; rfl) rfl rfl rfl
    ⟨le_rfl, h.i_le_end, h.end_le_size, h.filled, h.start_le_i, h.payload⟩ ⟨hc, hm, rfl⟩ hi.closedBy hi.cbufWf
    hi.cbufSize

theorem beginDeliver_inv (hi : s.Inv) (hl : s.RLOCK = none) (hc : s.r.RSTATE ≠ .closed) (call : DataCall) (n : Nat) :
    ({ s with RLOCK := some .reader, reader := .deliver call (deliveryWant n s.r.MORE) [] } : State).Inv := by
  have h := hi.cursors
  have hr := hi.reader
  simp only [ReaderInv, hi.reader_idle hl] at hr
  refine hi.of_reader rfl rfl rfl rfl (by rw [hi.reader_idle hl]; rfl) rfl rfl rfl
    ⟨h.st_le_i, h.i_le_end, h.end_le_size, h.filled, h.start_le_i, h.payload⟩
    ⟨hc, Nat.zero_le _, ?_, hr⟩ hi.closedBy hi.cbufWf hi.cbufSize
  show min n s.r.MORE - 0 ≤ s.r.MORE
  omega

/-- Taking `RLOCK` and a place in a command changes nothing that the reader keeps. -/
theorem begun_frame (s : State) (lock : Option Agent) (place : RUnit) (st : Nat) :
    ReaderFrame s { s with RLOCK := lock, reader := place, r := { s.r with ST := st } } :=
  ⟨rfl, rfl, rfl, rfl, rfl, rfl, rfl, rfl, rfl, List.suffix_rfl, List.suffix_rfl, List.suffix_rfl⟩

theorem headerCommand_keeps (hi : s.Inv) (hl : s.RLOCK = none) (i : Instr) (call : HeaderCall) :
    OutcomeKeeps s (headerCommand i call s) := by
  rw [headerCommand, acquireRead_free hl]
  split
  · exact respond_keeps hi _ _
  · split
    · exact respond_keeps hi _ _
    · exact OutcomeKeeps.trans (begun_frame s _ _ _) (runReader_keeps _ (beginFetch_inv hi hl (by omega) (by assumption) call))

theorem execAppendFrame_keeps (hi : s.Inv) (hl : s.RLOCK = none) (n : Nat) :
    OutcomeKeeps s (execAppendFrame n s) := by
  rw [execAppendFrame, acquireRead_free hl]
  split
  · exact respond_keeps hi _ _
  · exact OutcomeKeeps.trans (begun_frame s _ _ _) (runReader_keeps _ (beginDeliver_inv hi hl (by assumption) _ n))

theorem execRead_keeps (hi : s.Inv) (hl : s.RLOCK = none) (n : Nat) : OutcomeKeeps s (execRead n s) := by
  rw [execRead, acquireRead_free hl]
  split
  · exact respond_keeps hi _ _
  · split
    · exact OutcomeKeeps.trans (begun_frame s _ _ _)
        (runReader_keeps _ (beginFetch_inv hi hl (by assumption) (by assumption) (.read n)))
    · exact OutcomeKeeps.trans (begun_frame s _ _ _) (runReader_keeps _ (beginDeliver_inv hi hl (by assumption) _ n))

/-! ### Going on after a frame (20_memory.md R78) -/

@[simp] theorem continueReader_next (s : State) : continueReader (.next s) = runReader (moveBound s) s := rfl
@[simp] theorem continueReader_fault (f : Fault) : continueReader (.fault f) = .fault f := rfl
@[simp] theorem continueReader_refused (r : Refusal) : continueReader (.refused r) = .refused r := rfl

/-- What a frame's meaning keeps, its command keeps as far as it goes on. -/
theorem continueReader_keeps {o : Outcome} (h : OutcomeKeeps s o) : OutcomeKeeps s (continueReader o) := by
  cases o with
  | next t => exact OutcomeKeeps.trans h.frame (runReader_keeps _ h.inv)
  | fault f => exact h
  | refused r => exact h.elim

/-! ### The W port -/

/-- Setting `WCLOSED` (44_frame_writer.md R209, R210). -/
theorem setWclosed_inv (hi : s.Inv) : ({ s with w := { s.w with WCLOSED := true } } : State).Inv := by
  have hc := hi.cursors
  exact ⟨hi.legal, ⟨hc.st_le_i, hc.i_le_end, hc.end_le_size, hc.filled, hc.start_le_i, hc.payload⟩, hi.reader,
    hi.closedBy, hi.rlock, hi.wlock, hi.oneWriter, hi.wlen, hi.sending, hi.composed, hi.wbufWf, hi.cbufWf, hi.cbufSize,
    hi.rWait, hi.wWait⟩

theorem setWclosed_frame (s : State) : WriterFrame s { s with w := { s.w with WCLOSED := true } } :=
  ⟨rfl, rfl, rfl, rfl, rfl, rfl, rfl, rfl, fun _ => rfl, id, List.suffix_rfl, List.suffix_rfl⟩

theorem writeCommand_keeps (hi : s.Inv) (hl : s.WLOCK = none) (i : Instr) (call : WriteCall) (payload : List Byte)
    (op : BitVec 4) (final : Bool) : OutcomeWKeeps s (writeCommand i call payload op final s) := by
  rw [writeCommand]
  split
  · exact respond_wkeeps hi _ _
  · rw [acquireWrite_free hl]
    exact sendFrame_keeps hi hl _ _ _ _

theorem execCloseWriter_keeps (hi : s.Inv) (hl : s.WLOCK = none) (status : BitVec 16) :
    OutcomeWKeeps s (execCloseWriter status s) := by
  rw [execCloseWriter, acquireWrite_free hl]
  split
  · exact respond_wkeeps hi _ _
  · exact OutcomeWKeeps.trans (setWclosed_frame s) (sendFrame_keeps (setWclosed_inv hi) hl _ _ _ _)

theorem execCloseConn_keeps (hi : s.Inv) (hl : s.WLOCK = none) : OutcomeWKeeps s (execCloseConn s) := by
  rw [execCloseConn, acquireWrite_free hl]
  have hw := hi.writer_idle hl
  split
  · exact closeTransport_keeps hi hw.2 (hi.wlen hw.1 (by simp [hw.2]))
  · exact OutcomeWKeeps.trans (setWclosed_frame s) (sendFrame_keeps (setWclosed_inv hi) hl _ _ _ _)

end Sys2Proof.Machine
end

