-- ==== Sys2Proof/Laws/PerInstr.lean ====
section
/-! SUPPORT. Facts about every instruction, one lemma per constructor. `TableRow`: the first word of an instruction's
encoding matches its row of opcode_table.json under the row's mask (30_encoding.md R96, R104). -/

namespace Sys2Proof.Laws

/-- The first word of an encoding: a frame's base header `H`, or a command's code. -/
def firstWord : Code → BitVec 16
  | .frame (b0 :: b1 :: _) => b0 ++ b1
  | .frame _ => 0
  | .command c => c.code.zeroExtend 16

/-- The mask and the match value of each row of opcode_table.json. -/
def rowOf : Instr → BitVec 16 × BitVec 16
  | .cont _ => (0x0F00, 0x0000)
  | .text _ => (0x0F00, 0x0100)
  | .bin _ => (0x0F00, 0x0200)
  | .rsvd3 _ => (0x0F00, 0x0300)
  | .rsvd4 _ => (0x0F00, 0x0400)
  | .rsvd5 _ => (0x0F00, 0x0500)
  | .rsvd6 _ => (0x0F00, 0x0600)
  | .rsvd7 _ => (0x0F00, 0x0700)
  | .close _ => (0x0F00, 0x0800)
  | .ping _ => (0x0F00, 0x0900)
  | .pong _ => (0x0F00, 0x0A00)
  | .rsvdB _ => (0x0F00, 0x0B00)
  | .rsvdC _ => (0x0F00, 0x0C00)
  | .rsvdD _ => (0x0F00, 0x0D00)
  | .rsvdE _ => (0x0F00, 0x0E00)
  | .rsvdF _ => (0x0F00, 0x0F00)
  | .readFrameHeader => (0xFF, 0x01)
  | .readRawFrameHeader => (0xFF, 0x02)
  | .appendFrame _ => (0xFF, 0x03)
  | .read _ => (0xFF, 0x04)
  | .writeFrame _ _ _ => (0xFF, 0x10)
  | .write _ => (0xFF, 0x11)
  | .closeWriter _ => (0xFF, 0x12)
  | .closeConn => (0xFF, 0x13)
  | .parseHeader _ _ => (0xFF, 0x20)
  | .parseLength _ _ _ => (0xFF, 0x21)
  | .readMask _ _ _ => (0xFF, 0x22)
  | .encodeHeader _ _ _ _ _ => (0xFF, 0x23)
  | .mask _ _ _ => (0xFF, 0x24)

/-- The instruction's first word matches its row. -/
def TableRow.Statement (i : Instr) : Prop := firstWord (encode i) &&& (rowOf i).1 = (rowOf i).2

/-- Under the mask 0x0F00 a frame's base header is its opcode. -/
theorem firstWord_octets (h : Head) (op : BitVec 4) :
    firstWord (.frame (h.octets op)) &&& 0x0F00 = op.zeroExtend 16 <<< 8 := by
  show h.bits op &&& 0x0F00 = op.zeroExtend 16 <<< 8
  apply BitVec.eq_of_getLsbD_eq
  intro i hi
  rw [BitVec.getLsbD_and, bits_getLsbD]
  interval_cases i <;> simp

/-- A command's word is its code. -/
theorem firstWord_code (code : Byte) (operands : Operands) :
    firstWord (.command ⟨code, operands⟩) &&& 0xFF = code.zeroExtend 16 := by
  show code.zeroExtend 16 &&& 0xFF = code.zeroExtend 16
  apply BitVec.eq_of_getLsbD_eq
  intro i hi
  rw [BitVec.getLsbD_and]
  interval_cases i <;> simp

namespace TableRow

theorem cont (h : Head) : Statement (.cont h) := firstWord_octets h 0
theorem text (h : Head) : Statement (.text h) := firstWord_octets h 1
theorem bin (h : Head) : Statement (.bin h) := firstWord_octets h 2
theorem rsvd3 (h : Head) : Statement (.rsvd3 h) := firstWord_octets h 3
theorem rsvd4 (h : Head) : Statement (.rsvd4 h) := firstWord_octets h 4
theorem rsvd5 (h : Head) : Statement (.rsvd5 h) := firstWord_octets h 5
theorem rsvd6 (h : Head) : Statement (.rsvd6 h) := firstWord_octets h 6
theorem rsvd7 (h : Head) : Statement (.rsvd7 h) := firstWord_octets h 7
theorem close (h : Head) : Statement (.close h) := firstWord_octets h 8
theorem ping (h : Head) : Statement (.ping h) := firstWord_octets h 9
theorem pong (h : Head) : Statement (.pong h) := firstWord_octets h 10
theorem rsvdB (h : Head) : Statement (.rsvdB h) := firstWord_octets h 11
theorem rsvdC (h : Head) : Statement (.rsvdC h) := firstWord_octets h 12
theorem rsvdD (h : Head) : Statement (.rsvdD h) := firstWord_octets h 13
theorem rsvdE (h : Head) : Statement (.rsvdE h) := firstWord_octets h 14
theorem rsvdF (h : Head) : Statement (.rsvdF h) := firstWord_octets h 15
theorem readFrameHeader : Statement .readFrameHeader := firstWord_code 0x01 _
theorem readRawFrameHeader : Statement .readRawFrameHeader := firstWord_code 0x02 _
theorem appendFrame (n : Nat) : Statement (.appendFrame n) := firstWord_code 0x03 _
theorem read (n : Nat) : Statement (.read n) := firstWord_code 0x04 _
theorem writeFrame (payload : List Byte) (op : BitVec 4) (final : Bool) :
    Statement (.writeFrame payload op final) := firstWord_code 0x10 _
theorem write (payload : List Byte) : Statement (.write payload) := firstWord_code 0x11 _
theorem closeWriter (status : BitVec 16) : Statement (.closeWriter status) := firstWord_code 0x12 _
theorem closeConn : Statement .closeConn := firstWord_code 0x13 _
theorem parseHeader (buf : List Byte) (st : Nat) : Statement (.parseHeader buf st) := firstWord_code 0x20 _
theorem parseLength (bits : BitVec 16) (buf : List Byte) (i : Nat) : Statement (.parseLength bits buf i) := firstWord_code 0x21 _
theorem readMask (bits : BitVec 16) (buf : List Byte) (i : Nat) : Statement (.readMask bits buf i) := firstWord_code 0x22 _
theorem encodeHeader (op : BitVec 4) (fin masked : Bool) (key : Key) (payloadLen : BitVec 62) :
    Statement (.encodeHeader op fin masked key payloadLen) := firstWord_code 0x23 _
theorem mask (buf : List Byte) (key : Key) (offset : Nat) : Statement (.mask buf key offset) := firstWord_code 0x24 _

end TableRow

end Sys2Proof.Laws
end

