-- ==== Sys2Proof/Laws/Progress.lean ====
section
/-! SUPPORT. Every move of the reader that goes on uses up something: octets in the buffer, answers of the transport, or
a phase of the command. So the bound on moves never cuts a command short (log entry 11). -/

namespace Sys2Proof.Machine

variable {s t : State}

/-- What is left of a command beside octets and answers. -/
def phaseWork : RUnit → Nat
  | .idle => 0
  | .header _ .fetch => 1
  | .header _ .ping => 3
  | .header _ .pongWrite => 2
  | .header _ .skip => 2
  | .header _ (.close _ _) => 2
  | .deliver _ _ _ => 1

/-- The measure that every move decreases. -/
def work (s : State) : Nat := 2 * (s.r.END - s.r.I) + 3 * readyOctets s.env.rx + phaseWork s.reader

/-- A `TRead` with room uses up at least one answer or octet. -/
theorem tRead_ready {cap : Nat} {d : List Byte} {st : ReadStatus} (h : tRead cap s = some (d, st, t)) (hc : 0 < cap) :
    readyOctets t.env.rx + max 1 d.length ≤ readyOctets s.env.rx := by
  unfold tRead at h
  split at h
  · cases h
  · rename_i c rest hrx
    cases h
    rw [hrx]
    split
    · rename_i hl
      rw [List.take_of_length_le hl]
      simp only [logTransaction, readyOctets]
      omega
    · simp only [logTransaction, readyOctets, List.length_drop, List.length_take]
      omega
  all_goals
    rename_i hrx
    cases h
    rw [hrx]
    simp only [logTransaction, readyOctets, List.length_nil]
    omega

theorem readOnce_work {n : Nat} {st : ReadStatus} (hi : CursorInv s) (h : readOnce s = some (n, st, t))
    (hc : s.r.END < s.cfg.rbufSize) : work t < work s := by
  unfold readOnce at h
  split at h
  · cases h
  · rename_i d st' s' hr
    have h1 := tRead_ready hr (by omega)
    obtain ⟨-, -, left, rfl, -⟩ := tRead_some hr
    cases h
    have := hi.i_le_end
    simp only [work] at h1 ⊢
    omega

theorem fill_work (h : fill s = some t) : work t = work s := by
  obtain ⟨rfl, -⟩ := fill_some h
  unfold work
  by_cases hI : s.r.I ≥ s.r.END / 2
  · simp [hI, slideFromI]
  · simp [hI]

/-- One turn of `deliver` uses up octets or answers, except at its end. -/
theorem deliverTurn_work {want got : Nat} (hi : CursorInv s) :
    match deliverTurn want got s with
    | .done => True
    | .octets _ t => work t < work s
    | .again t => work t < work s
    | .waiting t => work t = work s
    | .ended _ t => work t < work s
    | .halt _ => True := by
  unfold deliverTurn
  by_cases hg : got ≥ want
  · simp only [hg, if_true]
  simp only [hg, if_false]
  by_cases hI : s.r.I < s.r.END
  · simp only [hI, if_true]
    cases hb : s.r.RBUF.readBytes s.r.I (min (want - got) (s.r.END - s.r.I)) with
    | none => trivial
    | some bs =>
      simp only [work]
      omega
  simp only [hI, if_false]
  by_cases hd : want - got ≥ s.cfg.rbufSize - directMargin
  · simp only [hd, if_true]
    cases hr : tRead (want - got) s with
    | none => rfl
    | some x =>
      obtain ⟨d, st, t⟩ := x
      have h1 := tRead_ready hr (by omega)
      obtain ⟨-, -, left, rfl, -⟩ := tRead_some hr
      by_cases hst : st = .ok <;> simp only [hst, if_true, if_false, work] at h1 ⊢ <;> omega
  · simp only [hd, if_false]
    cases hf : fill s with
    | none => trivial
    | some s1 =>
      obtain ⟨hfc, hlt⟩ := fill_cursorInv hi hf
      have hw := fill_work hf
      simp only
      cases hr : readOnce s1 with
      | none => exact hw
      | some x =>
        obtain ⟨n, st, t⟩ := x
        have h2 := readOnce_work hfc hr hlt
        by_cases hst : st = .ok <;> simp only [hst, if_true, if_false] <;> omega

/-- A move that goes on leaves less work. -/
def Move.Works (s : State) : Move → Prop
  | .go t => work t < work s
  | .wait t => work t = work s
  | .halt _ => True

theorem takeFatal_work (call : HeaderCall) (k : Status) (h : t.reader ≠ .idle) (hw : work t ≤ work s) :
    work (takeFatal call k t) < work s := by
  have : 0 < phaseWork t.reader := by
    cases hr : t.reader with
    | idle => exact absurd hr h
    | header _ p => cases p <;> simp [phaseWork]
    | deliver _ _ _ => simp [phaseWork]
  have h0 : phaseWork .idle = 0 := rfl
  simp only [work, takeFatal_r, takeFatal_env, takeFatal_reader, h0] at hw ⊢
  omega

theorem skipMove_works {call : HeaderCall} (hi : CursorInv s) (hr : s.reader = .header call .skip) :
    (skipMove call s).Works s := by
  unfold skipMove
  split
  · simp [Move.Works, work, hr, phaseWork, beginFetch]
  · split
    · simp only [Move.Works, work]
      omega
    · cases hf : fill s with
      | none => trivial
      | some s1 =>
        obtain ⟨hfc, hlt⟩ := fill_cursorInv hi hf
        have hw := fill_work hf
        simp only
        cases hrd : readOnce s1 with
        | none => exact hw
        | some x =>
          obtain ⟨n, st, t⟩ := x
          have h2 := readOnce_work hfc hrd hlt
          have ht := (fill_taken hi hf).trans (readOnce_taken hfc hrd)
          simp only
          split
          · simp only [Move.Works]
            omega
          · exact takeFatal_work call _ (by simp [ht.reader, hr]) (by omega)

theorem endClose_works {call : HeaderCall} {got : Nat} (h : t.reader ≠ .idle) (hw : work t ≤ work s) :
    (endClose call got t).Works s := by
  unfold endClose
  split
  · trivial
  · exact takeFatal_work call _ h hw

theorem closeMove_works {call : HeaderCall} {want got : Nat} (hi : CursorInv s) (hsize : 32 ≤ s.cfg.rbufSize)
    (hm : want - got ≤ s.r.MORE) (hr : s.reader = .header call (.close want got)) :
    (closeMove call want got s).Works s := by
  have hd := deliverTurn_work (want := want) (got := got) hi
  have hc := deliverTurn_cases (want := want) (got := got) hi hsize hm
  unfold closeMove
  revert hd hc
  cases deliverTurn want got s with
  | done => exact fun _ _ => endClose_works (by simp [hr]) le_rfl
  | octets bs t =>
    rintro hd ⟨-, pre, -, -, ht, -⟩
    have := ht.reader
    simp only [Move.Works, work, this, hr, phaseWork] at hd ⊢
    omega
  | again t => exact fun hd _ => hd
  | waiting t => exact fun hd _ => hd
  | ended st t =>
    rintro hd ⟨-, -, ht, -⟩
    have hne : t.reader ≠ .idle := by simp [ht.reader, hr]
    simp only
    split
    · exact endClose_works hne (le_of_lt hd)
    · exact takeFatal_work call _ hne (le_of_lt hd)
  | halt f => exact fun _ _ => trivial

theorem deliverMove_works {call : DataCall} {want : Nat} {out : List Byte} (hi : CursorInv s)
    (hsize : 32 ≤ s.cfg.rbufSize) (hm : want - out.length ≤ s.r.MORE) (hr : s.reader = .deliver call want out) :
    (deliverMove call want out s).Works s := by
  have hd := deliverTurn_work (want := want) (got := out.length) hi
  have hc := deliverTurn_cases (want := want) (got := out.length) hi hsize hm
  have hend : ∀ st t, t.reader = s.reader → work t ≤ work s → work (endDelivery call out st t) < work s := by
    intro st t h hw
    simp only [work, h, hr, phaseWork] at hw
    cases call <;> simp only [work, endDelivery, endRead_r, endRead_env, endRead_reader, phaseWork, hr] <;> omega
  unfold deliverMove
  revert hd hc
  cases deliverTurn want out.length s with
  | done => exact fun _ _ => hend _ _ rfl le_rfl
  | octets bs t =>
    rintro hd ⟨-, pre, -, -, ht, -⟩
    have := ht.reader
    simp only [Move.Works, work, this, hr, phaseWork] at hd ⊢
    omega
  | again t => exact fun hd _ => hd
  | waiting t => exact fun hd _ => hd
  | ended st t => exact fun hd hc => hend _ _ hc.2.2.1.reader (le_of_lt hd)
  | halt f => exact fun _ _ => trivial

theorem pongCompose_works {call : HeaderCall} (hr : s.reader = .header call .ping) :
    (pongCompose call s).Works s := by
  unfold pongCompose
  split
  · rfl
  · split
    · split
      · trivial
      · simp [Move.Works, work, hr, phaseWork]
    · split
      · trivial
      · rename_i bs _
        obtain ⟨key, env, he, -, hrx, -⟩ := composeFrame_eq (mask bs s.r.KEY 0) 10 true s
        simp only [Move.Works, work, he, hrx, hr, phaseWork]
        omega

theorem pingMove_works {call : HeaderCall} (hi : CursorInv s) (hr : s.reader = .header call .ping) :
    (pingMove call s).Works s := by
  unfold pingMove
  split
  · trivial
  · split
    · rename_i hfit hend
      set s1 := if frameEnd s.r > s.cfg.rbufSize then compactFromST s else s with hs1
      have h1 : Taken s s1 [] ∧ CursorInv s1 ∧ work s1 = work s ∧ s1.r.END < s1.cfg.rbufSize := by
        have := hi.st_le_i
        have := hi.i_le_end
        have := hi.end_le_size
        rw [hs1]
        split
        · refine ⟨compactFromST_taken hi, compactFromST_cursorInv hi, ?_, ?_⟩
          · simp only [work, compactFromST_r, compactFromST_env, compactFromST_reader]
            omega
          · simp only [compactFromST_r, compactFromST_cfg]
            omega
        · exact ⟨Taken.refl s, hi, rfl, by omega⟩
      obtain ⟨ht, hc1, hw, hlt⟩ := h1
      simp only
      cases hrd : readOnce s1 with
      | none => exact hw
      | some x =>
        obtain ⟨n, st, t⟩ := x
        have h2 := readOnce_work hc1 hrd hlt
        have ht2 := ht.trans (readOnce_taken hc1 hrd)
        simp only
        split
        · simp only [Move.Works]
          omega
        · exact takeFatal_work call _ (by simp [ht2.reader, hr]) (by omega)
    · exact pongCompose_works hr

theorem pongMove_works {call : HeaderCall} (hr : s.reader = .header call .pongWrite) :
    (pongMove call s).Works s := by
  unfold pongMove
  split
  · trivial
  · rename_i frame hfr
    cases htw : tWrite frame s with
    | none => rfl
    | some x =>
      obtain ⟨tn, ts, t⟩ := x
      obtain ⟨-, left, rfl⟩ := tWrite_some htw
      simp only
      split
      · simp only [Move.Works, work, beginFetch_r, beginFetch_env, beginFetch_reader, hr, phaseWork, frameEnd]
        omega
      · simp only [Move.Works, work, takeFatal_r, takeFatal_env, takeFatal_reader, hr, phaseWork]
        omega

theorem controlMove_works (hi : s.Inv) : (controlMove s).Works s := by
  have hri := hi.reader
  unfold controlMove
  split
  · rfl
  · rfl
  · rfl
  · rename_i hr
    exact pingMove_works hi.cursors hr
  · rename_i hr
    exact pongMove_works hr
  · rename_i hr
    exact skipMove_works hi.cursors hr
  · rename_i hr
    simp only [ReaderInv, hr] at hri
    exact closeMove_works hi.cursors hi.size hri.2.2.2.2.1 hr

theorem runControl_works (n : Nat) (hi : s.Inv) (h : runControl n s = .next t) : work t ≤ work s := by
  induction n generalizing s with
  | zero =>
    cases h
    exact le_rfl
  | succ n ih =>
    have hk := controlMove_keeps hi
    have hw := controlMove_works hi
    simp only [runControl] at h
    revert hk hw h
    cases controlMove s with
    | go u => exact fun h hk hw => le_trans (ih hk.inv h) (le_of_lt hw)
    | wait u =>
      intro h hk hw
      cases h
      exact le_of_eq hw
    | halt o =>
      intro h hk hw
      rw [show o = .fault .panic from hk] at h
      cases h

/-! ### The header fetch and the reader as a whole -/

theorem dispatchOpcode_work {call : HeaderCall} {op : BitVec 4} {h : Head} (hi : s.Inv)
    (hr : s.reader = .header call .fetch) (hs : s.r.ST + headSize h ≤ s.r.END) (hl : headLength h ≤ maxLen)
    (hn : dispatchOpcode op h s = .next t) : work t < work s := by
  have hri := hi.reader
  simp only [ReaderInv, hr] at hri
  have hsz : 2 ≤ headSize h := by
    unfold headSize
    omega
  have hlw : ∀ op' place, phaseWork place ≤ 3 → work { latch op' h s with reader := place } < work s := by
    intro op' place hp
    simp only [work, latch_r, latch_env, hr, phaseWork] at hp ⊢
    omega
  have hret : ∀ op' call', work (returnFrame call' op' (latch op' h s)) < work s := by
    intro op' call'
    cases call' with
    | frameHeader => exact hlw op' .idle (by simp [phaseWork])
    | rawFrameHeader => exact hlw op' .idle (by simp [phaseWork])
    | read n => exact hlw op' (.deliver .read (deliveryWant n (headLength h)) []) (by simp [phaseWork])
  have hdata : ∀ op', dataFrame op' h s = .next t → work t < work s := by
    intro op' h'
    simp only [dataFrame, hr] at h'
    cases h'
    exact hret op' call
  have hres : ∀ op', reservedFrame op' h s = .next t → work t < work s := by
    intro op' h'
    simp only [reservedFrame, hr] at h'
    cases h'
    exact hlw op' .idle (by simp [phaseWork])
  have hctl : ∀ op' phase, phaseWork (.header call phase) ≤ 3 → (∀ c, phaseWork (.header c phase) =
      phaseWork (.header call phase)) → phase ≠ .pongWrite →
      (∀ call', call' ≠ .rawFrameHeader → ReaderInv { latch op' h s with reader := .header call' phase }) →
      controlFrame op' h phase s = .next t → work t < work s := by
    intro op' phase hp hp' hne hinv h'
    have hc := latch_cursorInv (op := op') hi.cursors hs hl
    have hlock := hi.rlock
    rw [hr] at hlock
    have hrun : ∀ call', call' ≠ .rawFrameHeader → ∀ n,
        runControl n { latch op' h s with reader := .header call' phase } = .next t → work t < work s := by
      intro call' hcne n hrn
      have hwt : (RUnit.header call' phase).writing = false := by
        cases phase <;> first | rfl | exact absurd rfl hne
      have hi' : ({ latch op' h s with reader := .header call' phase } : State).Inv :=
        hi.of_reader rfl rfl rfl rfl (by rw [hr]; exact hwt) rfl rfl hlock
          ⟨hc.st_le_i, hc.i_le_end, hc.end_le_size, hc.filled, hc.start_le_i, hc.payload⟩ (hinv call' hcne) hi.closedBy
          hi.cbufWf hi.cbufSize
      exact lt_of_le_of_lt (runControl_works n hi' hrn) (hlw op' _ (by rw [hp']; exact hp))
    unfold controlFrame at h'
    cases call with
    | rawFrameHeader =>
      simp only [hr] at h'
      cases h'
      exact hret op' _
    | frameHeader =>
      simp only [hr] at h'
      exact hrun _ (by simp) _ h'
    | read n =>
      simp only [hr] at h'
      exact hrun _ (by simp) _ h'
  unfold dispatchOpcode at hn
  split at hn
  · exact hdata _ hn
  · exact hdata _ hn
  · exact hdata _ hn
  · exact hres _ hn
  · exact hres _ hn
  · exact hres _ hn
  · exact hres _ hn
  · exact hres _ hn
  · refine hctl 8 (.close (deliveryWant closeCap (headLength h)) 0) (by simp [phaseWork]) (fun _ => rfl) (by simp) (fun call' hne => ?_) hn
    refine ⟨hri.1, hne, Nat.zero_le _, Nat.min_le_left _ _, ?_, fun a ha => absurd ha (Nat.not_lt_zero a)⟩
    show min closeCap (headLength h) - 0 ≤ headLength h
    omega
  · refine hctl 9 .ping (by simp [phaseWork]) (fun _ => rfl) (by simp) (fun call' hne => ⟨hri.1, hne, ?_⟩) hn
    show s.r.ST < s.r.ST + headSize h
    omega
  · exact hctl 10 .skip (by simp [phaseWork]) (fun _ => rfl) (by simp) (fun call' hne => ⟨hri.1, hne⟩) hn
  · exact hres _ hn
  · exact hres _ hn
  · exact hres _ hn
  · exact hres _ hn
  · exact hres _ hn

theorem fetchMore_works {call : HeaderCall} (hi : CursorInv s) (hr : s.reader = .header call .fetch) :
    (fetchMore call s).Works s := by
  unfold fetchMore
  cases hf : fill s with
  | none => trivial
  | some s1 =>
    obtain ⟨hfc, hlt⟩ := fill_cursorInv hi hf
    have hw := fill_work hf
    simp only
    cases hrd : readOnce s1 with
    | none => exact hw
    | some x =>
      obtain ⟨n, st, t⟩ := x
      have h2 := readOnce_work hfc hrd hlt
      have ht := (fill_taken hi hf).trans (readOnce_taken hfc hrd)
      have hp : phaseWork t.reader = 1 := by rw [ht.reader, hr]; rfl
      have h0 : phaseWork .idle = 0 := rfl
      simp only
      split
      · simp only [Move.Works]
        omega
      · simp only [Move.Works, work, endHeader_r, endHeader_env, endHeader_reader, h0] at h2 hw ⊢
        omega

theorem fetchMove_works {call : HeaderCall} (hi : s.Inv) (hr : s.reader = .header call .fetch) :
    (fetchMove call s).Works s := by
  have hri := hi.reader
  simp only [ReaderInv, hr] at hri
  obtain ⟨octets, ho, hl, hb⟩ := fetchOctets_eq hi.cursors hri.2.2
  simp only [fetchMove, ho]
  cases hp : parseChecked s.cfg octets 0 with
  | ok bits len key next =>
    obtain ⟨-, hs, hlen, -, -, hle, hmax⟩ := parseChecked_head hp
    simp only
    cases hd : dispatchOpcode (hdrOpcode bits) (Head.ofParsed bits len key) s with
    | next t => exact dispatchOpcode_work hi hr (by have := hi.cursors.i_le_end; omega) (by omega) hd
    | fault f => trivial
    | refused r => trivial
  | needMore => exact fetchMore_works hi.cursors hr
  | reservedBits => exact takeFatal_work call _ (by simp [hr]) le_rfl
  | maskViolation => exact takeFatal_work call _ (by simp [hr]) le_rfl
  | oversize => exact takeFatal_work call _ (by simp [hr]) le_rfl

/-- Every move of the reader that goes on leaves less work. -/
theorem readerMove_works (hi : s.Inv) : (readerMove s).Works s := by
  have hri := hi.reader
  unfold readerMove
  split
  · rfl
  · rename_i hr
    exact fetchMove_works hi hr
  · exact controlMove_works hi
  · exact controlMove_works hi
  · exact controlMove_works hi
  · exact controlMove_works hi
  · rename_i hr
    simp only [ReaderInv, hr] at hri
    exact deliverMove_works hi.cursors hi.size hri.2.2.1 hr

end Sys2Proof.Machine
end

