-- ==== Sys2Proof/Laws/Run.lean ====
section
/-! SUPPORT. Running a command move by move: the equations of the two loops, the moves a header fetch makes, and what an
RX list of data alone excludes. -/

namespace Sys2Proof.Machine

variable {s t : State}

/-! ### The loops (log entry 11) -/

/-- The bound on moves leaves room for a command on nothing at all. -/
theorem moveBound_eq (s : State) : moveBound s = 4 * (s.r.END + readyOctets s.env.rx) + 8 := rfl

/-- The bound exceeds the work in hand. -/
theorem work_lt_moveBound (hc : CursorInv s) : work s < moveBound s := by
  have := hc.i_le_end
  have : phaseWork s.reader ≤ 3 := by
    unfold phaseWork
    split <;> omega
  unfold work moveBound
  omega

theorem runReader_go {n : Nat} (h : readerMove s = .go t) : runReader (n + 1) s = runReader n t := by
  simp only [runReader, h]

theorem runReader_wait {n : Nat} (h : readerMove s = .wait t) : runReader (n + 1) s = .next t := by
  simp only [runReader, h]

theorem runReader_halt {n : Nat} {o : Outcome} (h : readerMove s = .halt o) : runReader (n + 1) s = o := by
  simp only [runReader, h]

/-- A command that has returned makes no further move. -/
theorem runReader_idle (n : Nat) (h : s.reader = .idle) : runReader n s = .next s := by
  cases n with
  | zero => rfl
  | succ n => exact runReader_wait (by simp only [readerMove, h])

theorem runControl_go {n : Nat} (h : controlMove s = .go t) : runControl (n + 1) s = runControl n t := by
  simp only [runControl, h]

theorem runControl_wait {n : Nat} (h : controlMove s = .wait t) : runControl (n + 1) s = .next t := by
  simp only [runControl, h]

theorem runControl_halt {n : Nat} {o : Outcome} (h : controlMove s = .halt o) : runControl (n + 1) s = o := by
  simp only [runControl, h]

/-- A control frame that ended the command makes no further move. -/
theorem runControl_idle (n : Nat) (h : s.reader = .idle) : runControl n s = .next s := by
  cases n with
  | zero => rfl
  | succ n => exact runControl_wait (by simp only [controlMove, h])

/-- A control frame that is done leaves the next header to the fetch. -/
theorem runControl_fetch (n : Nat) {call : HeaderCall} (h : s.reader = .header call .fetch) :
    runControl n s = .next s := by
  cases n with
  | zero => rfl
  | succ n => exact runControl_wait (by simp only [controlMove, h])

/-! ### The header fetch (43_frame_reader.md R161 to R163) -/

/-- The octets of a header, counted. -/
theorem length_octets (h : Head) (op : BitVec 4) : (h.octets op).length = headSize h := by
  simp only [Head.octets, headSize, List.length_append, List.length_cons]
  omega

/-- A complete header in the window: the fetch dispatches its frame. -/
theorem readerMove_fetch_ok {call : HeaderCall} {octets : List Byte} {bits : BitVec 16} {len next : Nat} {key : Key}
    (hr : s.reader = .header call .fetch) (ho : fetchOctets s = some octets)
    (hp : parseChecked s.cfg octets 0 = .ok bits len key next) :
    readerMove s = moveOf (dispatchOpcode (hdrOpcode bits) (Head.ofParsed bits len key) s) := by
  simp only [readerMove, hr, fetchMove, ho, hp]

/-- A header that is not complete: the fetch asks for more octets. -/
theorem readerMove_fetch_more {call : HeaderCall} {octets : List Byte} (hr : s.reader = .header call .fetch)
    (ho : fetchOctets s = some octets) (hp : parseChecked s.cfg octets 0 = .needMore) :
    readerMove s = fetchMore call s := by
  simp only [readerMove, hr, fetchMove, ho, hp]

/-- The dispatch of a data opcode (R164 to R166). -/
theorem dispatchOpcode_data {call : HeaderCall} {op : BitVec 4} {h : Head} (hr : s.reader = .header call .fetch)
    (hop : op = 0 ∨ op = 1 ∨ op = 2) :
    dispatchOpcode op h s = .next (returnFrame call op (latch op h s)) := by
  rcases hop with rfl | rfl | rfl <;>
    simp [dispatchOpcode, execCont, execText, execBin, dataFrame, hr]

/-- The dispatch of a control opcode for `readRawFrameHeader` (45_facade.md R232). -/
theorem dispatchOpcode_raw {op : BitVec 4} {h : Head} (hr : s.reader = .header .rawFrameHeader .fetch)
    (hop : op = 8 ∨ op = 9 ∨ op = 10) :
    dispatchOpcode op h s = .next (returnFrame .rawFrameHeader op (latch op h s)) := by
  rcases hop with rfl | rfl | rfl <;>
    simp [dispatchOpcode, execClose, execPing, execPong, controlFrame, hr]

/-- A control frame for the other header commands is latched and handled from its phase on (R167 to R169). -/
theorem controlFrame_run {call : HeaderCall} {op : BitVec 4} {h : Head} {phase : HeaderPhase}
    (hr : s.reader = .header call .fetch) (hc : call ≠ .rawFrameHeader) :
    controlFrame op h phase s =
      runControl (4 * (s.r.END + readyOctets s.env.rx) + 8) { latch op h s with reader := .header call phase } := by
  cases call with
  | frameHeader => simp only [controlFrame, hr]; rfl
  | rawFrameHeader => exact absurd rfl hc
  | read n => simp only [controlFrame, hr]; rfl

/-! ### A transport that gives data alone -/

/-- Every answer that stands ready is octets. -/
def DataOnly (rx : List RxAnswer) : Prop := ∀ a ∈ rx, ∃ d, a = RxAnswer.data d

theorem tRead_dataOnly {cap : Nat} {d : List Byte} {st : ReadStatus} (ha : DataOnly s.env.rx)
    (h : tRead cap s = some (d, st, t)) : st = .ok ∧ DataOnly t.env.rx := by
  unfold tRead at h
  split at h
  · cases h
  · rename_i c rest hrx
    cases h
    rw [hrx] at ha
    refine ⟨rfl, fun a h => ?_⟩
    simp only [logTransaction] at h
    split at h
    · exact ha a (List.mem_cons_of_mem _ h)
    · rcases List.mem_cons.mp h with rfl | h
      · exact ⟨_, rfl⟩
      · exact ha a (List.mem_cons_of_mem _ h)
  all_goals
    rename_i hrx
    rw [hrx] at ha
    obtain ⟨d, hd⟩ := ha _ List.mem_cons_self
    cases hd

theorem readOnce_dataOnly {n : Nat} {st : ReadStatus} (ha : DataOnly s.env.rx) (h : readOnce s = some (n, st, t)) :
    st = .ok ∧ DataOnly t.env.rx := by
  unfold readOnce at h
  split at h
  · cases h
  · rename_i d st' s' hr
    have hd := tRead_dataOnly ha hr
    cases h
    exact hd

/-- A turn of `deliver` on data alone: no status ends it, and it waits only with nothing buffered (R171). -/
theorem deliverTurn_dataOnly {want got : Nat} (ha : DataOnly s.env.rx) :
    match deliverTurn want got s with
    | .done => True
    | .octets _ t => DataOnly t.env.rx
    | .again t => DataOnly t.env.rx
    | .waiting _ => s.r.END ≤ s.r.I
    | .ended _ _ => False
    | .halt _ => True := by
  unfold deliverTurn
  by_cases hg : got ≥ want
  · simp only [hg, if_true]
  simp only [hg, if_false]
  by_cases hI : s.r.I < s.r.END
  · simp only [hI, if_true]
    cases s.r.RBUF.readBytes s.r.I (min (want - got) (s.r.END - s.r.I)) with
    | none => trivial
    | some bs => exact ha
  simp only [hI, if_false]
  by_cases hd : want - got ≥ s.cfg.rbufSize - directMargin
  · simp only [hd, if_true]
    cases hr : tRead (want - got) s with
    | none => exact Nat.le_of_not_lt hI
    | some x =>
      obtain ⟨d, st, u⟩ := x
      obtain ⟨rfl, h⟩ := tRead_dataOnly ha hr
      simpa using h
  · simp only [hd, if_false]
    cases hf : fill s with
    | none => trivial
    | some s1 =>
      have hx : s1.env = s.env := by rw [(fill_some hf).1]
      simp only
      cases hr : readOnce s1 with
      | none => exact Nat.le_of_not_lt hI
      | some x =>
        obtain ⟨n, st, u⟩ := x
        obtain ⟨rfl, h⟩ := readOnce_dataOnly (by rw [hx]; exact ha) hr
        simpa using h

/-! ### Suspension points (20_memory.md R78) -/

/-- A delivery that waits has nothing buffered and something wanted (43_frame_reader.md R171). -/
theorem deliverTurn_waiting {want got : Nat} (hi : CursorInv s) (h : deliverTurn want got s = .waiting t) :
    got < want ∧ t.env.rx = [] ∧ t.r.I = t.r.END := by
  unfold deliverTurn at h
  by_cases hg : got ≥ want
  · simp only [hg, if_true] at h
    cases h
  simp only [hg, if_false] at h
  by_cases hI : s.r.I < s.r.END
  · simp only [hI, if_true] at h
    split at h <;> cases h
  simp only [hI, if_false] at h
  have := hi.i_le_end
  split at h
  · split at h
    · rename_i hr
      cases h
      exact ⟨by omega, tRead_none.mp hr, by omega⟩
    · split at h <;> cases h
  · split at h
    · cases h
    · rename_i s1 hf
      split at h
      · rename_i hr
        cases h
        refine ⟨by omega, readOnce_none.mp hr, ?_⟩
        rw [(fill_some hf).1, if_pos (by omega)]
        simp only [slideFromI]
        omega
      · split at h <;> cases h

/-- A move that waits leaves the reader at a suspension point (20_memory.md R78). -/
theorem readerMove_wait (hi : s.Inv) (h : readerMove s = .wait t) : t.readerSuspended := by
  have hri := hi.reader
  have hc := hi.cursors
  have hie := hc.i_le_end
  unfold readerMove at h
  split at h
  · rename_i hr
    cases h
    simp only [State.readerSuspended, hr]
  · rename_i call hr
    simp only [ReaderInv, hr] at hri
    obtain ⟨octets, ho, hl, hb⟩ := fetchOctets_eq hc hri.2.2
    simp only [fetchMove, ho] at h
    split at h
    · rename_i heq
      revert h
      cases dispatchOpcode _ _ s <;> intro h <;> cases h
    · rename_i hp
      unfold fetchMore at h
      split at h
      · cases h
      · rename_i s1 hf
        split at h
        · rename_i hrd
          cases h
          have hft := fill_taken hc hf
          have hfI : t.r.I = t.r.ST := by
            obtain ⟨rfl, -⟩ := fill_some hf
            by_cases hI : s.r.I ≥ s.r.END / 2 <;> simp only [hI, if_true, if_false, slideFromI] <;> omega
          have hu := fill_unread hc hf
          have hrx := readOnce_none.mp hrd
          have hrx' : s.env.rx = [] := by rw [← hrx, (fill_some hf).1]
          have hfc := (fill_cursorInv hc hf).1
          obtain ⟨bs, hb', hl'⟩ := hfc.buffered
          simp only [State.readerSuspended, hft.reader, hr]
          refine ⟨hrx, octets, ?_, by rw [hft.cfg]; exact hp⟩
          simp only [unread, hrx, hrx', hb, hb'] at hu
          rw [← hfI, hb']
          simpa using hu
        · split at h <;> cases h
    · cases h
    · cases h
    · cases h
  · rename_i call hr
    simp only [controlMove, hr, pingMove] at h
    split at h
    · cases h
    · split at h
      · rename_i hend
        split at h
        · rename_i hrd
          cases h
          have hrx := readOnce_none.mp hrd
          have : (if frameEnd s.r > s.cfg.rbufSize then compactFromST s else s).reader = .header call .ping := by
            split <;> simp [hr]
          simp only [State.readerSuspended, this]
          refine .inl ⟨hrx, ?_⟩
          have := hc.st_le_i
          unfold frameEnd at hend ⊢
          split
          · simp only [compactFromST_r]
            omega
          · exact hend
        · split at h <;> cases h
      · rename_i hend
        unfold pongCompose at h
        split at h
        · rename_i a hw
          cases h
          simp only [State.readerSuspended, hr]
          exact .inr ⟨by simp [hw], by omega⟩
        · split at h <;> split at h <;> cases h
  · rename_i call hr
    simp only [controlMove, hr, pongMove] at h
    split at h
    · cases h
    · split at h
      · rename_i hw
        cases h
        simpa only [State.readerSuspended, hr] using tWrite_none.mp hw
      · split at h <;> cases h
  · rename_i call hr
    simp only [controlMove, hr, skipMove] at h
    split at h
    · cases h
    · split at h
      · cases h
      · split at h
        · cases h
        · rename_i hm hI s1 hf
          split at h
          · rename_i hrd
            cases h
            have hft := fill_taken hc hf
            have hmore := (fill_regs hf).1
            simp only [State.readerSuspended, hft.reader, hr]
            refine ⟨readOnce_none.mp hrd, ?_, by omega⟩
            rw [(fill_some hf).1, if_pos (by omega)]
            simp only [slideFromI]
            omega
          · split at h <;> cases h
  · rename_i call want got hr
    simp only [controlMove, hr, closeMove] at h
    split at h
    · unfold endClose at h
      split at h <;> cases h
    · cases h
    · cases h
    · rename_i s1 hd
      cases h
      simp only [ReaderInv, hr] at hri
      have h1 := deliverTurn_waiting hc hd
      have h2 := deliverTurn_cases (want := want) (got := got) hc hi.size hri.2.2.2.2.1
      rw [hd] at h2
      simp only [State.readerSuspended, h2.2.2.1.reader, hr]
      exact ⟨h1.2.1, h1.2.2, h1.1⟩
    · split at h
      · unfold endClose at h
        split at h <;> cases h
      · cases h
    · cases h
  · rename_i call want out hr
    simp only [deliverMove] at h
    split at h
    · cases h
    · cases h
    · cases h
    · rename_i s1 hd
      cases h
      simp only [ReaderInv, hr] at hri
      have h1 := deliverTurn_waiting hc hd
      have h2 := deliverTurn_cases (want := want) (got := out.length) hc hi.size hri.2.2.1
      rw [hd] at h2
      simp only [State.readerSuspended, h2.2.2.1.reader, hr]
      exact ⟨h1.2.1, h1.2.2, h1.1⟩
    · cases h
    · cases h

/-! ### The write buffer -/

/-- A payload that some encoding and the write buffer hold is not refused (44_frame_writer.md R200). -/
theorem payloadRefused_eq_false {cfg : Config} {payload : List Byte} (h1 : payload.length ≤ 2 ^ 62 - 1)
    (h2 : ∀ cap, cfg.wbufCap = some cap → 14 + payload.length ≤ cap) : payloadRefused cfg payload = false := by
  have h3 : ¬ payload.length > maxLen := by simp only [maxLen]; omega
  unfold payloadRefused
  cases h : cfg.wbufCap with
  | none => simp [h3]
  | some cap =>
    have := h2 cap h
    simp [h3, show ¬ cap < 14 + payload.length by omega]

/-- The octets just written are read back (44_frame_writer.md R201 step 7). -/
theorem readBytes_writeBytes_length {m : Memory} {vs : List Byte} {n : Nat} (h : vs.length = n) :
    (m.writeBytes 0 vs).readBytes 0 n = some vs := by
  rw [← h]
  exact readBytes_writeBytes_self m 0 vs

/-- The rewrite of the first octet of a slice (44_frame_writer.md R206). -/
theorem readBytes_writeByte_head {m : Memory} {a n : Nat} {b c : Byte} {tail : List Byte}
    (h : m.readBytes a n = some (b :: tail)) :
    (m.writeByte a c).readBytes a n = some (c :: tail) ∧ m.readByte a = some b := by
  rw [readBytes_eq_some_iff] at h ⊢
  obtain ⟨h1, h2⟩ := h
  rw [List.length_cons] at h1
  refine ⟨⟨h1, fun k hk => ?_⟩, by simpa using h2 0 (by omega)⟩
  cases k with
  | zero => simp
  | succ k =>
    rw [readByte_writeByte_of_ne (by omega), h2 _ hk]
    simp

end Sys2Proof.Machine
end

