-- ==== Sys2Proof/Tests/Slice0.lean ====
section
/-! SUPPORT. Tests: ill-formed terms, words written out from the encodings, one or two steps for each instruction with
results from 95_test_vectors.md (named in each docstring), and for each statement with hypotheses a state and operands that
meet them. -/

namespace Sys2Proof.Tests

set_option Elab.async false

open Sys2Proof.Machine

/-! ### Building blocks -/

/-- The state an outcome goes on to. -/
def after : Outcome → Option State
  | .next s => some s
  | .fault _ => none
  | .refused _ => none

/-- The fault an outcome stops with. -/
def faultOf : Outcome → Option Fault
  | .next _ => none
  | .fault f => some f
  | .refused _ => none

def server : Config := Config.standard
def client : Config := { Config.standard with role := .client }

/-- A new connection whose transport has these answers ready. -/
def conn (cfg : Config) (rx : List RxAnswer) (tx : List TxAnswer) : State :=
  let s := State.initial cfg
  { s with env := { s.env with rx := rx, tx := tx } }

/-- A header command that fetches, with these octets in the buffer. -/
def fetching (cfg : Config) (call : HeaderCall) (buf : List Byte) : State :=
  let s := State.initial { cfg with preload := buf }
  { s with RLOCK := some .reader, reader := .header call .fetch }

/-- The host in the middle of a payload of which `buf` is buffered. -/
def inPayload (cfg : Config) (buf : List Byte) (more : Nat) (key : Key) (rx : List RxAnswer) : State :=
  let s := conn { cfg with preload := buf } rx []
  { s with r := { s.r with MORE := more, KEY := key, RSTATE := .inDataFrame } }

/-- The cursors are `ST I END START MORE`, as 95_test_vectors.md writes a state. -/
def cursorsAre (s : State) (st i fill : Nat) (start : Int) (more : Nat) : Bool :=
  decide (s.r.ST = st) && decide (s.r.I = i) && decide (s.r.END = fill) && decide (s.r.START = start) &&
    decide (s.r.MORE = more)

/-- The newest result and the newest transaction. -/
def lastResult (s : State) : Option Result := s.responses.head?.map Response.result
def lastTransaction (s : State) : Option Transaction := s.trace.head?

/-- The outcome goes on to a state whose newest result, reader state and cursors are these. -/
def shows (o : Outcome) (r : Result) (rs : RState) (st i fill : Nat) (start : Int) (more : Nat) : Bool :=
  match after o with
  | none => false
  | some s => decide (lastResult s = some r) && decide (s.r.RSTATE = rs) && cursorsAre s st i fill start more

/-- The outcome goes on to a state whose newest result and transaction are these. -/
def sends (o : Outcome) (r : Result) (t : Transaction) : Bool :=
  match after o with
  | none => false
  | some s => decide (lastResult s = some r) && decide (lastTransaction s = some t)

def keyA : Key := ⟨0x37, 0xFA, 0x21, 0x3D⟩
def hello : List Byte := [0x68, 0x65, 0x6C, 0x6C, 0x6F]
def masked : List Byte := [0x5F, 0x9F, 0x4D, 0x51, 0x58]
def ample : TxAnswer := ⟨1000, .ok⟩
def hi : List Byte := [0x48, 0x69]

/-! ### Well-formedness: each check refuses an ill-formed term -/

/-- 126 in the 7-bit field announces a 16-bit length (R93). -/
theorem test_wellFormed_short : (Instr.bin ⟨true, 0, .short 126, none⟩).wellFormed = false := by decide +kernel
/-- A length over 2^62 - 1 (R101). -/
theorem test_wellFormed_ext64 : (Instr.ping ⟨true, 0, .ext64 (2 ^ 62), none⟩).wellFormed = false := by decide +kernel
/-- `st` beyond the buffer (R120). -/
theorem test_wellFormed_parseHeader : (Instr.parseHeader [0x81] 2).wellFormed = false := by decide +kernel

/-! ### Decoding: words written out bit by bit (R91: FIN, RSV, opcode, MASK, len7) -/

/-- `1 000 0001 1 0000101`, then the key. -/
theorem test_decode_text : decodeFrame server [0x81, 0x85, 0x37, 0xFA, 0x21, 0x3D, 0x5F] =
    .ok (.text ⟨true, 0, .short 5, some keyA⟩) 6 := by decide +kernel
/-- `0 000 0000 0 1111110`, then 200 in 16 bits. -/
theorem test_decode_cont : decodeFrame server [0x00, 0x7E, 0x00, 0xC8] = .ok (.cont ⟨false, 0, .ext16 200, none⟩) 4 := by
  decide +kernel
/-- `1 000 1001 0 1111111`, then 70000 in 64 bits. -/
theorem test_decode_ping : decodeFrame server [0x89, 0x7F, 0, 0, 0, 0, 0, 1, 0x11, 0x70] =
    .ok (.ping ⟨true, 0, .ext64 70000, none⟩) 10 := by decide +kernel
/-- `1 111 0010 0 0000001`: RSV bits are kept, or refused when enforced (DF6). -/
theorem test_decode_rsv : decodeFrame server [0xF2, 0x01] = .ok (.bin ⟨true, 7, .short 1, none⟩) 2 ∧
    decodeFrame { server with rsvEnforce := true } [0xF2, 0x01] = .reservedBits := by decide +kernel
/-- `1 000 1011 0 0000000` (O2). -/
theorem test_decode_rsvdB : decodeFrame server [0x8B, 0x00] = .ok (.rsvdB ⟨true, 0, .short 0, none⟩) 2 := by decide +kernel
/-- A header that is not complete, an oversize length, a MASK bit that contradicts the role (O4, O3, O5). -/
theorem test_decode_rejects : decodeFrame server [0x83] = .needMore ∧
    decodeFrame server [0x82, 0x7F, 0x40, 0, 0, 0, 0, 0, 0, 0] = .oversize ∧
    decodeFrame { server with maskEnforce := true } [0x82, 0x01, 0x7A] = .maskViolation := by decide +kernel
/-- Codes of R104, and one it does not name. -/
theorem test_decode_commands : decodeCommand ⟨0x03, { Operands.zero with n := 9 }⟩ = some (.appendFrame 9) ∧
    decodeCommand ⟨0x12, { Operands.zero with status := 1001 }⟩ = some (.closeWriter 1001) ∧
    decodeCommand ⟨0x24, { Operands.zero with buf := hi, key := keyA, n := 3 }⟩ = some (.mask hi keyA 3) ∧
    decodeCommand ⟨0x14, Operands.zero⟩ = none := by decide +kernel
/-- Every row of the opcode table decodes to its constructor: the first and the last of each port and the wire. -/
theorem test_decodeTableWord : decodeTableWord 16 0x0000 = some (.cont ⟨false, 0, .short 0, none⟩) ∧
    decodeTableWord 16 0x0F00 = some (.rsvdF ⟨false, 0, .short 0, none⟩) ∧
    decodeTableWord 8 0x01 = some .readFrameHeader ∧ decodeTableWord 8 0x10 = some (.writeFrame [] 0 false) ∧
    decodeTableWord 8 0x20 = some (.parseHeader [] 0) ∧ decodeTableWord 8 0x24 = some (.mask [] Key.zero 0) := by decide +kernel
/-- A word placed for the next fetch runs (the interface's `withFetchWord`). -/
theorem test_withFetchWord : ((after (step (State.reset.withFetchWord 16 0x8205))).bind lastResult =
      some (.header 2 true 5)) ∧
    ((after (step (State.reset.withFetchWord 8 0x12))).map fun s => s.w.WCLOSED) = some true := by decide +kernel

/-! ### The C port (H2, H4, L4, L9, L11, M2, M3, E9, E6, X1, X9) -/

theorem test_parseHeader : (after (exec (.parseHeader [0x81, 0x85, 0x37, 0xFA] 0) State.reset)).bind lastResult =
    some (.bits 0x8185 2) := by decide +kernel
theorem test_parseHeader_end : (after (exec (.parseHeader [0x81, 0x85] 2) State.reset)).bind lastResult =
    some (.status .needMore) := by decide +kernel
theorem test_parseLength : (after (exec (.parseLength 0x827F [0x82, 0x7F, 0, 0, 0, 0, 0, 1, 0x11, 0x70] 2)
    State.reset)).bind lastResult = some (.length 70000 10) := by decide +kernel
theorem test_parseLength_bound :
    parseLength 0x827F [0x82, 0x7F, 0x40, 0, 0, 0, 0, 0, 0, 0] 2 = .oversize ∧
    parseLength 0x827F [0x82, 0x7F, 0x3F, 0xFF, 0xFF, 0xFF, 0xFF, 0xFF, 0xFF, 0xFF] 2 = .ok 4611686018427387903 10 ∧
    parseLength 0x827F [0x82, 0x7F, 0x40, 0, 0, 0, 0, 0, 0] 2 = .needMore := by decide +kernel
theorem test_readMask : (after (exec (.readMask 0x8185 [0x81, 0x85, 0x37, 0xFA, 0x21, 0x3D] 2) State.reset)).bind
    lastResult = some (.key keyA 6) := by decide +kernel
theorem test_readMask_clear : (after (exec (.readMask 0x8105 [0x81, 0x05] 2) State.reset)).bind lastResult =
    some (.key ⟨0, 0, 0, 0⟩ 2) := by decide +kernel
theorem test_encodeHeader : (after (exec (.encodeHeader 1 false true ⟨0x11, 0x22, 0x33, 0x44⟩ 3) State.reset)).bind
    lastResult = some (.octets [0x01, 0x83, 0x11, 0x22, 0x33, 0x44]) := by decide +kernel
theorem test_encodeHeader_forms : encodeHeader 2 true false Key.zero 125 = [0x82, 0x7D] ∧
    encodeHeader 2 true false Key.zero 126 = [0x82, 0x7E, 0x00, 0x7E] ∧
    encodeHeader 2 true false Key.zero 65536 = [0x82, 0x7F, 0, 0, 0, 0, 0, 1, 0, 0] := by decide +kernel
theorem test_mask : (after (exec (.mask hello keyA 0) State.reset)).bind lastResult = some (.octets masked) := by decide +kernel
theorem test_mask_offset : mask [0xFF] keyA 4611686018427387902 = [0xDE] := by decide +kernel

/-! ### The read buffer (B3, B5, B8) -/

/-- A state with the cursors a vector names, in a buffer of 32 octets. -/
def window (st i fill : Nat) (start : Int) : State :=
  let s := State.initial { server with rbufSize := 32, preload := List.replicate fill 0x55 }
  { s with r := { s.r with ST := st, I := i, START := start } }

theorem test_fill : (fill (window 20 27 32 6)).any (cursorsAre · 0 0 5 (-21) 0) = true := by decide +kernel
theorem test_fill_panics : fill (window 0 13 32 6) = none := by decide +kernel
theorem test_compactFromST : cursorsAre (compactFromST (window 22 24 32 24)) 0 2 10 2 0 = true := by decide +kernel

/-! ### The R port and the frames -/

def p1 : List Byte := [0x81, 0x85, 0x37, 0xFA, 0x21, 0x3D, 0x5F, 0x9F, 0x4D, 0x51, 0x58]

/-- Program 1, line 1. -/
theorem test_readFrameHeader : shows (exec .readFrameHeader (conn server [.data p1, .eof] []))
    (.header 1 true 5) .inDataFrame 0 6 11 6 5 = true := by decide +kernel
/-- R269: the end of the stream inside DF3's header keeps its octets and closes nothing. -/
theorem test_readFrameHeader_eof : shows (exec .readFrameHeader (conn server [.data [0x82, 0xFE, 0x00], .eof] []))
    (.status .endOfStream) .betweenFrames 0 0 3 0 0 = true := by decide +kernel
/-- Program 1, line 3: the rest of the payload, at mask phase 3. -/
theorem test_appendFrame : shows (exec (.appendFrame 3) { inPayload server [0x51, 0x58] 2 keyA [] with
    r := { (inPayload server [0x51, 0x58] 2 keyA []).r with START := -3 } })
    (.delivered [0x6C, 0x6F] .endOfPayload) .betweenFrames 0 2 2 (-3) 0 = true := by decide +kernel
/-- DF1: the direct path in a buffer of 32 octets. -/
theorem test_appendFrame_direct : sends (exec (.appendFrame 36) (inPayload { server with rbufSize := 32 } [] 36 Key.zero
    [.data (List.replicate 36 0x41)])) (.delivered (List.replicate 36 0x41) .endOfPayload)
    (.read 36 (List.replicate 36 0x41) .ok) = true := by decide +kernel
/-- DF8: the first octets of the stream are the handshake's. -/
theorem test_read_preload : shows
    (exec (.read 16) (conn { server with preload := p1.take 8 } [.data (p1.drop 8)] []))
    (.delivered hello .ok) .betweenFrames 0 3 3 (-2) 0 = true := by decide +kernel
/-- DF4: a zero-length frame is no end of stream. -/
theorem test_read_empty : shows (exec (.read 4) (conn server [.data [0x81, 0x00, 0x82, 0x01, 0x7A]] []))
    (.delivered [] .ok) .betweenFrames 0 2 5 2 0 = true := by decide +kernel
/-- PG8: a raw header command intercepts nothing. -/
theorem test_readRawFrameHeader : shows
    (exec .readRawFrameHeader (conn server [.data [0x89, 0x02, 0x01, 0x02]] [ample]))
    (.header 9 true 2) .inDataFrame 0 2 4 2 2 = true := by decide +kernel
/-- DF7: a payload is still unread. -/
theorem test_readRawFrameHeader_misuse : shows (exec .readRawFrameHeader (inPayload server [] 2 Key.zero []))
    (.status .misuse) .inDataFrame 0 0 0 0 2 = true := by decide +kernel
/-- R164's example, header alone. -/
theorem test_cont : shows (exec (.cont ⟨true, 0, .short 2, some ⟨1, 2, 3, 4⟩⟩)
    (fetching server .frameHeader [0x80, 0x82, 1, 2, 3, 4]))
    (.header 0 true 2) .inDataFrame 0 6 6 6 2 = true := by decide +kernel
/-- R165's example. -/
theorem test_text : shows (exec (.text ⟨true, 0, .short 5, some keyA⟩) (fetching server .frameHeader p1))
    (.header 1 true 5) .inDataFrame 0 6 11 6 5 = true := by decide +kernel
/-- R166's example. -/
theorem test_bin : shows (exec (.bin ⟨true, 0, .ext16 200, none⟩)
    (fetching server .rawFrameHeader [0x82, 0x7E, 0x00, 0xC8]))
    (.header 2 true 200) .inDataFrame 0 4 4 4 200 = true := by decide +kernel
/-- K5: a Close with a status and a reason. -/
theorem test_close : shows (exec (.read 16) (conn client [.data [0x88, 0x05, 0x03, 0xE9, 0x62, 0x79, 0x65]] []))
    (.delivered [] (.closeStatus 1001 [0x62, 0x79, 0x65])) .closed 0 7 7 2 0 = true := by decide +kernel
/-- K3, K2 and K7: normal closure, a malformed Close, and a masked one. -/
theorem test_close_status : closeStatusOf [0x03, 0xE8] = .endOfStream ∧ closeStatusOf [0x03] = .malformedClose ∧
    closeStatusOf (mask [0x09, 0xE2, 0x6E, 0x74, 0x6F] ⟨0x0A, 0x0B, 0x0C, 0x0D⟩ 0) =
      .closeStatus 1001 [0x62, 0x79, 0x65] := by decide +kernel
/-- Program 2, command 3: a Ping between two fragments is answered with its octets and the opcode of a Pong. -/
theorem test_ping : shows (exec .readFrameHeader
    (conn server [.data [0x89, 0x82, 0xA0, 0xB0, 0xC0, 0xD0, 0xA1, 0xB2, 0x80, 0x82, 1, 2, 3, 4]] [ample]))
    (.header 0 true 2) .inDataFrame 8 14 14 14 2 = true ∧
    sends (exec .readFrameHeader
      (conn server [.data [0x89, 0x82, 0xA0, 0xB0, 0xC0, 0xD0, 0xA1, 0xB2, 0x80, 0x82, 1, 2, 3, 4]] [ample]))
      (.header 0 true 2) (.write [0x8A, 0x82, 0xA0, 0xB0, 0xC0, 0xD0, 0xA1, 0xB2] 8 .ok) = true := by decide +kernel
/-- PG3: a fresh Pong of a client; the Ping's payload goes out under the new key. -/
theorem test_ping_fresh : (after (exec (.ping ⟨true, 0, .short 2, none⟩)
    { fetching { client with pongMode := .fresh } .frameHeader [0x89, 0x02, 0x01, 0x02] with
        env := ⟨[], [ample], [], [⟨0xAA, 0xBB, 0xCC, 0xDD⟩], false, 0⟩ })).bind lastTransaction =
    some (.write [0x8A, 0x82, 0xAA, 0xBB, 0xCC, 0xDD, 0xAB, 0xB9] 8 .ok) := by decide +kernel
/-- PG6: a Pong is dropped. -/
theorem test_pong : shows (exec (.read 4) (conn server [.data [0x8A, 0x02, 0x09, 0x09, 0x82, 0x01, 0x7A]] []))
    (.delivered [0x7A] .ok) .betweenFrames 4 7 7 6 0 = true := by decide +kernel
/-- PG7: the transport ends inside a Pong. -/
theorem test_pong_eof : shows (exec (.read 4) (conn server [.data [0x8A, 0x05, 0x09, 0x09], .eof] []))
    (.delivered [] .endOfStream) .closed 0 0 0 (-2) 3 = true := by decide +kernel

/-- O1 and its like: what a reserved opcode leaves. -/
def rejects (i : Instr) (b : Byte) : Bool :=
  shows (exec i (fetching server .frameHeader [b, 0x00])) (.status .protocolUnknownOpcode) .closed 0 2 2 2 0

def plain : Head := ⟨true, 0, .short 0, none⟩

theorem test_rsvd3_to_7 : (rejects (.rsvd3 plain) 0x83 && rejects (.rsvd4 plain) 0x84 && rejects (.rsvd5 plain) 0x85 &&
    rejects (.rsvd6 plain) 0x86 && rejects (.rsvd7 plain) 0x87) = true := by decide +kernel
theorem test_rsvdB_to_F : (rejects (.rsvdB plain) 0x8B && rejects (.rsvdC plain) 0x8C && rejects (.rsvdD plain) 0x8D &&
    rejects (.rsvdE plain) 0x8E && rejects (.rsvdF plain) 0x8F) = true := by decide +kernel
/-- The statuses and command codes of R250 and D25, D28. -/
theorem test_codes : Status.code .endOfStream = 0x10 ∧ Status.code .misuse = 0x40 ∧ RState.code .closed = 2 ∧
    roleCode .client = 1 ∧ pongModeCode .fresh = 1 ∧ panicCode = 0xFF ∧ dataCallCode .appendFrame = 0x03 := by decide +kernel

/-! ### The W port -/

/-- W1. -/
theorem test_writeFrame : sends (exec (.writeFrame hi 2 true) (conn server [] [ample]))
    (.written 2 .ok) (.write [0x82, 0x02, 0x48, 0x69] 4 .ok) = true := by decide +kernel
/-- W13 and W14: a short write, and an error within the header. -/
theorem test_writeFrame_short :
    sends (exec (.writeFrame hi 2 true) (conn server [] [⟨3, .ok⟩])) (.written 1 .shortWrite)
      (.write [0x82, 0x02, 0x48, 0x69] 3 .ok) = true ∧
    sends (exec (.writeFrame hi 2 true) (conn server [] [⟨1, .err 7⟩])) (.written 0 (.transport (.other 7)))
      (.write [0x82, 0x02, 0x48, 0x69] 1 (.err 7)) = true := by decide +kernel
/-- W2's key and payload under opcode 2: the shorthand is a whole Binary message (R233). -/
theorem test_write : sends (exec (.write hi) { conn client [] [] with env := ⟨[], [ample], [], [keyA], false, 0⟩ })
    (.written 2 .ok) (.write [0x82, 0x82, 0x37, 0xFA, 0x21, 0x3D, 0x7F, 0x93] 8 .ok) = true := by decide +kernel
/-- W8. -/
theorem test_closeWriter : sends (exec (.closeWriter 1001) (conn server [] [ample]))
    (.status .ok) (.write [0x88, 0x02, 0x03, 0xE9] 4 .ok) = true := by decide +kernel
/-- W9. -/
theorem test_closeWriter_zero : sends (exec (.closeWriter 0)
    { conn client [] [] with env := ⟨[], [ample], [], [keyA], false, 0⟩ })
    (.status .ok) (.write [0x88, 0x82, 0x37, 0xFA, 0x21, 0x3D, 0x34, 0x12] 8 .ok) = true := by decide +kernel
/-- W10: the Close frame, then the transport. -/
theorem test_closeConn : ((after (exec .closeConn
    { conn server [] [] with env := ⟨[], [ample], [.ok], [], false, 0⟩ })).map State.trace) =
    some [.close .ok, .write [0x88, 0x00] 2 .ok] := by decide +kernel
/-- W10, the second call. -/
theorem test_closeConn_twice : ((after (exec .closeConn { conn server [] [] with w := ⟨[], 0, true, true⟩ })).map
    fun s => (lastResult s, s.trace)) = some (some (.status .ok), []) := by decide +kernel

/-! ### Witnesses: what meets the hypotheses of each statement

The invariant is shown of a state by the checks below, for states in which no W-port command runs. -/

/-- The checks of the invariant that need no quantifier, with the reader idle, fetching, delivering or before a Pong is
composed. -/
def calm (s : State) : Bool :=
  s.cfg.legal && decide (s.r.ST ≤ s.r.I) && decide (s.r.I ≤ s.r.END) && decide (s.r.END ≤ s.cfg.rbufSize) &&
    decide (s.r.RBUF.map Prod.fst = List.range s.r.END) && decide (s.r.START ≤ s.r.I) &&
    decide ((s.r.I : Int) - s.r.START + s.r.MORE ≤ maxLen) &&
    (match s.reader with
      | .idle => decide (s.r.RSTATE = .betweenFrames → s.r.MORE = 0)
      | .header _ .fetch => decide (s.r.RSTATE ≠ .closed) && decide (s.r.MORE = 0) && decide (s.r.I = s.r.ST)
      | .header call .ping => decide (s.r.RSTATE ≠ .closed) && decide (call ≠ .rawFrameHeader) && decide (s.r.ST < s.r.I)
      | .header _ .pongWrite => false
      | .header call .skip => decide (s.r.RSTATE ≠ .closed) && decide (call ≠ .rawFrameHeader)
      | .header _ (.close _ _) => false
      | .deliver _ want out =>
        decide (s.r.RSTATE ≠ .closed) && decide (out.length ≤ want) && decide (want - out.length ≤ s.r.MORE) &&
          decide (s.r.RSTATE = .betweenFrames → s.r.MORE = 0)) &&
    decide (s.r.RSTATE = .closed → s.r.RERR.canClose = true) &&
    decide (s.RLOCK = if s.reader = .idle then none else some .reader) && decide (s.WLOCK = none) &&
    decide (s.writer = .idle) && decide (s.w.WLEN = 0) && s.w.WBUF.wf && decide (s.r.CBUF = []) &&
    s.rWait.all onReadPort && s.wWait.all onWritePort

theorem calm_inv {s : State} (h : calm s = true) : s.Inv := by
  simp only [calm, Bool.and_eq_true, decide_eq_true_eq, List.all_eq_true] at h
  obtain ⟨⟨⟨⟨⟨⟨⟨⟨⟨⟨⟨⟨⟨⟨⟨⟨h1, h2⟩, h3⟩, h4⟩, h5⟩, h6⟩, h7⟩, h8⟩, h9⟩, h10⟩, h11⟩, h12⟩, h13⟩, h14⟩, h15⟩, h16⟩, h17⟩ := h
  have hw : s.reader.writing = false := by
    revert h8
    cases s.reader with
    | idle => exact fun _ => rfl
    | header call phase => cases phase <;> simp [RUnit.writing]
    | deliver _ _ _ => exact fun _ => rfl
  exact {
    legal := h1
    cursors := ⟨h2, h3, h4, h5, h6, h7⟩
    reader := by
      unfold ReaderInv
      revert h8
      cases s.reader with
      | idle => simp only [decide_eq_true_eq, imp_self]
      | header call phase => cases phase <;> simp_all
      | deliver call want out =>
        simp only [Bool.and_eq_true, decide_eq_true_eq]
        exact fun h => ⟨h.1.1.1, h.1.1.2, h.1.2, h.2⟩
    closedBy := h9
    rlock := h10
    wlock := by simp [h11, h12, hw]
    oneWriter := fun h => absurd h12 h
    wlen := fun _ _ => h13
    sending := fun _ _ _ h => by rw [h12] at h; cases h
    composed := by rw [h13]; exact fun a ha => absurd ha (Nat.not_lt_zero a)
    wbufWf := h14
    cbufWf := by rw [h15]; rfl
    cbufSize := by rw [h15]; exact fun _ h => absurd h List.not_mem_nil
    rWait := h16
    wWait := h17 }

/-! #### Encodings and the codec -/

theorem witness_DecodingUndoesEncoding :
    (Instr.ping ⟨false, 5, .ext64 (2 ^ 62 - 1), some keyA⟩).wellFormed = true ∧
    (Instr.bin ⟨true, 0, .short 125, none⟩).wellFormed = true ∧
    (Instr.parseHeader [0x81] 1).wellFormed = true ∧
    server.rsvEnforce = false ∧ server.maskEnforce = false := by decide +kernel
theorem witness_EncodingUndoesDecoding :
    decodeFrame { server with rsvEnforce := true, maskEnforce := true } p1 = .ok (.text ⟨true, 0, .short 5, some keyA⟩) 6 ∧
    decodeCommand ⟨0x04, { Operands.zero with n := 7 }⟩ = some (.read 7) := by decide +kernel
theorem witness_HeaderSizeIsReadOffTheSecondOctet : parseFull (0 :: p1) 1 = .ok 0x8185 5 keyA 7 := by decide +kernel
theorem witness_ParseUndoesEncodeHeader : (4611686018427387903 : Nat) ≤ 2 ^ 62 - 1 ∧
    parseFull [0x82, 0x7E, 0x00, 0x03] 0 = .ok 0x827E 3 ⟨0, 0, 0, 0⟩ 4 := by decide +kernel
theorem witness_FourteenOctetsSettleAHeader : 0 + 14 ≤ (List.replicate 14 (0xFF : Byte)).length ∧
    parseChecked server [0x81, 0x00] 0 ≠ .needMore := by decide +kernel
theorem witness_OversizeIsTheTwoTopBits : (0x827F : BitVec 16).toNat % 128 = 127 ∧
    2 + 8 ≤ [0x82, 0x7F, (0x40 : Byte), 0, 0, 0, 0, 0, 0, 0].length := by decide +kernel
theorem witness_MaskXorsEachOctetWithItsKeyOctet : 4 < hello.length := by decide
theorem witness_TheZeroKeyLeavesOctetsUnchanged :
    parseChecked server [0x82, 0x01, 0x7A] 0 = .ok 0x8201 1 ⟨0, 0, 0, 0⟩ 2 ∧
    (0x8201 : BitVec 16).getLsbD 7 = false := by decide +kernel

/-! #### Creation and every step -/

theorem witness_CreationIsRefusedExactlyWhenIllegal :
    ¬ ((({ server with rbufSize := 32, preload := List.replicate 32 0 } : Config).rbufSize < 32) ∨
      ({ server with rbufSize := 32, preload := List.replicate 32 0 } : Config).preload.length > 32) := by
  decide +kernel
theorem witness_EveryLegalCreationMeetsTheInvariant :
    State.create { client with rbufSize := 32, preload := List.replicate 32 0 } =
      some (State.initial { client with rbufSize := 32, preload := List.replicate 32 0 }) := by decide +kernel

/-- A header command that waits with one octet of a header, octets of a data frame on the transport, the reader to
move. -/
def partialHeader : State :=
  let s := fetching server (.read 5) [0x82]
  { s with events := [.reader 0], env := { s.env with rx := [.data [0x05, 0x01, 0x02]] } }

/-- R78: its turn takes the header and the two octets of payload behind it, and ends in the next `TRead`. -/
theorem test_reader_turn : ((after (step partialHeader)).map fun s => (s.reader, s.r.MORE, s.env.rx)) =
    some (.deliver .read 5 [0x01, 0x02], 3, []) := by decide +kernel

/-- For `EveryStepKeepsTheInvariant`, `NoStepIsRefusedAndThePanicIsTheOnlyFault`,
`StepsNeverWithdrawFlagsOrTransactions`, `TheTwoSidesTouchDisjointState` and `OctetsAreConsumedInStreamOrder`: a state of
the invariant whose step goes on. -/
theorem witness_steps : partialHeader.Inv ∧ (after (step partialHeader)).isSome = true :=
  ⟨calm_inv (by decide +kernel), by decide +kernel⟩
theorem witness_steps_flags : ({ partialHeader with w := ⟨[], 0, true, true⟩ } : State).Inv ∧
    (after (step { partialHeader with w := ⟨[], 0, true, true⟩ })).isSome = true :=
  ⟨calm_inv (by decide +kernel), by decide +kernel⟩
theorem witness_steps_writer : ({ partialHeader with events := [.writer 0], wWait := [.closeConn] } : State).Inv ∧
    (after (step { partialHeader with events := [.writer 0], wWait := [.closeConn] })).isSome = true :=
  ⟨calm_inv (by decide +kernel), by decide +kernel⟩
/-- The same state while a W-port command waits in `TWrite`. -/
def bothRun : State := (after (exec (.writeFrame hi 2 true) partialHeader)).getD State.reset

/-- An outcome that goes on, to the state it goes on to. -/
theorem next_of_isSome {o : Outcome} (d : State) (h : (after o).isSome = true) : o = .next ((after o).getD d) := by
  cases o with
  | next t => rfl
  | fault f => cases h
  | refused r => cases h

/-- The clauses of `TheTwoSidesTouchDisjointState`: a turn of the reader in `PASSTHROUGH`, and while a W-port command
runs; a turn of the writer is `witness_steps_writer`'s. -/
theorem witness_TheTwoSidesTouchDisjointState : partialHeader.cfg.pongMode = .passthrough ∧
    bothRun.Inv ∧ bothRun.events = .reader 0 :: [] ∧ bothRun.writer ≠ .idle ∧ (after (step bothRun)).isSome = true := by
  have h := writeCommand_keeps (s := partialHeader) (calm_inv (by decide +kernel)) rfl (.writeFrame hi 2 true)
    .writeFrame hi 2 true
  have hn : writeCommand (.writeFrame hi 2 true) .writeFrame hi 2 true partialHeader = .next bothRun :=
    next_of_isSome (o := exec (.writeFrame hi 2 true) partialHeader) State.reset (by decide +kernel)
  rw [hn] at h
  exact ⟨rfl, h.inv, by decide +kernel, by decide +kernel, by decide +kernel⟩

/-- The other clauses of `OctetsAreConsumedInStreamOrder`: data, another answer, a command, any other event. -/
theorem witness_OctetsAreConsumedInStreamOrder (e : Event)
    (he : e ∈ [Event.rx (.data [0x03]), .rx .eof, .host ⟨0x20, Operands.zero⟩, .cancel true]) :
    ({ partialHeader with events := [e] } : State).Inv ∧
      (after (step { partialHeader with events := [e] })).isSome = true := by
  simp only [List.mem_cons, List.not_mem_nil, or_false] at he
  rcases he with rfl | rfl | rfl | rfl <;> exact ⟨calm_inv (by decide +kernel), by decide +kernel⟩

/-- A frame that ends its command, and one that stops. -/
theorem witness_AStepRunsTheFetchedFrame :
    (fetching server .frameHeader p1).reader = .header .frameHeader .fetch ∧
    (fetching server .frameHeader p1).r.RBUF.readBytes (fetching server .frameHeader p1).r.ST
      ((fetching server .frameHeader p1).r.END - (fetching server .frameHeader p1).r.ST) = some p1 ∧
    decodeFrame server p1 = .ok (.text ⟨true, 0, .short 5, some keyA⟩) 6 ∧
    ((after (exec (.text ⟨true, 0, .short 5, some keyA⟩) (fetching server .frameHeader p1))).map State.reader) =
      some .idle ∧
    decodeFrame { server with rbufSize := 32 } [0x89, 0x1F] = .ok (.ping ⟨true, 0, .short 31, none⟩) 2 ∧
    faultOf (exec (.ping ⟨true, 0, .short 31, none⟩) (fetching { server with rbufSize := 32 } .frameHeader [0x89, 0x1F])) =
      some .panic := by decide +kernel
theorem witness_AStepRunsTheIssuedCommand :
    decodeCommand ⟨0x24, Operands.zero⟩ = some (.mask [] ⟨0, 0, 0, 0⟩ 0) ∧
    (0x25 : Byte).toNat ∉
      [0x01, 0x02, 0x03, 0x04, 0x10, 0x11, 0x12, 0x13, 0x20, 0x21, 0x22, 0x23, 0x24] := by decide +kernel

/-- A new connection with commands that wait for a lock. -/
def queued (rlock wlock : Option Agent) (e : Event) : State :=
  { State.initial server with
    RLOCK := rlock, WLOCK := wlock, events := [e], rWait := [.readFrameHeader, .read 4], wWait := [.closeConn] }

theorem witness_CommandsWaitForTheirLock :
    (queued (some .reader) none (.reader 0)).RLOCK = some .reader ∧ onReadPort (.read 4) = true ∧
    (queued none (some .reader) (.reader 0)).WLOCK = some .reader ∧ onWritePort .closeConn = true ∧
    (∀ payload, ¬ (Instr.closeConn = .write payload ∨ ∃ op final, Instr.closeConn = .writeFrame payload op final)) ∧
    (queued none none (.reader 1)).reader = .idle ∧ (queued none none (.reader 1)).RLOCK = none ∧
    (queued none none (.reader 1)).rWait = [.readFrameHeader] ++ .read 4 :: [] ∧
    (queued none none (.writer 0)).writer = .idle ∧ (queued none none (.writer 0)).WLOCK = none ∧
    (queued none none (.writer 0)).wWait = [] ++ .closeConn :: [] := by
  refine ⟨rfl, rfl, rfl, rfl, ?_, rfl, rfl, rfl, rfl, rfl, rfl⟩
  rintro payload (h | ⟨_, _, h⟩) <;> cases h
/-- The bound on writes with a bounded write buffer, met exactly. -/
theorem witness_CommandsWaitForTheirLock_bounded :
    hi.length ≤ 2 ^ 62 - 1 ∧ ({ server with wbufCap := some 16 } : Config).wbufCap = some 16 ∧ 14 + hi.length ≤ 16 := by
  decide +kernel
/-- A Pong of three octets half skipped. -/
def skipping : State :=
  let s := fetching server .frameHeader [0x8A, 0x03, 0x01]
  { s with reader := .header .frameHeader .skip, r := { s.r with I := 2, START := 2, MORE := 3 } }

theorem witness_ReaderCommandsRunUntilTheyReturnOrWait :
    (partialHeader.Inv ∧ partialHeader.events = .reader 0 :: [] ∧ (after (step partialHeader)).isSome = true) ∧
    ((State.initial server).Inv ∧ (State.initial server).RLOCK = none ∧ onReadPort (.read 4) = true ∧
      (after (exec (.read 4) (State.initial server))).isSome = true) ∧
    (after (runReader (moveBound partialHeader) partialHeader)).isSome = true ∧
    (skipping.Inv ∧ skipping.reader = .header .frameHeader .skip ∧
      (after (runControl (moveBound skipping) skipping)).isSome = true) :=
  ⟨⟨calm_inv (by decide +kernel), by decide +kernel, by decide +kernel⟩,
    ⟨calm_inv (by decide +kernel), by decide +kernel, by decide +kernel, by decide +kernel⟩, by decide +kernel,
    ⟨calm_inv (by decide +kernel), by decide +kernel, by decide +kernel⟩⟩

/-- A closed reader. -/
def closed (events : List Event) : State :=
  let s := State.initial server
  { s with events := events, r := { s.r with RSTATE := .closed, RERR := .endOfStream, MORE := 2 } }

theorem witness_AClosedReaderAnswersItsStatusForEver : (closed []).RLOCK = none ∧ (closed []).r.RSTATE = .closed ∧
    (closed [.host ⟨0x04, Operands.zero⟩]).Inv ∧
    (after (step (closed [.host ⟨0x04, Operands.zero⟩]))).isSome = true :=
  ⟨rfl, rfl, calm_inv (by decide +kernel), by decide +kernel⟩

/-! #### The read buffer and the header fetch -/

/-- B3 slides, B2 does not; B5 is the panic. -/
theorem witness_CompactionKeepsTheUnreadOctets :
    CursorInv (window 20 27 32 6) ∧ (fill (window 20 27 32 6)).isSome = true ∧
    (window 20 27 32 6).r.I ≥ (window 20 27 32 6).r.END / 2 ∧
    CursorInv (window 0 0 2 0) ∧ (fill (window 0 0 2 0)).isSome = true ∧
    (window 0 0 2 0).r.I < (window 0 0 2 0).r.END / 2 ∧
    CursorInv (window 0 13 32 6) ∧ fill (window 0 13 32 6) = none :=
  ⟨⟨by decide +kernel, by decide +kernel, by decide +kernel, by decide +kernel, by decide +kernel, by decide +kernel⟩,
    by decide +kernel, by decide +kernel,
    ⟨by decide +kernel, by decide +kernel, by decide +kernel, by decide +kernel, by decide +kernel, by decide +kernel⟩,
    by decide +kernel, by decide +kernel,
    ⟨by decide +kernel, by decide +kernel, by decide +kernel, by decide +kernel, by decide +kernel, by decide +kernel⟩,
    by decide +kernel⟩
theorem witness_FillFindsRoomWhereTheReaderCallsIt : partialHeader.Inv ∧
    partialHeader.reader = .header (.read 5) .fetch ∧
    partialHeader.r.RBUF.readBytes partialHeader.r.ST (partialHeader.r.END - partialHeader.r.ST) = some [0x82] ∧
    parseChecked partialHeader.cfg [0x82] 0 = .needMore ∧
    (State.initial client).Inv ∧ (State.initial client).r.I = (State.initial client).r.END :=
  ⟨calm_inv (by decide +kernel), by decide +kernel, by decide +kernel, by decide +kernel, calm_inv (by decide +kernel),
    by decide +kernel⟩

/-- A new connection with octets in the buffer. -/
def buffered (buf : List Byte) (rx : List RxAnswer) : State := conn { server with preload := buf } rx []

theorem witness_ReadFrameHeaderReturnsTheNextDataFrame :
    (buffered p1 []).RLOCK = none ∧ (buffered p1 []).r.RSTATE ≠ .closed ∧ (buffered p1 []).r.MORE = 0 ∧
    (buffered p1 []).r.RBUF.readBytes (buffered p1 []).r.I ((buffered p1 []).r.END - (buffered p1 []).r.I) = some p1 ∧
    parseChecked (buffered p1 []).cfg p1 0 = .ok 0x8185 5 keyA 6 ∧
    (hdrOpcode 0x8185).toNat ∈ [0, 1, 2] := by decide +kernel
theorem witness_ReadRawFrameHeaderReturnsAnyKnownFrame :
    (buffered [0x8A, 0x7D] []).RLOCK = none ∧ (buffered [0x8A, 0x7D] []).r.RSTATE ≠ .closed ∧
    (buffered [0x8A, 0x7D] []).r.MORE = 0 ∧
    (buffered [0x8A, 0x7D] []).r.RBUF.readBytes (buffered [0x8A, 0x7D] []).r.I
      ((buffered [0x8A, 0x7D] []).r.END - (buffered [0x8A, 0x7D] []).r.I) = some [0x8A, 0x7D] ∧
    parseChecked (buffered [0x8A, 0x7D] []).cfg [0x8A, 0x7D] 0 = .ok 0x8A7D 125 ⟨0, 0, 0, 0⟩ 2 ∧
    (hdrOpcode 0x8A7D).toNat ∈ [0, 1, 2, 8, 9, 10] := by decide +kernel
/-- What the transport has ready is octets alone, checked. -/
def dataAlone (rx : List RxAnswer) : Bool :=
  rx.all fun a => match a with
    | .data _ => true
    | .eof => false
    | .timeout => false
    | .err _ => false

theorem dataAlone_spec {rx : List RxAnswer} (h : dataAlone rx = true) : ∀ a ∈ rx, ∃ d, a = RxAnswer.data d := by
  intro a ha
  have h1 := List.all_eq_true.mp h a ha
  cases a with
  | data d => exact ⟨d, rfl⟩
  | eof => cases h1
  | timeout => cases h1
  | err e => cases h1

/-- A Text frame's header in three pieces, one of them buffered; a Pong's; and the Text frame's whole in the buffer. -/
theorem witness_AHeaderIsFoundHoweverItsOctetsArrive (x : Instr × Byte × List Nat × State × BitVec 16 × Nat × Key × Nat)
    (h : x ∈ [(.readFrameHeader, 0x01, [0, 1, 2], buffered [0x81] [.data [0x85], .data (p1.drop 2)], 0x8185, 5, keyA, 6),
      (.readRawFrameHeader, 0x02, [0, 1, 2, 8, 9, 10], buffered [] [.data [0x8A], .data [0x7D]], 0x8A7D, 125,
        ⟨0, 0, 0, 0⟩, 2),
      (.readFrameHeader, 0x01, [0, 1, 2], buffered p1 [], 0x8185, 5, keyA, 6)]) :
    let (i, code, ops, s, bits, len, key, next) := x
    (i, code, ops) ∈ [(Instr.readFrameHeader, (0x01 : Byte), [0, 1, 2]),
      (.readRawFrameHeader, 0x02, [0, 1, 2, 8, 9, 10])] ∧
    s.Inv ∧ s.RLOCK = none ∧ s.r.RSTATE ≠ .closed ∧ s.r.MORE = 0 ∧ (∀ a ∈ s.env.rx, ∃ d, a = RxAnswer.data d) ∧
    parseChecked s.cfg (unread s) 0 = .ok bits len key next ∧ (hdrOpcode bits).toNat ∈ ops := by
  simp only [List.mem_cons, List.not_mem_nil, or_false] at h
  rcases h with rfl | rfl | rfl <;>
    exact ⟨by decide +kernel, calm_inv (by decide +kernel), by decide +kernel, by decide +kernel, by decide +kernel,
      dataAlone_spec (by decide +kernel), by decide +kernel, by decide +kernel⟩
theorem witness_HeaderCommandsRefuseAnUnreadPayload : (inPayload server [] 1 keyA []).RLOCK = none ∧
    (inPayload server [] 1 keyA []).r.RSTATE ≠ .closed ∧ (inPayload server [] 1 keyA []).r.MORE > 0 := by decide +kernel

/-- An octet of a header is buffered, and the transport answers `a`. -/
theorem witness_ATransportStatusInAHeaderFetchIsNotFatal (a : RxAnswer)
    (h : a ∈ [RxAnswer.eof, .timeout, .err 7]) :
    (Instr.read 3, HeaderCall.read 3) ∈ [(Instr.readFrameHeader, HeaderCall.frameHeader),
      (.readRawFrameHeader, .rawFrameHeader), (.read 3, .read 3)] ∧
    (buffered [0x82] [a]).Inv ∧ (buffered [0x82] [a]).RLOCK = none ∧ (buffered [0x82] [a]).r.RSTATE ≠ .closed ∧
    (buffered [0x82] [a]).r.MORE = 0 ∧
    (buffered [0x82] [a]).r.RBUF.readBytes (buffered [0x82] [a]).r.I
      ((buffered [0x82] [a]).r.END - (buffered [0x82] [a]).r.I) = some [0x82] ∧
    parseChecked (buffered [0x82] [a]).cfg [0x82] 0 = .needMore ∧ (buffered [0x82] [a]).env.rx = a :: [] ∧
    (∀ d, a ≠ .data d) := by
  simp only [List.mem_cons, List.not_mem_nil, or_false] at h
  rcases h with rfl | rfl | rfl <;>
    exact ⟨by decide +kernel, calm_inv (by decide +kernel), by decide +kernel, by decide +kernel, by decide +kernel,
      by decide +kernel, by decide +kernel, by decide +kernel, by simp⟩
/-- Both clauses, with nothing and with two pieces on the transport that do not complete the header. -/
theorem witness_APartialHeaderWaitsForItsOctets (rx : List RxAnswer)
    (h : rx ∈ [[], [RxAnswer.data [0xFE], .data [0x00]]]) :
    let s := buffered [0x82] rx
    let u : State := { partialHeader with env := { partialHeader.env with rx := rx } }
    (s.Inv ∧ s.RLOCK = none ∧ s.r.RSTATE ≠ .closed ∧ s.r.MORE = 0 ∧ (∀ a ∈ s.env.rx, ∃ d, a = RxAnswer.data d) ∧
      parseChecked s.cfg (unread s) 0 = .needMore) ∧
    (u.Inv ∧ u.events = .reader 0 :: [] ∧ u.reader = .header (.read 5) .fetch ∧
      (∀ a ∈ u.env.rx, ∃ d, a = RxAnswer.data d) ∧ parseChecked u.cfg (unread u) 0 = .needMore) := by
  simp only [List.mem_cons, List.not_mem_nil, or_false] at h
  rcases h with rfl | rfl <;>
    exact ⟨⟨calm_inv (by decide +kernel), by decide +kernel, by decide +kernel, by decide +kernel,
        dataAlone_spec (by decide +kernel), by decide +kernel⟩,
      calm_inv (by decide +kernel), by decide +kernel, by decide +kernel, dataAlone_spec (by decide +kernel),
      by decide +kernel⟩

/-- Both checks enforced, and a header that fails all three: RSV, MASK, length. -/
def strict : Config := { server with rsvEnforce := true, maskEnforce := true }
def oversize (b0 b1 : Byte) : List Byte := [b0, b1, 0x40, 0, 0, 0, 0, 0, 0, 0]

theorem witness_HeaderFaultsAreReportedInTheirOrder (b0 b1 : Byte)
    (h : (b0, b1) ∈ [((0xC2 : Byte), (0x7F : Byte)), (0x82, 0x7F), (0x82, 0xFF)]) :
    let s := fetching strict .frameHeader (oversize b0 b1)
    s.reader = .header .frameHeader .fetch ∧
    s.r.RBUF.readBytes s.r.ST (s.r.END - s.r.ST) = some (b0 :: b1 :: [0x40, 0, 0, 0, 0, 0, 0, 0]) := by
  simp only [List.mem_cons, List.not_mem_nil, or_false, Prod.mk.injEq] at h
  rcases h with ⟨rfl, rfl⟩ | ⟨rfl, rfl⟩ | ⟨rfl, rfl⟩ <;> decide +kernel
/-- The three headers fall under the three clauses: RSV before MASK before the length. -/
theorem witness_HeaderFaults_clauses :
    (strict.rsvEnforce = true ∧ (0xC27F : BitVec 16).toNat / 4096 % 8 ≠ 0) ∧
    ((0x827F : BitVec 16).toNat / 4096 % 8 = 0 ∧ strict.maskEnforce = true ∧
      (0x827F : BitVec 16).getLsbD 7 = decide (strict.role = .client)) ∧
    ((0x82FF : BitVec 16).toNat / 4096 % 8 = 0 ∧ (0x82FF : BitVec 16).getLsbD 7 ≠ decide (strict.role = .client) ∧
      (0x82FF : BitVec 16).toNat % 128 = 127 ∧ (0x40 : Byte).toNat / 64 ≠ 0) := by decide +kernel

/-! #### Frames -/

/-- For the statements about data frames, reserved opcodes and raw control frames. -/
theorem witness_frames : (Instr.text plain, (1 : BitVec 4)) ∈ [(Instr.cont plain, 0), (.text plain, 1), (.bin plain, 2)] ∧
    (Instr.rsvdF plain, (15 : BitVec 4)) ∈ [(Instr.rsvd3 plain, 3), (.rsvd4 plain, 4), (.rsvd5 plain, 5),
      (.rsvd6 plain, 6), (.rsvd7 plain, 7), (.rsvdB plain, 11), (.rsvdC plain, 12), (.rsvdD plain, 13), (.rsvdE plain, 14),
      (.rsvdF plain, 15)] ∧
    (Instr.pong plain, (10 : BitVec 4)) ∈ [(Instr.close plain, 8), (.ping plain, 9), (.pong plain, 10)] ∧
    (fetching server (.read 3) [0x81, 0x00]).reader = .header (.read 3) .fetch ∧
    (fetching server .rawFrameHeader [0x8A, 0x00]).reader = .header .rawFrameHeader .fetch := by decide +kernel

/-- A header of `len` octets of payload, not masked. -/
def short (len : BitVec 7) : Head := ⟨true, 0, .short len, none⟩

/-- A Close of `len` octets, all of them buffered. -/
def closed128 (len : BitVec 16) : List Byte :=
  0x88 :: 0x7E :: BitVec.ofNat 8 (len.toNat / 256) :: BitVec.ofNat 8 len.toNat :: List.replicate len.toNat 0x61

/-- The first clause at payloads of 0, 1, 2, 128 and 129 octets. -/
theorem witness_ACloseFrameEndsTheStream (x : Head × List Byte)
    (h : x ∈ [(short 0, [0x88, 0x00]), (short 1, [0x88, 0x01, 0x03]), (short 2, [0x88, 0x02, 0x03, 0xE8]),
      (⟨true, 0, .ext16 128, none⟩, closed128 128), (⟨true, 0, .ext16 129, none⟩, closed128 129)]) :
    let s := fetching server (.read 3) x.2
    s.reader = .header (.read 3) .fetch ∧ HeaderCall.read 3 ≠ .rawFrameHeader ∧
    s.r.ST + (x.1.octets 8).length + min 128 x.1.len.length ≤ s.r.END ∧
    (s.r.RBUF.readBytes (s.r.ST + (x.1.octets 8).length) (min 128 x.1.len.length)).isSome = true := by
  simp only [List.mem_cons, List.not_mem_nil, or_false] at h
  rcases h with rfl | rfl | rfl | rfl | rfl <;> decide +kernel

/-- A fetch with `buf` buffered and `rx` on the transport. -/
def arriving (cfg : Config) (buf : List Byte) (rx : List RxAnswer) : State :=
  let s := fetching cfg .frameHeader buf
  { s with env := { s.env with rx := rx } }

/-- The other clauses on a Close of two octets: the second arrives (K9), with octets behind it; the stream ends after one
octet (K10) and after none; the transport fails (K11); nothing more arrives. -/
theorem witness_ACloseFrameEndsTheStream_arriving (x : List Byte × List (List Byte) × List RxAnswer)
    (h : x ∈ [([0x03], [[0xE8, 0x81]], []), ([0x03], [], [.eof]), ([], [], [.eof]), ([], [[0x03]], [.timeout]),
      ([], [[], [0x03]], [])]) :
    let s := arriving server (0x88 :: 0x02 :: x.1) (x.2.1.map RxAnswer.data ++ x.2.2)
    s.Inv ∧ s.reader = .header .frameHeader .fetch ∧ (short 2).wellFormed = true ∧
    s.r.ST + ((short 2).octets 8).length ≤ s.r.END ∧
    s.r.RBUF.readBytes (s.r.ST + ((short 2).octets 8).length) (s.r.END - (s.r.ST + ((short 2).octets 8).length)) =
      some x.1 ∧
    s.env.rx = x.2.1.map RxAnswer.data ++ x.2.2 := by
  simp only [List.mem_cons, List.not_mem_nil, or_false] at h
  rcases h with rfl | rfl | rfl | rfl | rfl <;>
    exact ⟨calm_inv (by decide +kernel), by decide +kernel, by decide +kernel, by decide +kernel, by decide +kernel,
      by decide +kernel⟩
theorem witness_APongIsDropped : (fetching server .frameHeader [0x8A, 0x02, 9, 9]).reader = .header .frameHeader .fetch ∧
    HeaderCall.frameHeader ≠ .rawFrameHeader ∧
    0 + ((short 2).octets 10).length + (short 2).len.length ≤
      (fetching server .frameHeader [0x8A, 0x02, 9, 9]).r.END := by decide +kernel
/-- The second clause: three of five octets in two pieces, a frame behind them. -/
theorem witness_APongIsDropped_arriving :
    let s := arriving server [0x8A, 0x05, 1, 2] ([[3], [4, 5, 0x81, 0x00]].map RxAnswer.data ++ [.eof])
    s.Inv ∧ s.reader = .header .frameHeader .fetch ∧ (short 5).wellFormed = true ∧
    s.r.ST + ((short 5).octets 10).length ≤ s.r.END ∧
    s.r.RBUF.readBytes (s.r.ST + ((short 5).octets 10).length) (s.r.END - (s.r.ST + ((short 5).octets 10).length)) =
      some [1, 2] ∧
    (short 5).len.length ≤ ([(1 : Byte), 2] ++ ([[3], [4, 5, 0x81, 0x00]] : List (List Byte)).flatten).length :=
  ⟨calm_inv (by decide +kernel), by decide +kernel, by decide +kernel, by decide +kernel, by decide +kernel,
    by decide +kernel⟩

/-- A Ping of two octets whole in the buffer, with an answer of the transport's send side. -/
def pinged (cfg : Config) (tx : List TxAnswer) (wlock : Option Agent) : State :=
  let s := fetching cfg .frameHeader [0x89, 0x02, 0x01, 0x02]
  { s with WLOCK := wlock, env := { s.env with tx := tx } }

theorem witness_APingIsSentBackWithItsOpcodeRewritten :
    let s := pinged server [⟨4, .ok⟩] none
    let total := ((short 2).octets 9).length + (short 2).len.length
    s.reader = .header .frameHeader .fetch ∧ HeaderCall.frameHeader ≠ .rawFrameHeader ∧
    s.cfg.pongMode = .passthrough ∧ s.WLOCK = none ∧ total ≤ s.cfg.rbufSize ∧ s.r.ST + total ≤ s.r.END ∧
    s.r.RBUF.readBytes s.r.ST total = some (0x89 :: [0x02, 0x01, 0x02]) ∧ s.env.tx = ⟨4, .ok⟩ :: [] ∧ total ≤ 4 := by
  decide +kernel
theorem witness_APingIsAnsweredWithAFreshPong (cfg : Config)
    (h : cfg ∈ [{ server with pongMode := .fresh }, { client with pongMode := .fresh }]) :
    let s := pinged cfg [⟨16, .ok⟩] none
    let hs := ((short 2).octets 9).length
    s.reader = .header .frameHeader .fetch ∧ s.cfg.pongMode = .fresh ∧ s.WLOCK = none ∧
    hs + (short 2).len.length ≤ s.cfg.rbufSize ∧ s.r.ST + (hs + (short 2).len.length) ≤ s.r.END ∧
    s.r.RBUF.readBytes (s.r.ST + hs) (short 2).len.length = some [0x01, 0x02] ∧
    s.env.tx = ⟨16, .ok⟩ :: [] ∧ (short 2).len.length + 14 ≤ 16 ∧ s.env.rand = [] := by
  simp only [List.mem_cons, List.not_mem_nil, or_false] at h
  rcases h with rfl | rfl <;> decide +kernel
/-- A Ping of five octets of which two are buffered, at the start of the buffer and at its very end (where it must be
compacted): the other three arrive, only one does, and the stream ends after one. -/
theorem witness_APingIsGatheredBeforeItIsAnswered (x : Nat × List (List Byte) × List RxAnswer)
    (h : x ∈ [(0, [[3], [4, 5, 0x81]], []), (28, [[3], [4, 5, 0x81]], []), (28, [[3]], []), (0, [[3]], [RxAnswer.eof])]) :
    let s0 := arriving { server with rbufSize := 32 } (List.replicate x.1 0x55 ++ [0x89, 0x05, 1, 2])
      (x.2.1.map RxAnswer.data ++ x.2.2)
    let s := { s0 with r := { s0.r with ST := x.1, I := x.1 } }
    s.Inv ∧ s.reader = .header .frameHeader .fetch ∧ (short 5).wellFormed = true ∧
    ((short 5).octets 9).length + (short 5).len.length ≤ s.cfg.rbufSize ∧
    s.r.RBUF.readBytes s.r.ST (s.r.END - s.r.ST) = some [0x89, 0x05, 1, 2] ∧
    ((short 5).octets 9).length ≤ [(0x89 : Byte), 0x05, 1, 2].length ∧ s.env.rx = x.2.1.map RxAnswer.data ++ x.2.2 := by
  simp only [List.mem_cons, List.not_mem_nil, or_false] at h
  rcases h with rfl | rfl | rfl | rfl <;>
    exact ⟨calm_inv (by decide +kernel), by decide +kernel, by decide +kernel, by decide +kernel, by decide +kernel,
      by decide +kernel, by decide +kernel⟩
/-- PG4's frame with the least payload that does not fit: 2 + 31 > 32. -/
theorem witness_APingThatCannotFitPanics :
    let s := fetching { server with rbufSize := 32 } .frameHeader [0x89, 0x1F]
    s.reader = .header .frameHeader .fetch ∧
    ((short 31).octets 9).length + (short 31).len.length > s.cfg.rbufSize := by decide +kernel
theorem witness_APingWaitsForTheWriteLock :
    let s := pinged server [] (some .writer)
    s.reader = .header .frameHeader .fetch ∧ s.WLOCK = some .writer ∧
    ((short 2).octets 9).length + (short 2).len.length ≤ s.cfg.rbufSize ∧
    s.r.ST + ((short 2).octets 9).length + (short 2).len.length ≤ s.r.END := by decide +kernel
/-- The transport refuses the Pong, or takes one octet less. -/
theorem witness_AFailedPongClosesTheReader (a : TxAnswer) (h : a ∈ [⟨4, .err 7⟩, ⟨3, .ok⟩]) :
    let s := pinged server [a] none
    let total := ((short 2).octets 9).length + (short 2).len.length
    s.reader = .header .frameHeader .fetch ∧ s.cfg.pongMode = .passthrough ∧ s.WLOCK = none ∧
    total ≤ s.cfg.rbufSize ∧ s.r.ST + total ≤ s.r.END ∧
    s.r.RBUF.readBytes s.r.ST total = some (0x89 :: [0x02, 0x01, 0x02]) ∧ s.env.tx = a :: [] ∧
    (a.status ≠ .ok ∨ a.accept < total) := by
  simp only [List.mem_cons, List.not_mem_nil, or_false] at h
  rcases h with rfl | rfl <;> decide +kernel
/-- The same of a fresh Pong, of a server and of a client with and without a draw. -/
theorem witness_AFailedPongClosesTheReader_fresh (a : TxAnswer) (h : a ∈ [⟨4, .err 7⟩, ⟨3, .ok⟩])
    (cfg : Config) (hc : cfg ∈ [{ server with pongMode := .fresh }, { client with pongMode := .fresh }])
    (keys : List Key) (hk : keys ∈ [[], [keyA]]) :
    let s0 := pinged cfg [a] none
    let s := { s0 with env := { s0.env with rand := keys } }
    let hs := ((short 2).octets 9).length
    s.reader = .header .frameHeader .fetch ∧ s.cfg.pongMode = .fresh ∧ s.WLOCK = none ∧
    hs + (short 2).len.length ≤ s.cfg.rbufSize ∧ s.r.ST + (hs + (short 2).len.length) ≤ s.r.END ∧
    s.r.RBUF.readBytes (s.r.ST + hs) (short 2).len.length = some [0x01, 0x02] ∧ s.env.tx = a :: [] ∧
    (a.status ≠ .ok ∨ a.accept < (encodeHeader 10 true false ⟨0, 0, 0, 0⟩ 2 ++ [0x01, 0x02]).length) := by
  simp only [List.mem_cons, List.not_mem_nil, or_false] at h hc hk
  rcases h with rfl | rfl <;> rcases hc with rfl | rfl <;> rcases hk with rfl | rfl <;> decide +kernel
/-- Two of five octets buffered, with and without another that arrives before the status. -/
theorem witness_ATransportStatusInAPongIsFatal (chunks : List (List Byte)) (h : chunks ∈ [[], [[3]]]) (a : RxAnswer)
    (ha : a ∈ [RxAnswer.eof, .timeout, .err 7]) :
    let s := arriving server [0x8A, 0x05, 0x09, 0x09] (chunks.map RxAnswer.data ++ a :: [])
    s.Inv ∧ s.reader = .header .frameHeader .fetch ∧ (short 5).wellFormed = true ∧
    s.r.ST + ((short 5).octets 10).length ≤ s.r.END ∧
    s.r.RBUF.readBytes (s.r.ST + ((short 5).octets 10).length) (s.r.END - (s.r.ST + ((short 5).octets 10).length)) =
      some [0x09, 0x09] ∧
    s.env.rx = chunks.map RxAnswer.data ++ a :: [] ∧ (∀ d, a ≠ .data d) ∧
    ([(0x09 : Byte), 0x09] ++ chunks.flatten).length < (short 5).len.length := by
  simp only [List.mem_cons, List.not_mem_nil, or_false] at h ha
  rcases h with rfl | rfl <;> rcases ha with rfl | rfl | rfl <;>
    exact ⟨calm_inv (by decide +kernel), by decide +kernel, by decide +kernel, by decide +kernel, by decide +kernel,
      by decide +kernel, by simp, by decide +kernel⟩

/-! #### Delivery -/

/-- Two octets of a payload of five buffered, the other three in two chunks on the transport; the whole payload, and
nothing, are asked for. -/
def straddling : State := inPayload server [0x5F, 0x9F] 5 keyA [.data [0x4D], .data [0x51, 0x58, 0x82]]

theorem witness_delivery : straddling.Inv ∧ straddling.RLOCK = none ∧ straddling.r.RSTATE ≠ .closed ∧
    0 < straddling.r.MORE ∧ (∀ a ∈ straddling.env.rx, ∃ d, a = RxAnswer.data d) ∧
    min 5 straddling.r.MORE ≤ (unread straddling).length ∧ min 0 straddling.r.MORE ≤ (unread straddling).length ∧
    min 2 straddling.r.MORE ≤ straddling.r.END - straddling.r.I :=
  ⟨calm_inv (by decide +kernel), by decide +kernel, by decide +kernel, by decide +kernel,
    dataAlone_spec (by decide +kernel), by decide +kernel, by decide +kernel, by decide +kernel⟩
/-- DF1: the direct path, in a buffer of 32 octets. -/
theorem witness_delivery_direct :
    let s := inPayload { server with rbufSize := 32 } [0x41] 37 Key.zero [.data (List.replicate 36 0x41)]
    s.Inv ∧ s.RLOCK = none ∧ s.r.RSTATE ≠ .closed ∧ 0 < s.r.MORE ∧ (∀ a ∈ s.env.rx, ∃ d, a = RxAnswer.data d) ∧
    min 37 s.r.MORE ≤ (unread s).length ∧ min 37 s.r.MORE - (s.r.END - s.r.I) ≥ s.cfg.rbufSize - 16 :=
  ⟨calm_inv (by decide +kernel), by decide +kernel, by decide +kernel, by decide +kernel,
    dataAlone_spec (by decide +kernel), by decide +kernel, by decide +kernel⟩
theorem witness_ReadFetchesAFrameAndDelivers :
    let s := buffered (p1.take 8) [.data (p1.drop 8)]
    s.Inv ∧ s.RLOCK = none ∧ s.r.RSTATE ≠ .closed ∧ s.r.MORE = 0 ∧
    s.r.RBUF.readBytes s.r.I (s.r.END - s.r.I) = some (p1.take 8) ∧
    parseChecked s.cfg (p1.take 8) 0 = .ok 0x8185 5 keyA 6 ∧ (hdrOpcode 0x8185).toNat ∈ [0, 1, 2] ∧
    (∀ a ∈ s.env.rx, ∃ d, a = RxAnswer.data d) ∧ 6 + min 16 5 ≤ (unread s).length :=
  ⟨calm_inv (by decide +kernel), by decide +kernel, by decide +kernel, by decide +kernel, by decide +kernel,
    by decide +kernel, by decide +kernel, dataAlone_spec (by decide +kernel), by decide +kernel⟩
/-- X13 and X14: some octets, and none, before the end. -/
theorem witness_AnEndOfStreamAfterOctetsIsSwallowed (bs : List Byte) (h : bs ∈ [[], [(0x01 : Byte), 0x02]]) :
    let s := inPayload server bs 5 Key.zero [.eof]
    s.Inv ∧ s.RLOCK = none ∧ s.r.RSTATE ≠ .closed ∧ s.r.RBUF.readBytes s.r.I (s.r.END - s.r.I) = some bs ∧
    bs.length < min 8 s.r.MORE ∧ s.env.rx = .eof :: [] := by
  simp only [List.mem_cons, List.not_mem_nil, or_false] at h
  rcases h with rfl | rfl <;>
    exact ⟨calm_inv (by decide +kernel), by decide +kernel, by decide +kernel, by decide +kernel, by decide +kernel,
      by decide +kernel⟩

/-! #### The writer -/

/-- A server's and a client's write, with and without an answer of the transport and a draw; a bounded write buffer that
just holds the frame, and one that does not. -/
theorem witness_writes :
    hi.length ≤ 2 ^ 62 - 1 ∧ ({ server with wbufCap := some 16 } : Config).wbufCap = some 16 ∧ 14 + hi.length ≤ 16 ∧
    14 + hi.length > 15 ∧
    (conn server [] [ample]).WLOCK = none ∧ (conn server [] [ample]).cfg.role = .server ∧
    (conn server [] [ample]).env.tx = ample :: [] ∧
    (conn client [] [ample]).cfg.role = .client ∧ (conn client [] [ample]).env.rand = [] ∧
    ({ conn client [] [ample] with env := ⟨[], [ample], [], [keyA], false, 0⟩ } : State).env.rand = keyA :: [] := by
  decide +kernel
/-- A W-port command finds no answer of the transport, as a server and as a client with and without a draw. -/
theorem witness_AWriteWaitsInTWriteHoldingItsLock (cfg : Config) (hc : cfg ∈ [server, client]) (keys : List Key)
    (hk : keys ∈ [[], [keyA]]) :
    let s : State := { conn cfg [] [] with env := ⟨[], [], [], keys, false, 0⟩ }
    s.WLOCK = none ∧ s.env.tx = [] ∧ s.env.rand = keys ∧ s.w.WCLOSED = false ∧ hi.length ≤ 2 ^ 62 - 1 ∧
    s.cfg.wbufCap = none := by
  simp only [List.mem_cons, List.not_mem_nil, or_false] at hc hk
  rcases hc with rfl | rfl <;> rcases hk with rfl | rfl <;> decide +kernel
/-- A frame of each of the four commands waits in `TWrite`, and its answer is there; `TCLOSED` clear and set, `TClose`
answered and not. -/
theorem witness_AWriteWaitsInTWriteHoldingItsLock_ends (call : WriteCall)
    (hc : call ∈ [WriteCall.writeFrame, .write, .closeWriter, .closeConn]) (tclosed : Bool)
    (closes : List SendStatus) (hl : closes ∈ [[], [SendStatus.err 7]]) :
    let s := { conn server [] [] with
      events := [.writer 0], writer := .sending call 2 2, WLOCK := some .writer
      w := ⟨Memory.writeBytes [] 0 [0x88, 0x02, 0x03, 0xE8], 4, true, tclosed⟩
      env := ⟨[], [⟨3, .ok⟩], closes, [], false, 0⟩ }
    s.events = .writer 0 :: [] ∧ s.writer = .sending call 2 2 ∧
    s.w.WBUF.readBytes 0 s.w.WLEN = some [0x88, 0x02, 0x03, 0xE8] ∧
    [(0x88 : Byte), 0x02, 0x03, 0xE8].length = 2 + 2 ∧ s.env.tx = ⟨3, .ok⟩ :: [] ∧ s.w.TCLOSED = tclosed ∧
    s.env.closes = closes := by
  simp only [List.mem_cons, List.not_mem_nil, or_false] at hc hl
  rcases hc with rfl | rfl | rfl | rfl <;> rcases hl with rfl | rfl <;> cases tclosed <;> decide +kernel
/-- The clauses of `CloseWriterSendsOneCloseFrame` and `CloseConnClosesTheTransportOnce`: `WCLOSED` and `TCLOSED` clear and
set, with and without answers and draws. -/
theorem witness_closes :
    (conn server [] [ample]).WLOCK = none ∧ (conn server [] [ample]).w.WCLOSED = false ∧
    (conn server [] [ample]).env.tx = ample :: [] ∧ (conn server [] [ample]).w.TCLOSED = false ∧
    (conn server [] [ample]).env.closes = [] ∧
    ({ conn server [] [] with w := ⟨[], 0, true, true⟩ } : State).w.WCLOSED = true ∧
    ({ conn server [] [] with w := ⟨[], 0, true, true⟩ } : State).w.TCLOSED = true ∧
    ({ conn client [] [] with env := ⟨[], [], [.err 7], [keyA], false, 0⟩ } : State).env.closes = .err 7 :: [] := by
  decide +kernel

end Sys2Proof.Tests
end

/-! ## Creation (00_scope.md R5, 70_reset_and_hazards.md R292) -/

namespace Sys2Proof.Machine

/-- The check `Config.legal` computes, as the two bounds it names. -/
theorem Config.legal_eq_true_iff (cfg : Config) :
    cfg.legal = true ↔ 32 ≤ cfg.rbufSize ∧ cfg.preload.length ≤ cfg.rbufSize := by
  simp only [Config.legal, minRbufSize, Bool.and_eq_true, decide_eq_true_eq]

/-- A configuration is illegal exactly when one of the two bounds is broken. -/
theorem Config.not_legal_iff (cfg : Config) :
    ¬ cfg.legal = true ↔ cfg.rbufSize < 32 ∨ cfg.preload.length > cfg.rbufSize := by
  rw [Config.legal_eq_true_iff, not_and_or, not_le, not_le]

theorem State.create_of_legal {cfg : Config} (h : cfg.legal = true) :
    State.create cfg = some (State.initial cfg) :=
  if_pos h

theorem State.create_of_not_legal {cfg : Config} (h : ¬ cfg.legal = true) : State.create cfg = none :=
  if_neg h

/-- Creation answers nothing exactly for the configurations the check rejects. -/
theorem State.create_eq_none_iff (cfg : Config) : State.create cfg = none ↔ ¬ cfg.legal = true := by
  refine ⟨fun hnone hlegal => ?_, State.create_of_not_legal⟩
  rw [State.create_of_legal hlegal] at hnone
  exact absurd hnone (Option.some_ne_none _)

/-- Settles O17: creation branches on `Config.legal` alone, and its negation is the two broken bounds. -/
theorem creationIsRefusedExactlyWhenIllegal : Obligations.CreationIsRefusedExactlyWhenIllegal := by
  intro cfg
  rw [← Config.not_legal_iff]
  exact ⟨State.create_eq_none_iff cfg, fun h => State.create_of_legal (not_not.mp h)⟩

end Sys2Proof.Machine

/-! ## A new connection (10_state.md R46, R291) -/

namespace Sys2Proof.Machine

/-- `PRELOAD` stands in `RBUF` from index 0 up, and no other octet does (R291). -/
theorem initial_readByte_RBUF (cfg : Config) (a : Nat) :
    (State.initial cfg).r.RBUF.readByte a = cfg.preload[a]? := by
  show (Memory.writeBytes [] 0 cfg.preload).readByte a = _
  rw [readByte_writeBytes]
  split
  · rw [Nat.sub_zero]
  · rw [List.getElem?_eq_none (by omega)]
    rfl

/-- Settles O16: every register is read off `State.initial`; `RBUF` alone is written to. -/
theorem aNewConnectionHasTheResetValues : Obligations.ANewConnectionHasTheResetValues := fun cfg =>
  ⟨rfl, rfl, rfl, rfl, rfl, rfl, rfl, rfl, rfl, rfl, rfl, rfl, rfl, rfl, initial_readByte_RBUF cfg, fun _ => rfl,
    fun _ => rfl⟩

/-- The cursors of a new connection: nothing is consumed, and the window is `PRELOAD` (R37, R291). -/
theorem initial_cursorInv {cfg : Config} (h : cfg.preload.length ≤ cfg.rbufSize) : CursorInv (State.initial cfg) where
  st_le_i := le_rfl
  i_le_end := Nat.zero_le _
  end_le_size := h
  filled := by simpa [State.initial] using window_writeBytes (m := []) (n := 0) rfl cfg.preload
  start_le_i := le_rfl
  payload := by simp [State.initial]

/-- A new connection runs no command and composes no frame, so only the cursors and `RBUF` have content. -/
theorem initial_inv {cfg : Config} (h : cfg.legal = true) : (State.initial cfg).Inv where
  legal := h
  cursors := initial_cursorInv ((Config.legal_eq_true_iff cfg).mp h).2
  reader := fun _ => rfl
  closedBy := fun h => nomatch h
  rlock := rfl
  wlock := rfl
  oneWriter := fun _ => rfl
  wlen := fun _ _ => rfl
  sending := fun _ _ _ h => nomatch h
  composed := fun a ha => absurd ha (Nat.not_lt_zero a)
  wbufWf := rfl
  cbufWf := rfl
  cbufSize := fun _ h => absurd h List.not_mem_nil
  rWait := fun _ h => absurd h List.not_mem_nil
  wWait := fun _ h => absurd h List.not_mem_nil

/-- Settles O19: creation gives `State.initial` of a legal configuration, or nothing. -/
theorem everyLegalCreationMeetsTheInvariant : Obligations.EveryLegalCreationMeetsTheInvariant := by
  intro cfg s hs
  by_cases h : cfg.legal = true
  · rw [State.create_of_legal h, Option.some.injEq] at hs
    exact hs ▸ initial_inv h
  · rw [State.create_of_not_legal h] at hs
    cases hs

/-- Settles O18: the parameters' defaults are legal. -/
theorem theResetStateMeetsTheInvariant : Obligations.TheResetStateMeetsTheInvariant :=
  initial_inv (by decide)

end Sys2Proof.Machine

/-! ## Every step (10_state.md R20, R33 to R41; 20_memory.md R65) -/

namespace Sys2Proof.Machine

variable {s t u : State}

/-- What no step changes, and what it only extends (10_state.md R20, R33, R34; 20_memory.md R65): the part of
`ReaderFrame` and `WriterFrame` that the two sides share. -/
structure StepFrame (s t : State) : Prop where
  cfg : t.cfg = s.cfg
  wclosed : s.w.WCLOSED = true → t.w.WCLOSED = true
  tclosed : s.w.TCLOSED = true → t.w.TCLOSED = true
  trace : s.trace <:+ t.trace
  responses : s.responses <:+ t.responses

theorem StepFrame.refl (s : State) : StepFrame s s := ⟨rfl, id, id, List.suffix_rfl, List.suffix_rfl⟩

theorem StepFrame.trans (h : StepFrame s t) (h' : StepFrame t u) : StepFrame s u :=
  ⟨h'.cfg.trans h.cfg, fun hw => h'.wclosed (h.wclosed hw), fun ht => h'.tclosed (h.tclosed ht),
    h.trace.trans h'.trace, h.responses.trans h'.responses⟩

theorem ReaderFrame.stepFrame (h : ReaderFrame s t) : StepFrame s t :=
  ⟨h.cfg, fun hw => h.wclosed.trans hw, fun ht => h.tclosed.trans ht, h.trace, h.responses⟩

theorem WriterFrame.stepFrame (h : WriterFrame s t) : StepFrame s t :=
  ⟨h.cfg, h.wclosed, h.tclosed, h.trace, h.responses⟩

/-- What a step may be: it keeps the invariant and the frame of a step, or it is the fault `PANIC`. -/
def StepKeeps (s : State) : Outcome → Prop
  | .next t => t.Inv ∧ StepFrame s t
  | .fault f => f = .panic
  | .refused _ => False

theorem StepFrame.keeps {o : Outcome} (h : StepFrame s t) (h' : StepKeeps t o) : StepKeeps s o := by
  cases o with
  | next u => exact ⟨h'.1, h.trans h'.2⟩
  | fault f => exact h'
  | refused r => exact h'

theorem OutcomeKeeps.step {o : Outcome} (h : OutcomeKeeps s o) : StepKeeps s o := by
  cases o with
  | next t => exact ⟨h.inv, h.frame.stepFrame⟩
  | fault f => exact h
  | refused r => exact h

theorem OutcomeWKeeps.step {o : Outcome} (h : OutcomeWKeeps s o) : StepKeeps s o := by
  cases o with
  | next t => exact ⟨h.inv, h.frame.stepFrame⟩
  | fault f => exact h.elim
  | refused r => exact h

/-! ### What an instruction keeps, port by port (45_facade.md R236) -/

/-- Other lists of waiting commands, each of its port, keep the invariant. -/
theorem State.Inv.with_waiting (hi : s.Inv) {reads writes : List Instr} (hr : ∀ i ∈ reads, onReadPort i = true)
    (hw : ∀ i ∈ writes, onWritePort i = true) : ({ s with rWait := reads, wWait := writes } : State).Inv :=
  hi.of_quiet rfl rfl rfl rfl rfl rfl rfl hr hw

theorem waiting_stepFrame (s : State) (reads writes : List Instr) :
    StepFrame s { s with rWait := reads, wWait := writes } :=
  ⟨rfl, id, id, List.suffix_rfl, List.suffix_rfl⟩

/-- An R-port command that gets `RLOCK`. -/
theorem exec_readPort_keeps {i : Instr} (hi : s.Inv) (hl : s.RLOCK = none) (h : onReadPort i = true) :
    OutcomeKeeps s (exec i s) := by
  cases i with
  | readFrameHeader => exact headerCommand_keeps hi hl _ _
  | readRawFrameHeader => exact headerCommand_keeps hi hl _ _
  | appendFrame n => exact execAppendFrame_keeps hi hl n
  | read n => exact execRead_keeps hi hl n
  | _ => cases h

/-- A W-port command that gets `WLOCK`. -/
theorem exec_writePort_keeps {i : Instr} (hi : s.Inv) (hl : s.WLOCK = none) (h : onWritePort i = true) :
    OutcomeWKeeps s (exec i s) := by
  cases i with
  | writeFrame payload op final => exact writeCommand_keeps hi hl _ _ _ _ _
  | write payload => exact writeCommand_keeps hi hl _ _ _ _ _
  | closeWriter status => exact execCloseWriter_keeps hi hl status
  | closeConn => exact execCloseConn_keeps hi hl
  | _ => cases h

/-- An R-port command that finds `RLOCK` held waits (20_memory.md R76). -/
theorem exec_readPort_held {i : Instr} {a : Agent} (hl : s.RLOCK = some a) (h : onReadPort i = true) :
    exec i s = .next { s with rWait := s.rWait ++ [i] } := by
  cases i with
  | readFrameHeader => simp only [exec, execReadFrameHeader, headerCommand, acquireRead_held hl]
  | readRawFrameHeader => simp only [exec, execReadRawFrameHeader, headerCommand, acquireRead_held hl]
  | appendFrame n => simp only [exec, execAppendFrame, acquireRead_held hl]
  | read n => simp only [exec, execRead, acquireRead_held hl]
  | _ => cases h

/-- `writeFrame` and `write` while `WLOCK` is held: `MISUSE` comes before the wait (44_frame_writer.md R200). -/
theorem writeCommand_held {a : Agent} (hl : s.WLOCK = some a) (i : Instr) (call : WriteCall) (payload : List Byte)
    (op : BitVec 4) (final : Bool) :
    writeCommand i call payload op final s = .next { s with wWait := s.wWait ++ [i] } ∨
      ∃ code result, writeCommand i call payload op final s = .next (respond code result s) := by
  unfold writeCommand
  split
  · exact .inr ⟨_, _, rfl⟩
  · exact .inl (acquireWrite_held hl)

/-- A W-port command that finds `WLOCK` held waits, or is answered before it asks for the lock. -/
theorem exec_writePort_held {i : Instr} {a : Agent} (hl : s.WLOCK = some a) (h : onWritePort i = true) :
    exec i s = .next { s with wWait := s.wWait ++ [i] } ∨
      ∃ code result, exec i s = .next (respond code result s) := by
  cases i with
  | writeFrame payload op final => exact writeCommand_held hl _ _ _ _ _
  | write payload => exact writeCommand_held hl _ _ _ _ _
  | closeWriter status => exact .inl (by simp only [exec, execCloseWriter, acquireWrite_held hl])
  | closeConn => exact .inl (by simp only [exec, execCloseConn, acquireWrite_held hl])
  | _ => cases h

/-- A C-port command answers and does nothing else. -/
theorem exec_codecPort {i : Instr} (hf : isFrame i = false) (hr : onReadPort i = false) (hw : onWritePort i = false)
    (s : State) : ∃ code result, exec i s = .next (respond code result s) := by
  cases i with
  | parseHeader buf st => exact ⟨_, _, rfl⟩
  | parseLength bits buf idx => exact ⟨_, _, rfl⟩
  | readMask bits buf idx => exact ⟨_, _, rfl⟩
  | encodeHeader op fin masked key payloadLen => exact ⟨_, _, rfl⟩
  | mask buf key offset => exact ⟨_, _, rfl⟩
  | readFrameHeader => cases hr
  | readRawFrameHeader => cases hr
  | appendFrame n => cases hr
  | read n => cases hr
  | writeFrame payload op final => cases hw
  | write payload => cases hw
  | closeWriter status => cases hw
  | closeConn => cases hw
  | _ => cases hf

/-- Every command keeps the invariant, whether or not its lock is free. -/
theorem exec_command_keeps {i : Instr} (hi : s.Inv) (hf : isFrame i = false) : StepKeeps s (exec i s) := by
  have hrespond : ∀ code result, StepKeeps s (.next (respond code result s)) := fun code result =>
    OutcomeKeeps.step (o := .next _) (respond_keeps hi code result)
  cases hr : onReadPort i with
  | true =>
    cases hl : s.RLOCK with
    | none => exact (exec_readPort_keeps hi hl hr).step
    | some a =>
      rw [exec_readPort_held hl hr]
      have hwaiting := List.forall_mem_append.mpr ⟨hi.rWait, List.forall_mem_singleton.mpr hr⟩
      exact ⟨hi.with_waiting hwaiting hi.wWait, waiting_stepFrame s _ _⟩
  | false =>
    cases hw : onWritePort i with
    | true =>
      cases hl : s.WLOCK with
      | none => exact (exec_writePort_keeps hi hl hw).step
      | some a =>
        obtain h | ⟨code, result, h⟩ := exec_writePort_held hl hw
        · rw [h]
          have hwaiting := List.forall_mem_append.mpr ⟨hi.wWait, List.forall_mem_singleton.mpr hw⟩
          exact ⟨hi.with_waiting hi.rWait hwaiting, waiting_stepFrame s _ _⟩
        · rw [h]
          exact hrespond code result
    | false =>
      obtain ⟨code, result, h⟩ := exec_codecPort hf hr hw s
      rw [h]
      exact hrespond code result

/-! ### Turns of the two sides (20_memory.md R76, R78) -/

/-- What a turn of the reader is: no move, a waiting command taken, a read of an octet without a value, a fetched
frame executed and its command run on, or the command run on. -/
theorem readerTurn_cases (pick : Nat) (s : State) :
    readerTurn pick s = .next s ∨
    (∃ i, s.rWait[pick]? = some i ∧ s.RLOCK = none ∧
      readerTurn pick s = exec i { s with rWait := s.rWait.eraseIdx pick }) ∨
    (∃ call, s.reader = .header call .fetch ∧ fetchOctets s = none ∧ readerTurn pick s = .fault .noValue) ∨
    (∃ call octets i size, s.reader = .header call .fetch ∧ fetchOctets s = some octets ∧
      decodeFrame s.cfg octets = .ok i size ∧ readerTurn pick s = continueReader (exec i s)) ∨
    readerTurn pick s = runReader (moveBound s) s := by
  cases hr : s.reader with
  | idle =>
    cases hp : s.rWait[pick]? with
    | none => exact .inl (by simp only [readerTurn, hr, hp])
    | some i =>
      cases hl : s.RLOCK with
      | none => exact .inr (.inl ⟨i, rfl, rfl, by simp only [readerTurn, hr, hp, hl]⟩)
      | some a => exact .inl (by simp only [readerTurn, hr, hp, hl])
  | deliver call want out => exact .inr (.inr (.inr (.inr (by simp only [readerTurn, hr]))))
  | header call phase =>
    refine .inr (.inr ?_)
    cases phase with
    | fetch =>
      cases ho : fetchOctets s with
      | none => exact .inl ⟨call, rfl, rfl, by simp only [readerTurn, hr, ho]⟩
      | some octets =>
        refine .inr ?_
        cases hd : decodeFrame s.cfg octets with
        | ok i size => exact .inl ⟨call, octets, i, size, rfl, rfl, hd, by simp only [readerTurn, hr, ho, hd]⟩
        | _ => exact .inr (by simp only [readerTurn, hr, ho, hd])
    | _ => exact .inr (.inr (by simp only [readerTurn, hr]))

/-- What a turn of the writer is: no move, a waiting command taken, or the frame's `TWrite`. -/
theorem writerTurn_cases (pick : Nat) (s : State) :
    writerTurn pick s = .next s ∨
    (∃ i, s.wWait[pick]? = some i ∧ s.WLOCK = none ∧
      writerTurn pick s = exec i { s with wWait := s.wWait.eraseIdx pick }) ∨
    writerTurn pick s = (writerMove s).outcome := by
  cases hw : s.writer with
  | sending call hs len => exact .inr (.inr (by simp only [writerTurn, hw]))
  | idle =>
    cases hp : s.wWait[pick]? with
    | none => exact .inl (by simp only [writerTurn, hw, hp])
    | some i =>
      cases hl : s.WLOCK with
      | none => exact .inr (.inl ⟨i, rfl, rfl, by simp only [writerTurn, hw, hp, hl]⟩)
      | some a => exact .inl (by simp only [writerTurn, hw, hp, hl])

/-- A frame that decodes is dispatched by its opcode (43_frame_reader.md R163). -/
theorem exec_decodeFrame {cfg : Config} {octets : List Byte} {i : Instr} {size : Nat}
    (hd : decodeFrame cfg octets = .ok i size) (s : State) :
    ∃ bits len key, parseChecked cfg octets 0 = .ok bits len key size ∧
      exec i s = dispatchOpcode (hdrOpcode bits) (Head.ofParsed bits len key) s := by
  unfold decodeFrame at hd
  cases hp : parseChecked cfg octets 0 with
  | ok bits len key next =>
    rw [hp] at hd
    cases hd
    exact ⟨bits, len, key, rfl, exec_ofWire _ _ s⟩
  | _ => rw [hp] at hd; cases hd

/-- A turn of the reader keeps what the reader's moves keep, but for the waiting command it may take. -/
theorem readerTurn_keeps (hi : s.Inv) (pick : Nat) :
    ∃ waiting, OutcomeKeeps { s with rWait := waiting } (readerTurn pick s) := by
  have hwindow : ∀ call, s.reader = .header call .fetch →
      ∃ octets, fetchOctets s = some octets ∧ octets.length = s.r.END - s.r.ST := by
    intro call hr
    obtain ⟨-, -, hI⟩ : s.r.RSTATE ≠ .closed ∧ s.r.MORE = 0 ∧ s.r.I = s.r.ST := by
      simpa [ReaderInv, hr] using hi.reader
    obtain ⟨octets, ho, hlen, -⟩ := fetchOctets_eq hi.cursors hI
    exact ⟨octets, ho, hI ▸ hlen⟩
  obtain h | ⟨i, hpick, hl, h⟩ | ⟨call, hr, ho, -⟩ | ⟨call, octets, i, size, hr, ho, hd, h⟩ | h :=
    readerTurn_cases pick s
  · exact ⟨s.rWait, h ▸ ⟨hi, ReaderFrame.refl s⟩⟩
  · have hrest : ∀ j ∈ s.rWait.eraseIdx pick, onReadPort j = true := fun j hj =>
      hi.rWait j (List.mem_of_mem_eraseIdx hj)
    exact ⟨_, h ▸ exec_readPort_keeps (hi.with_waiting hrest hi.wWait) hl (hi.rWait i (List.mem_of_getElem? hpick))⟩
  · obtain ⟨octets, ho', -⟩ := hwindow call hr
    rw [ho] at ho'
    cases ho'
  · obtain ⟨octets', ho', hlen⟩ := hwindow call hr
    obtain rfl : octets = octets' := Option.some.inj (ho.symm.trans ho')
    obtain ⟨bits, len, key, hp, he⟩ := exec_decodeFrame hd s
    obtain ⟨-, hsize, hlength, -, htwo, hnext, hmax⟩ := parseChecked_head hp
    have hframe : OutcomeKeeps s (exec i s) := he ▸ dispatchOpcode_keeps hi hr (by omega) (by omega)
    exact ⟨s.rWait, h ▸ continueReader_keeps hframe⟩
  · exact ⟨s.rWait, h ▸ runReader_keeps _ hi⟩

/-- A turn of the writer keeps what the writer's moves keep, but for the waiting command it may take. -/
theorem writerTurn_keeps (hi : s.Inv) (pick : Nat) :
    ∃ waiting, OutcomeWKeeps { s with wWait := waiting } (writerTurn pick s) := by
  obtain h | ⟨i, hpick, hl, h⟩ | h := writerTurn_cases pick s
  · exact ⟨s.wWait, h ▸ ⟨hi, WriterFrame.refl s⟩⟩
  · have hrest : ∀ j ∈ s.wWait.eraseIdx pick, onWritePort j = true := fun j hj =>
      hi.wWait j (List.mem_of_mem_eraseIdx hj)
    exact ⟨_, h ▸ exec_writePort_keeps (hi.with_waiting hi.rWait hrest) hl (hi.wWait i (List.mem_of_getElem? hpick))⟩
  · exact ⟨s.wWait, h ▸ (writerMove_keeps hi).outcome⟩

/-- A change of the inputs and the waiting events alone keeps everything. -/
theorem inputs_keeps (hi : s.Inv) (events : List Event) (env : Inputs) :
    StepKeeps s (.next { s with events := events, env := env }) :=
  ⟨hi.of_quiet rfl rfl rfl rfl rfl rfl rfl hi.rWait hi.wWait, ⟨rfl, id, id, List.suffix_rfl, List.suffix_rfl⟩⟩

theorem hostTurn_keeps (hi : s.Inv) (c : Command) : StepKeeps s (hostTurn c s) := by
  unfold hostTurn
  cases hd : decodeCommand c with
  | some i => exact exec_command_keeps hi (isFrame_of_decodeCommand hd)
  | none => exact OutcomeKeeps.step (o := .next _) (respond_keeps hi _ _)

theorem takeEvent_keeps (hi : s.Inv) (e : Event) : StepKeeps s (takeEvent e s) := by
  cases e with
  | reader pick =>
    obtain ⟨waiting, h⟩ := readerTurn_keeps hi pick
    exact (waiting_stepFrame s waiting s.wWait).keeps h.step
  | writer pick =>
    obtain ⟨waiting, h⟩ := writerTurn_keeps hi pick
    exact (waiting_stepFrame s s.rWait waiting).keeps h.step
  | host c => exact hostTurn_keeps hi c
  | cancel level => exact inputs_keeps hi _ _
  | rx a => exact inputs_keeps hi _ _
  | tx a => exact inputs_keeps hi _ _
  | closeAnswer a => exact inputs_keeps hi _ _
  | rand k => exact inputs_keeps hi _ _

/-- Taking an event off the list. -/
theorem State.Inv.with_events (hi : s.Inv) (events : List Event) : ({ s with events := events } : State).Inv :=
  (inputs_keeps hi events s.env).1

theorem step_cons {e : Event} {rest : List Event} (h : s.events = e :: rest) :
    step s = takeEvent e { s with events := rest } := by
  simp only [step, h]

theorem step_keeps (hi : s.Inv) : StepKeeps s (step s) := by
  cases he : s.events with
  | nil =>
    simp only [step, he]
    exact ⟨hi, StepFrame.refl s⟩
  | cons e rest =>
    rw [step_cons he]
    exact (inputs_keeps hi rest s.env).2.keeps (takeEvent_keeps (hi.with_events rest) e)

/-- What holds of the next state of a step. -/
theorem step_next_keeps (hi : s.Inv) (h : step s = .next t) : t.Inv ∧ StepFrame s t := by
  have hk := step_keeps hi
  rwa [h] at hk

/-- Settles O20: each port's commands and each side's turns keep the invariant, so every event does. -/
theorem everyStepKeepsTheInvariant : Obligations.EveryStepKeepsTheInvariant :=
  fun _ _ hi h => (step_next_keeps hi h).1

/-- Settles O22: the frame of a step holds the five clauses. -/
theorem stepsNeverWithdrawFlagsOrTransactions : Obligations.StepsNeverWithdrawFlagsOrTransactions := by
  intro s t hi h
  obtain ⟨hcfg, hwclosed, htclosed, htrace, hresponses⟩ := (step_next_keeps hi h).2
  exact ⟨hcfg, hwclosed, htclosed, htrace, hresponses⟩

end Sys2Proof.Machine

/-! ## What the reader leaves to the writer (10_state.md R20; 20_memory.md R75, R79) -/

namespace Sys2Proof.Machine

variable {s t u : State}

/-- What the reader leaves of the writer's side (20_memory.md R75, R79): the writer's registers in `PASSTHROUGH`
(44_frame_writer.md R206), and in either mode, while another holds `WLOCK`, those registers, the lock and the answers to
`TWrite`; a reader that does not write a Pong does not come to write one then. -/
structure SparesWriter (s t : State) : Prop where
  cfg : t.cfg = s.cfg
  passthrough : s.cfg.pongMode = .passthrough → t.w = s.w
  locked : s.WLOCK ≠ none → s.reader.writing = false →
    t.w = s.w ∧ t.WLOCK = s.WLOCK ∧ t.env.tx = s.env.tx ∧ t.reader.writing = false

namespace SparesWriter

theorem refl (s : State) : SparesWriter s s := ⟨rfl, fun _ => rfl, fun _ h => ⟨rfl, rfl, rfl, h⟩⟩

theorem trans (h : SparesWriter s t) (h' : SparesWriter t u) : SparesWriter s u where
  cfg := h'.cfg.trans h.cfg
  passthrough := fun hp => (h'.passthrough (h.cfg ▸ hp)).trans (h.passthrough hp)
  locked := fun hl hr => by
    obtain ⟨hw, hlock, htx, hwriting⟩ := h.locked hl hr
    obtain ⟨hw', hlock', htx', hwriting'⟩ := h'.locked (hlock ▸ hl) hwriting
    exact ⟨hw'.trans hw, hlock'.trans hlock, htx'.trans htx, hwriting'⟩

/-- A change of the reader's registers, the inputs other than `TWrite`'s and the observations, after which the reader is
at a place where it writes no Pong. -/
theorem of_reader (hcfg : t.cfg = s.cfg) (hw : t.w = s.w) (hl : t.WLOCK = s.WLOCK) (htx : t.env.tx = s.env.tx)
    (hr : t.reader = s.reader ∨ t.reader.writing = false) : SparesWriter s t :=
  ⟨hcfg, fun _ => hw, fun _ h => ⟨hw, hl, htx, hr.elim (fun e => e ▸ h) id⟩⟩

end SparesWriter

/-- The same of a move. -/
def Move.SparesWriter (s : State) : Move → Prop
  | .go t => Machine.SparesWriter s t
  | .wait t => Machine.SparesWriter s t
  | .halt o => ∀ t, o ≠ .next t

/-- The same of an outcome. -/
def OutcomeSparesWriter (s : State) (o : Outcome) : Prop := ∀ t, o = .next t → SparesWriter s t

theorem OutcomeSparesWriter.next (h : SparesWriter s t) : OutcomeSparesWriter s (.next t) := by
  rintro _ ⟨⟩
  exact h

theorem OutcomeSparesWriter.after {o : Outcome} (h' : OutcomeSparesWriter t o) (h : SparesWriter s t) :
    OutcomeSparesWriter s o :=
  fun u hu => h.trans (h' u hu)

theorem SparesWriter.move {m : Move} (h : SparesWriter s t) (h' : m.SparesWriter t) : m.SparesWriter s := by
  cases m with
  | go u => exact h.trans h'
  | wait u => exact h.trans h'
  | halt o => exact h'

theorem OutcomeSparesWriter.moveOf {o : Outcome} (h : OutcomeSparesWriter s o) : (moveOf o).SparesWriter s := by
  cases o with
  | next t => exact h t rfl
  | fault f => exact fun t => nofun
  | refused r => exact fun t => nofun

/-! ### The shared operations -/

theorem takeFatal_spares (call : HeaderCall) (k : Status) (s : State) : SparesWriter s (takeFatal call k s) :=
  .of_reader rfl rfl rfl rfl (.inr rfl)

theorem endHeader_spares (call : HeaderCall) (k : Status) (s : State) : SparesWriter s (endHeader call k s) :=
  .of_reader rfl rfl rfl rfl (.inr rfl)

theorem endDelivery_spares (call : DataCall) (out : List Byte) (st : Status) (s : State) :
    SparesWriter s (endDelivery call out st s) := by
  cases call <;> exact .of_reader rfl rfl rfl rfl (.inr rfl)

theorem latch_spares (op : BitVec 4) (h : Head) (s : State) : SparesWriter s (latch op h s) :=
  .of_reader rfl rfl rfl rfl (.inl rfl)

theorem returnFrame_spares (call : HeaderCall) (op : BitVec 4) (s : State) :
    SparesWriter s (returnFrame call op s) := by
  cases call <;> exact .of_reader rfl rfl rfl rfl (.inr rfl)

theorem fill_spares (h : fill s = some t) : SparesWriter s t := by
  obtain ⟨rfl, -⟩ := fill_some h
  exact .of_reader rfl rfl rfl rfl (.inl rfl)

theorem readOnce_spares {n : Nat} {st : ReadStatus} (h : readOnce s = some (n, st, t)) : SparesWriter s t := by
  obtain ⟨d, left, -, -, -, -, rfl⟩ := readOnce_some h
  exact .of_reader rfl rfl rfl rfl (.inl rfl)

theorem tRead_spares {cap : Nat} {d : List Byte} {st : ReadStatus} (h : tRead cap s = some (d, st, t)) :
    SparesWriter s t := by
  obtain ⟨-, -, left, rfl, -⟩ := tRead_some h
  exact .of_reader rfl rfl rfl rfl (.inl rfl)

/-! ### The loops of the reader -/

/-- One turn of `deliver` (43_frame_reader.md R171). -/
theorem deliverTurn_spares (want got : Nat) (s : State) :
    match deliverTurn want got s with
    | .done => True
    | .octets _ t => SparesWriter s t
    | .again t => SparesWriter s t
    | .waiting t => SparesWriter s t
    | .ended _ t => SparesWriter s t
    | .halt _ => True := by
  unfold deliverTurn
  by_cases hg : got ≥ want
  · simp only [hg, if_true]
  simp only [hg, if_false]
  by_cases hI : s.r.I < s.r.END
  · simp only [hI, if_true]
    cases s.r.RBUF.readBytes s.r.I (min (want - got) (s.r.END - s.r.I)) with
    | none => trivial
    | some bs => exact .of_reader rfl rfl rfl rfl (.inl rfl)
  simp only [hI, if_false]
  by_cases hd : want - got ≥ s.cfg.rbufSize - directMargin
  · simp only [hd, if_true]
    cases hr : tRead (want - got) s with
    | none => exact .refl s
    | some x =>
      obtain ⟨d, st, t⟩ := x
      have ht := tRead_spares hr
      by_cases hst : st = .ok
      · simp only [hst, if_true]
        exact ht.trans (.of_reader rfl rfl rfl rfl (.inl rfl))
      · simp only [hst, if_false]
        exact ht
  · simp only [hd, if_false]
    cases hf : fill s with
    | none => trivial
    | some s1 =>
      have h1 := fill_spares hf
      cases hr : readOnce s1 with
      | none => simpa only [hr] using h1
      | some x =>
        obtain ⟨n, st, t⟩ := x
        have ht := h1.trans (readOnce_spares hr)
        by_cases hst : st = .ok
        · simp only [hr, hst, if_true]
          exact ht
        · simp only [hr, hst, if_false]
          exact ht

theorem deliverMove_spares (call : DataCall) (want : Nat) (out : List Byte) (s : State) :
    (deliverMove call want out s).SparesWriter s := by
  have hd := deliverTurn_spares want out.length s
  unfold deliverMove
  revert hd
  cases deliverTurn want out.length s with
  | done => exact fun _ => endDelivery_spares call out .ok s
  | octets bs t => exact fun ht => ht.trans (.of_reader rfl rfl rfl rfl (.inr rfl))
  | again t => exact id
  | waiting t => exact id
  | ended st t => exact fun ht => ht.trans (endDelivery_spares call out st t)
  | halt f => exact fun _ t => nofun

theorem endClose_spares (call : HeaderCall) (got : Nat) (s : State) : (endClose call got s).SparesWriter s := by
  unfold endClose
  split
  · exact fun t => nofun
  · exact takeFatal_spares call _ s

theorem closeMove_spares (call : HeaderCall) (want got : Nat) (s : State) :
    (closeMove call want got s).SparesWriter s := by
  have hd := deliverTurn_spares want got s
  unfold closeMove
  revert hd
  cases deliverTurn want got s with
  | done => exact fun _ => endClose_spares call got s
  | octets bs t => exact fun ht => ht.trans (.of_reader rfl rfl rfl rfl (.inr rfl))
  | again t => exact id
  | waiting t => exact id
  | ended st t =>
    intro ht
    simp only
    split
    · exact ht.move (endClose_spares call got t)
    · exact ht.trans (takeFatal_spares call st t)
  | halt f => exact fun _ t => nofun

theorem skipMove_spares (call : HeaderCall) (s : State) : (skipMove call s).SparesWriter s := by
  unfold skipMove
  split
  · exact .of_reader rfl rfl rfl rfl (.inr rfl)
  split
  · exact .of_reader rfl rfl rfl rfl (.inl rfl)
  cases hf : fill s with
  | none => exact fun t => nofun
  | some s1 =>
    have h1 := fill_spares hf
    simp only
    cases hr : readOnce s1 with
    | none => exact h1
    | some x =>
      obtain ⟨n, st, s2⟩ := x
      have h2 := h1.trans (readOnce_spares hr)
      simp only
      split
      · exact h2
      · exact h2.trans (takeFatal_spares call _ s2)

/-- The Pong is composed with `WLOCK` free, and in `PASSTHROUGH` outside `WBUF` (44_frame_writer.md R206, R207). -/
theorem pongCompose_spares (call : HeaderCall) (s : State) : (pongCompose call s).SparesWriter s := by
  unfold pongCompose
  cases hl : s.WLOCK with
  | some a => exact .refl s
  | none =>
    cases hp : s.cfg.pongMode with
    | passthrough =>
      simp only
      split
      · exact fun t => nofun
      · exact ⟨rfl, fun _ => rfl, fun h => absurd hl h⟩
    | fresh =>
      simp only
      split
      · exact fun t => nofun
      · rename_i bs _
        obtain ⟨key, env, he, -⟩ := composeFrame_eq (mask bs s.r.KEY 0) 10 true s
        simp only [he]
        exact ⟨rfl, fun h => absurd (hp.symm.trans h) (by decide), fun h => absurd hl h⟩

theorem pingMove_spares (call : HeaderCall) (s : State) : (pingMove call s).SparesWriter s := by
  unfold pingMove
  split
  · exact fun t => nofun
  split
  · have h1 : SparesWriter s (if frameEnd s.r > s.cfg.rbufSize then compactFromST s else s) := by
      split
      · exact .of_reader rfl rfl rfl rfl (.inl rfl)
      · exact .refl s
    simp only
    generalize (if frameEnd s.r > s.cfg.rbufSize then compactFromST s else s) = s1 at h1
    cases hr : readOnce s1 with
    | none => exact h1
    | some x =>
      obtain ⟨n, st, s2⟩ := x
      have h2 := h1.trans (readOnce_spares hr)
      simp only
      split
      · exact h2
      · exact h2.trans (takeFatal_spares call _ s2)
  · exact pongCompose_spares call s

/-- The end of a Pong's `TWrite`: it gives `WLOCK` back, and in `PASSTHROUGH` leaves the writer's registers alone. -/
theorem pongMove_spares {call : HeaderCall} (hr : s.reader = .header call .pongWrite) :
    (pongMove call s).SparesWriter s := by
  have hwriting : s.reader.writing ≠ false := by simp [hr, RUnit.writing]
  unfold pongMove
  split
  · exact fun t => nofun
  rename_i frame _
  cases htw : tWrite frame s with
  | none => exact .refl s
  | some x =>
    obtain ⟨tn, ts, s1⟩ := x
    obtain ⟨-, left, rfl⟩ := tWrite_some htw
    have hw : s.cfg.pongMode = .passthrough → afterPong s.cfg.pongMode s.w = s.w := fun hp => by rw [hp]; rfl
    simp only
    split
    · exact ⟨rfl, hw, fun _ h => absurd h hwriting⟩
    · exact ⟨rfl, hw, fun _ h => absurd h hwriting⟩

theorem controlMove_spares (s : State) : (controlMove s).SparesWriter s := by
  unfold controlMove
  split
  · exact .refl s
  · exact .refl s
  · exact .refl s
  · exact pingMove_spares _ s
  · rename_i hr
    exact pongMove_spares hr
  · exact skipMove_spares _ s
  · exact closeMove_spares _ _ _ s

theorem runControl_spares (n : Nat) (s : State) : OutcomeSparesWriter s (runControl n s) := by
  induction n generalizing s with
  | zero => exact .next (.refl s)
  | succ n ih =>
    have hm := controlMove_spares s
    simp only [runControl]
    revert hm
    cases controlMove s with
    | go t => exact fun h => (ih t).after h
    | wait t => exact .next
    | halt o => exact fun h t ho => absurd ho (h t)

/-! ### The header fetch and the dispatch -/

theorem dataFrame_spares (op : BitVec 4) (h : Head) (s : State) : OutcomeSparesWriter s (dataFrame op h s) := by
  unfold dataFrame
  split
  · exact .next ((latch_spares op h s).trans (returnFrame_spares _ op _))
  all_goals exact fun t => nofun

theorem reservedFrame_spares (op : BitVec 4) (h : Head) (s : State) :
    OutcomeSparesWriter s (reservedFrame op h s) := by
  unfold reservedFrame
  split
  · exact .next ((latch_spares op h s).trans (takeFatal_spares _ _ _))
  all_goals exact fun t => nofun

theorem controlFrame_spares {phase : HeaderPhase} (hw : phase ≠ .pongWrite) (op : BitVec 4) (h : Head) (s : State) :
    OutcomeSparesWriter s (controlFrame op h phase s) := by
  have hrun : ∀ call n, OutcomeSparesWriter s (runControl n { latch op h s with reader := .header call phase }) := by
    intro call n
    have hwriting : (RUnit.header call phase).writing = false := by
      cases phase with
      | pongWrite => exact absurd rfl hw
      | _ => rfl
    exact (runControl_spares n _).after (.of_reader rfl rfl rfl rfl (.inr hwriting))
  unfold controlFrame
  split
  · exact .next ((latch_spares op h s).trans (returnFrame_spares _ op _))
  · exact hrun _ _
  · exact hrun _ _
  all_goals exact fun t => nofun

theorem dispatchOpcode_spares (op : BitVec 4) (h : Head) (s : State) :
    OutcomeSparesWriter s (dispatchOpcode op h s) := by
  unfold dispatchOpcode
  split
  · exact dataFrame_spares _ h s
  · exact dataFrame_spares _ h s
  · exact dataFrame_spares _ h s
  · exact reservedFrame_spares _ h s
  · exact reservedFrame_spares _ h s
  · exact reservedFrame_spares _ h s
  · exact reservedFrame_spares _ h s
  · exact reservedFrame_spares _ h s
  · exact controlFrame_spares (by simp) _ h s
  · exact controlFrame_spares (by simp) _ h s
  · exact controlFrame_spares (by simp) _ h s
  all_goals exact reservedFrame_spares _ h s

theorem fetchMore_spares (call : HeaderCall) (s : State) : (fetchMore call s).SparesWriter s := by
  unfold fetchMore
  cases hf : fill s with
  | none => exact fun t => nofun
  | some s1 =>
    have h1 := fill_spares hf
    simp only
    cases hr : readOnce s1 with
    | none => exact h1
    | some x =>
      obtain ⟨n, st, s2⟩ := x
      have h2 := h1.trans (readOnce_spares hr)
      simp only
      split
      · exact h2
      · exact h2.trans (endHeader_spares call _ s2)

theorem fetchMove_spares (call : HeaderCall) (s : State) : (fetchMove call s).SparesWriter s := by
  unfold fetchMove
  split
  · exact fun t => nofun
  split
  · exact (dispatchOpcode_spares _ _ s).moveOf
  · exact fetchMore_spares call s
  all_goals exact takeFatal_spares call _ s

/-! ### The reader as a whole -/

theorem readerMove_spares (s : State) : (readerMove s).SparesWriter s := by
  unfold readerMove
  split
  · exact .refl s
  · exact fetchMove_spares _ s
  · exact controlMove_spares s
  · exact controlMove_spares s
  · exact controlMove_spares s
  · exact controlMove_spares s
  · exact deliverMove_spares _ _ _ s

theorem runReader_spares (n : Nat) (s : State) : OutcomeSparesWriter s (runReader n s) := by
  induction n generalizing s with
  | zero => exact .next (.refl s)
  | succ n ih =>
    have hm := readerMove_spares s
    simp only [runReader]
    revert hm
    cases readerMove s with
    | go t => exact fun h => (ih t).after h
    | wait t => exact .next
    | halt o => exact fun h t ho => absurd ho (h t)

theorem continueReader_spares {o : Outcome} (h : OutcomeSparesWriter s o) :
    OutcomeSparesWriter s (continueReader o) := by
  cases o with
  | next t => exact (runReader_spares _ t).after (h t rfl)
  | fault f => exact fun t => nofun
  | refused r => exact fun t => nofun

theorem acquireRead_spares (i : Instr) {k : State → Outcome} (h : OutcomeSparesWriter s (k s)) :
    OutcomeSparesWriter s (acquireRead i s k) := by
  unfold acquireRead
  split
  · exact .next (.of_reader rfl rfl rfl rfl (.inl rfl))
  · exact h

theorem headerCommand_spares (i : Instr) (call : HeaderCall) (s : State) :
    OutcomeSparesWriter s (headerCommand i call s) := by
  refine acquireRead_spares i ?_
  split
  · exact .next (.of_reader rfl rfl rfl rfl (.inl rfl))
  split
  · exact .next (.of_reader rfl rfl rfl rfl (.inl rfl))
  · exact (runReader_spares _ _).after (.of_reader rfl rfl rfl rfl (.inr rfl))

theorem execAppendFrame_spares (n : Nat) (s : State) : OutcomeSparesWriter s (execAppendFrame n s) := by
  refine acquireRead_spares _ ?_
  split
  · exact .next (.of_reader rfl rfl rfl rfl (.inl rfl))
  · exact (runReader_spares _ _).after (.of_reader rfl rfl rfl rfl (.inr rfl))

theorem execRead_spares (n : Nat) (s : State) : OutcomeSparesWriter s (execRead n s) := by
  refine acquireRead_spares _ ?_
  split
  · exact .next (.of_reader rfl rfl rfl rfl (.inl rfl))
  split
  · exact (runReader_spares _ _).after (.of_reader rfl rfl rfl rfl (.inr rfl))
  · exact (runReader_spares _ _).after (.of_reader rfl rfl rfl rfl (.inr rfl))

/-- Every R-port command leaves the writer's side alone, whether or not `RLOCK` is free. -/
theorem exec_readPort_spares {i : Instr} (h : onReadPort i = true) (s : State) : OutcomeSparesWriter s (exec i s) := by
  cases i with
  | readFrameHeader => exact headerCommand_spares _ _ s
  | readRawFrameHeader => exact headerCommand_spares _ _ s
  | appendFrame n => exact execAppendFrame_spares n s
  | read n => exact execRead_spares n s
  | _ => cases h

theorem readerTurn_spares (hi : s.Inv) (pick : Nat) : OutcomeSparesWriter s (readerTurn pick s) := by
  obtain h | ⟨i, hpick, -, h⟩ | ⟨call, -, -, h⟩ | ⟨call, octets, i, size, -, -, hd, h⟩ | h := readerTurn_cases pick s
  · exact h ▸ .next (.refl s)
  · rw [h]
    exact (exec_readPort_spares (hi.rWait i (List.mem_of_getElem? hpick)) _).after
      (.of_reader rfl rfl rfl rfl (.inl rfl))
  · exact h ▸ fun t => nofun
  · obtain ⟨bits, len, key, -, he⟩ := exec_decodeFrame hd s
    rw [h, he]
    exact continueReader_spares (dispatchOpcode_spares _ _ s)
  · exact h ▸ runReader_spares _ s

/-! ### The two sides -/

/-- While a W-port command runs, `WLOCK` is held and the reader writes no Pong (10_state.md R36, 20_memory.md R79). -/
theorem State.Inv.writer_busy (hi : s.Inv) (h : s.writer ≠ .idle) : s.WLOCK ≠ none ∧ s.reader.writing = false := by
  refine ⟨?_, hi.oneWriter h⟩
  rw [hi.wlock, if_pos h]
  exact Option.some_ne_none _

/-- A turn of the reader keeps what `ReaderFrame` names, but for its own waiting list. -/
theorem readerTurn_frame {pick : Nat} (hi : s.Inv) (h : readerTurn pick s = .next t) :
    ∃ waiting, ReaderFrame { s with rWait := waiting } t := by
  obtain ⟨waiting, hk⟩ := readerTurn_keeps hi pick
  rw [h] at hk
  exact ⟨waiting, hk.frame⟩

/-- A turn of the writer keeps what `WriterFrame` names; its own waiting list is none of it. -/
theorem writerTurn_frame {pick : Nat} (hi : s.Inv) (h : writerTurn pick s = .next t) :
    ∃ waiting, WriterFrame { s with wWait := waiting } t := by
  obtain ⟨waiting, hk⟩ := writerTurn_keeps hi pick
  rw [h] at hk
  exact ⟨waiting, hk.frame⟩

/-- Settles O28: each side's turn keeps its side's frame, and the reader spares the writer's registers in `PASSTHROUGH`
and whatever `WLOCK` guards while a W-port command holds it. -/
theorem theTwoSidesTouchDisjointState : Obligations.TheTwoSidesTouchDisjointState := by
  intro s t pick rest hi hstep
  refine ⟨fun he => ?_, fun he => ?_⟩
  · rw [step_cons he] at hstep
    have hi' := hi.with_events rest
    obtain ⟨waiting, hf⟩ := readerTurn_frame hi' hstep
    have hs := readerTurn_spares hi' pick t hstep
    refine ⟨⟨hf.wclosed, hf.tclosed, hf.writer, hf.wWait, hf.closes⟩, hs.passthrough, fun hw => ?_⟩
    obtain ⟨hl, hr⟩ := hi'.writer_busy hw
    obtain ⟨hregs, hlock, htx, -⟩ := hs.locked hl hr
    exact ⟨hregs, hlock, htx⟩
  · rw [step_cons he] at hstep
    obtain ⟨waiting, hf⟩ := writerTurn_frame (hi.with_events rest) hstep
    exact ⟨hf.r, hf.RLOCK, hf.reader, hf.rWait, hf.rx⟩

end Sys2Proof.Machine

/-! ## Received octets in stream order (20_memory.md R72; 10_state.md R38, R42) -/

namespace Sys2Proof.Machine

variable {s t : State}

theorem rxStream_append (xs ys : List RxAnswer) : rxStream (xs ++ ys) = rxStream xs ++ rxStream ys := by
  induction xs with
  | nil => rfl
  | cons x xs ih => cases x <;> simp only [List.cons_append, rxStream, ih, List.append_assoc]

/-- Only the reader's registers and the RX stream bear on the unread octets. -/
theorem unread_congr (hr : t.r = s.r) (hrx : t.env.rx = s.env.rx) : unread t = unread s := by
  simp only [unread, hr, hrx]

/-- An answer of the transport comes after everything that is unread. -/
theorem unread_rx (s : State) (a : RxAnswer) :
    unread { s with env := { s.env with rx := s.env.rx ++ [a] } } = unread s ++ rxStream [a] := by
  simp only [unread, rxStream_append, List.append_assoc]

/-- What goes on from `s` takes octets from the front of `unread` alone. -/
def TakesFromFront (s : State) (o : Outcome) : Prop := ∀ t, o = .next t → unread t <:+ unread s

theorem TakesFromFront.next (h : unread t = unread s) : TakesFromFront s (.next t) := by
  rintro _ ⟨⟩
  exact h ▸ List.suffix_rfl

theorem OutcomeKeeps.takesFromFront {o : Outcome} (h : OutcomeKeeps s o) : TakesFromFront s o := by
  rintro t rfl
  exact h.frame.unread

theorem WriterFrame.unread_eq (h : WriterFrame s t) : unread t = unread s := unread_congr h.r h.rx

theorem OutcomeWKeeps.takesFromFront {o : Outcome} (h : OutcomeWKeeps s o) : TakesFromFront s o := by
  rintro t rfl
  exact h.frame.unread_eq ▸ List.suffix_rfl

/-- A command takes octets only if it is of the R port and gets `RLOCK`; one that waits, and the other ports, take
none. -/
theorem exec_command_takesFromFront {i : Instr} (hi : s.Inv) (hf : isFrame i = false) :
    TakesFromFront s (exec i s) := by
  cases hr : onReadPort i with
  | true =>
    cases hl : s.RLOCK with
    | none => exact (exec_readPort_keeps hi hl hr).takesFromFront
    | some a => exact exec_readPort_held hl hr ▸ .next (unread_congr rfl rfl)
  | false =>
    cases hw : onWritePort i with
    | true =>
      cases hl : s.WLOCK with
      | none => exact (exec_writePort_keeps hi hl hw).takesFromFront
      | some a =>
        obtain h | ⟨code, result, h⟩ := exec_writePort_held hl hw
        · exact h ▸ .next (unread_congr rfl rfl)
        · exact h ▸ .next (unread_congr rfl rfl)
    | false =>
      obtain ⟨code, result, h⟩ := exec_codecPort hf hr hw s
      exact h ▸ .next (unread_congr rfl rfl)

theorem hostTurn_takesFromFront (hi : s.Inv) (c : Command) : TakesFromFront s (hostTurn c s) := by
  unfold hostTurn
  cases hd : decodeCommand c with
  | some i => exact exec_command_takesFromFront hi (isFrame_of_decodeCommand hd)
  | none => exact .next (unread_congr rfl rfl)

theorem readerTurn_takesFromFront (hi : s.Inv) (pick : Nat) : TakesFromFront s (readerTurn pick s) := by
  intro t h
  obtain ⟨waiting, hf⟩ := readerTurn_frame hi h
  exact hf.unread

theorem writerTurn_unread {pick : Nat} (hi : s.Inv) (h : writerTurn pick s = .next t) : unread t = unread s := by
  obtain ⟨waiting, hf⟩ := writerTurn_frame hi h
  exact hf.unread_eq

/-- Settles O23: the reader's moves and the R port's commands leave a suffix of `unread`, an answer of the transport is
put after it, and nothing else touches the reader's registers or the RX stream. -/
theorem octetsAreConsumedInStreamOrder : Obligations.OctetsAreConsumedInStreamOrder := by
  intro s t e rest hi he hstep
  rw [step_cons he] at hstep
  have hi' := hi.with_events rest
  cases e with
  | reader pick =>
    obtain ⟨taken, h⟩ := readerTurn_takesFromFront hi' pick t hstep
    exact ⟨taken, h.symm⟩
  | host c =>
    obtain ⟨taken, h⟩ := hostTurn_takesFromFront hi' c t hstep
    exact ⟨taken, h.symm⟩
  | writer pick => exact (writerTurn_unread hi' hstep :)
  | rx a =>
    cases hstep
    cases a with
    | data d => exact (unread_rx s (.data d)).trans (by simp only [rxStream, List.append_nil])
    | eof => exact (unread_rx s .eof).trans (List.append_nil _)
    | timeout => exact (unread_rx s .timeout).trans (List.append_nil _)
    | err n => exact (unread_rx s (.err n)).trans (List.append_nil _)
  | cancel level => cases hstep; rfl
  | tx a => cases hstep; rfl
  | closeAnswer a => cases hstep; rfl
  | rand k => cases hstep; rfl

end Sys2Proof.Machine

/-! ## Waiting for a lock (20_memory.md R76) -/

namespace Sys2Proof.Machine

variable {s t : State}

/-- A W-port command that finds `WLOCK` held waits, unless its payload is refused (44_frame_writer.md R200). -/
theorem exec_writePort_waits {i : Instr} {a : Agent} (hl : s.WLOCK = some a) (h : onWritePort i = true)
    (hp : ∀ payload, (i = .write payload ∨ ∃ op final, i = .writeFrame payload op final) →
      payloadRefused s.cfg payload = false) :
    exec i s = .next { s with wWait := s.wWait ++ [i] } := by
  have hwrite : ∀ call payload op final, payloadRefused s.cfg payload = false →
      writeCommand i call payload op final s = .next { s with wWait := s.wWait ++ [i] } := by
    intro call payload op final hr
    rw [writeCommand, if_neg (Bool.eq_false_iff.mp hr), acquireWrite_held hl]
  cases i with
  | writeFrame payload op final => exact hwrite _ _ _ _ (hp payload (.inr ⟨op, final, rfl⟩))
  | write payload => exact hwrite _ _ _ _ (hp payload (.inl rfl))
  | closeWriter status => simp only [exec, execCloseWriter, acquireWrite_held hl]
  | closeConn => simp only [exec, execCloseConn, acquireWrite_held hl]
  | _ => cases h

section
variable {α : Type} {x : α} {before after : List α} {pick : Nat}

/-- The member the schedule picks, and the list without it (log entry 10). -/
theorem picked_of_length (h : before.length = pick) :
    (before ++ x :: after)[pick]? = some x ∧ (before ++ x :: after).eraseIdx pick = before ++ after := by
  subst h
  exact ⟨by simp, by simp [List.eraseIdx_append_of_length_le]⟩

end

section
variable {i : Instr} {before after : List Instr} {pick : Nat}

theorem readerTurn_picks (hr : s.reader = .idle) (hl : s.RLOCK = none) (hw : s.rWait = before ++ i :: after)
    (hp : before.length = pick) : readerTurn pick s = exec i { s with rWait := before ++ after } := by
  obtain ⟨hget, herase⟩ := picked_of_length (x := i) (after := after) hp
  simp only [readerTurn, hr, hl, hw, hget, herase]

theorem writerTurn_picks (hr : s.writer = .idle) (hl : s.WLOCK = none) (hw : s.wWait = before ++ i :: after)
    (hp : before.length = pick) : writerTurn pick s = exec i { s with wWait := before ++ after } := by
  obtain ⟨hget, herase⟩ := picked_of_length (x := i) (after := after) hp
  simp only [writerTurn, hr, hl, hw, hget, herase]

end

/-- Settles O26: the commands join their port's list while its lock is held, and an idle agent's turn takes the one
picked. -/
theorem commandsWaitForTheirLock : Obligations.CommandsWaitForTheirLock := by
  refine ⟨fun s i a hl h => exec_readPort_held hl h, fun s i a hl h hp => ?_, ?_, ?_⟩
  · exact exec_writePort_waits hl h fun payload hi =>
      payloadRefused_eq_false (hp payload hi).1 (hp payload hi).2
  · intro s pick rest i before after he hr hl hw hp
    rw [step_cons he]
    exact readerTurn_picks (s := { s with events := rest }) hr hl hw hp
  · intro s pick rest i before after he hr hl hw hp
    rw [step_cons he]
    exact writerTurn_picks (s := { s with events := rest }) hr hl hw hp

end Sys2Proof.Machine

/-! ## Running to the next suspension point (20_memory.md R78; log entries 1 and 11) -/

namespace Sys2Proof.Machine

variable {s t u : State}

theorem readerSuspended_of_idle (h : s.reader = .idle) : s.readerSuspended := by
  simp only [State.readerSuspended, h]

/-! ### The reader's moves -/

/-- Under a bound that exceeds the work in hand, a run of moves ends only where the command returns or waits: every move
that goes on leaves less work. -/
theorem runReader_suspends {n : Nat} (hi : s.Inv) (hn : work s < n) (h : runReader n s = .next t) :
    t.readerSuspended := by
  induction n generalizing s with
  | zero => exact absurd hn (Nat.not_lt_zero _)
  | succ n ih =>
    have hk := readerMove_keeps hi
    have hw := readerMove_works hi
    cases hm : readerMove s with
    | go u =>
      rw [hm] at hk hw
      have hless : work u < work s := hw
      exact ih hk.inv (by omega) (runReader_go hm ▸ h)
    | wait u =>
      rw [runReader_wait hm] at h
      cases h
      exact readerMove_wait hi hm
    | halt o =>
      rw [hm] at hk
      rw [runReader_halt hm, show o = .fault .panic from hk] at h
      cases h

theorem runReader_moveBound_suspends (hi : s.Inv) (h : runReader (moveBound s) s = .next t) : t.readerSuspended :=
  runReader_suspends hi (work_lt_moveBound hi.cursors) h

/-! ### A turn of the reader, and the R port -/

/-- A header that decodes: the fetch's move is the meaning of its frame (43_frame_reader.md R163). -/
theorem readerMove_fetched {call : HeaderCall} {octets : List Byte} {i : Instr} {size : Nat}
    (hr : s.reader = .header call .fetch) (ho : fetchOctets s = some octets)
    (hd : decodeFrame s.cfg octets = .ok i size) : readerMove s = moveOf (exec i s) := by
  obtain ⟨bits, len, key, hp, he⟩ := exec_decodeFrame hd s
  rw [readerMove_fetch_ok hr ho hp, he]

/-- An R-port command that gets `RLOCK` answers at once, or is a run of the reader's moves. -/
theorem exec_readPort_suspends {i : Instr} (hi : s.Inv) (hl : s.RLOCK = none) (hp : onReadPort i = true)
    (h : exec i s = .next t) : t.readerSuspended := by
  have hidle := hi.reader_idle hl
  have hheader : ∀ j call, headerCommand j call s = .next t → t.readerSuspended := by
    intro j call h
    rw [headerCommand, acquireRead_free hl] at h
    split at h
    · cases h
      exact readerSuspended_of_idle hidle
    split at h
    · cases h
      exact readerSuspended_of_idle hidle
    · exact runReader_moveBound_suspends (beginFetch_inv hi hl (by omega) (by assumption) call) h
  cases i with
  | readFrameHeader => exact hheader _ _ h
  | readRawFrameHeader => exact hheader _ _ h
  | appendFrame n =>
    simp only [exec, execAppendFrame, acquireRead_free hl] at h
    split at h
    · cases h
      exact readerSuspended_of_idle hidle
    · exact runReader_moveBound_suspends (beginDeliver_inv hi hl (by assumption) .appendFrame n) h
  | read n =>
    simp only [exec, execRead, acquireRead_free hl] at h
    split at h
    · cases h
      exact readerSuspended_of_idle hidle
    split at h
    · exact runReader_moveBound_suspends (beginFetch_inv hi hl (by assumption) (by assumption) (.read n)) h
    · exact runReader_moveBound_suspends (beginDeliver_inv hi hl (by assumption) .read n) h
  | _ => cases hp

/-- A turn of a reader whose command is under way is a run of moves, after the fetched frame's where there is one. -/
theorem readerTurn_running {pick : Nat} (hi : s.Inv) (hr : s.reader ≠ .idle) (h : readerTurn pick s = .next t) :
    ∃ u, u.Inv ∧ runReader (moveBound u) u = .next t := by
  cases hplace : s.reader with
  | idle => exact absurd hplace hr
  | deliver call want out =>
    simp only [readerTurn, hplace] at h
    exact ⟨s, hi, h⟩
  | header call phase =>
    cases phase with
    | fetch =>
      simp only [readerTurn, hplace] at h
      cases ho : fetchOctets s with
      | none => simp only [ho] at h; cases h
      | some octets =>
        simp only [ho] at h
        cases hd : decodeFrame s.cfg octets with
        | ok i size =>
          simp only [hd] at h
          have hk := readerMove_keeps hi
          rw [readerMove_fetched hplace ho hd] at hk
          cases he : exec i s with
          | next u =>
            rw [he] at h hk
            exact ⟨u, hk.inv, h⟩
          | fault f => rw [he] at h; cases h
          | refused r => rw [he] at h; cases h
        | _ =>
          simp only [hd] at h
          exact ⟨s, hi, h⟩
    | _ =>
      simp only [readerTurn, hplace] at h
      exact ⟨s, hi, h⟩

theorem readerTurn_suspends {pick : Nat} (hi : s.Inv) (h : readerTurn pick s = .next t) : t.readerSuspended := by
  by_cases hr : s.reader = .idle
  · obtain he | ⟨i, hpick, hl, he⟩ | ⟨call, hr', -⟩ | ⟨call, octets, i, size, hr', -⟩ | he := readerTurn_cases pick s
    · rw [he] at h
      cases h
      exact readerSuspended_of_idle hr
    · have hrest : ∀ j ∈ s.rWait.eraseIdx pick, onReadPort j = true := fun j hj =>
        hi.rWait j (List.mem_of_mem_eraseIdx hj)
      exact exec_readPort_suspends (hi.with_waiting hrest hi.wWait) hl (hi.rWait i (List.mem_of_getElem? hpick))
        (he ▸ h)
    · exact absurd (hr.symm.trans hr') nofun
    · exact absurd (hr.symm.trans hr') nofun
    · exact runReader_moveBound_suspends hi (he ▸ h)
  · obtain ⟨u, hu, hrun⟩ := readerTurn_running hi hr h
    exact runReader_moveBound_suspends hu hrun

/-! ### A control frame -/

/-- The command `call` has returned, or stands at some place of its own. -/
def ServesCall (call : HeaderCall) (t : State) : Prop := t.reader = .idle ∨ ∃ phase, t.reader = .header call phase

/-- A move that goes on, goes on for `call`. -/
def Move.ServesCall (call : HeaderCall) : Move → Prop
  | .go t => Machine.ServesCall call t
  | .wait _ => True
  | .halt _ => True

theorem fill_reader (h : fill s = some t) : t.reader = s.reader := by
  rw [(fill_some h).1]

theorem readOnce_reader {n : Nat} {st : ReadStatus} (h : readOnce s = some (n, st, t)) : t.reader = s.reader := by
  obtain ⟨d, left, -, -, -, -, rfl⟩ := readOnce_some h
  rfl

section
variable {call : HeaderCall}

theorem pongCompose_servesCall (call : HeaderCall) (s : State) : (pongCompose call s).ServesCall call := by
  unfold pongCompose
  split
  · trivial
  split
  · split
    · trivial
    · exact .inr ⟨.pongWrite, rfl⟩
  · split
    · trivial
    · exact .inr ⟨.pongWrite, rfl⟩

theorem pingMove_servesCall (hr : s.reader = .header call .ping) : (pingMove call s).ServesCall call := by
  unfold pingMove
  split
  · trivial
  split
  · have h1 : (if frameEnd s.r > s.cfg.rbufSize then compactFromST s else s).reader = .header call .ping := by
      split <;> exact hr
    simp only
    generalize (if frameEnd s.r > s.cfg.rbufSize then compactFromST s else s) = s1 at h1
    cases hrd : readOnce s1 with
    | none => trivial
    | some x =>
      obtain ⟨n, st, s2⟩ := x
      simp only
      split
      · exact .inr ⟨.ping, (readOnce_reader hrd).trans h1⟩
      · exact .inl rfl
  · exact pongCompose_servesCall call s

theorem pongMove_servesCall (call : HeaderCall) (s : State) : (pongMove call s).ServesCall call := by
  unfold pongMove
  split
  · trivial
  split
  · trivial
  simp only
  split
  · exact .inr ⟨.fetch, rfl⟩
  · exact .inl rfl

theorem skipMove_servesCall (hr : s.reader = .header call .skip) : (skipMove call s).ServesCall call := by
  unfold skipMove
  split
  · exact .inr ⟨.fetch, rfl⟩
  split
  · exact .inr ⟨.skip, hr⟩
  cases hf : fill s with
  | none => trivial
  | some s1 =>
    simp only
    cases hrd : readOnce s1 with
    | none => trivial
    | some x =>
      obtain ⟨n, st, s2⟩ := x
      simp only
      split
      · exact .inr ⟨.skip, (readOnce_reader hrd).trans ((fill_reader hf).trans hr)⟩
      · exact .inl rfl

theorem endClose_servesCall (call : HeaderCall) (got : Nat) (s : State) : (endClose call got s).ServesCall call := by
  unfold endClose
  split
  · trivial
  · exact .inl rfl

theorem closeMove_servesCall {want got : Nat} (hi : s.Inv) (hr : s.reader = .header call (.close want got)) :
    (closeMove call want got s).ServesCall call := by
  have hri := hi.reader
  simp only [ReaderInv, hr] at hri
  obtain ⟨-, -, -, -, hwant, -⟩ := hri
  have hd := deliverTurn_cases (s := s) (want := want) (got := got) hi.cursors hi.size hwant
  unfold closeMove
  revert hd
  cases deliverTurn want got s with
  | done => exact fun _ => endClose_servesCall call got s
  | octets bs t => exact fun _ => .inr ⟨_, rfl⟩
  | again t =>
    rintro ⟨-, htaken, -⟩
    exact .inr ⟨_, htaken.reader.trans hr⟩
  | waiting t => exact fun _ => trivial
  | ended st t =>
    intro _
    simp only
    split
    · exact endClose_servesCall call got t
    · exact .inl rfl
  | halt f => exact fun _ => trivial

theorem controlMove_servesCall {phase : HeaderPhase} (hi : s.Inv) (hr : s.reader = .header call phase) :
    (controlMove s).ServesCall call := by
  cases phase with
  | fetch => simp only [controlMove, hr]; trivial
  | ping => simpa only [controlMove, hr] using pingMove_servesCall hr
  | pongWrite => simpa only [controlMove, hr] using pongMove_servesCall call s
  | skip => simpa only [controlMove, hr] using skipMove_servesCall hr
  | close want got => simpa only [controlMove, hr] using closeMove_servesCall hi hr

/-- Off the fetch, a control frame's move is the reader's. -/
theorem controlMove_eq_readerMove {phase : HeaderPhase} (hr : s.reader = .header call phase) (hp : phase ≠ .fetch) :
    controlMove s = readerMove s := by
  cases phase with
  | fetch => exact absurd rfl hp
  | _ => simp only [readerMove, hr]

/-- A control frame's run, under a bound that exceeds the work in hand, ends with the next header's fetch, or where the
command returns or waits. -/
theorem runControl_suspends {n : Nat} (hi : s.Inv) (hn : work s < n) (hc : ServesCall call s)
    (h : runControl n s = .next t) : t.reader = .header call .fetch ∨ t.readerSuspended := by
  induction n generalizing s with
  | zero => exact absurd hn (Nat.not_lt_zero _)
  | succ n ih =>
    obtain hr | ⟨phase, hr⟩ := hc
    · rw [runControl_idle _ hr] at h
      cases h
      exact .inr (readerSuspended_of_idle hr)
    by_cases hp : phase = .fetch
    · subst hp
      rw [runControl_fetch _ hr] at h
      cases h
      exact .inl hr
    have hk := controlMove_keeps hi
    have hw := controlMove_works hi
    have hserves := controlMove_servesCall hi hr
    cases hm : controlMove s with
    | go u =>
      rw [hm] at hk hw hserves
      have hless : work u < work s := hw
      exact ih hk.inv (by omega) hserves (runControl_go hm ▸ h)
    | wait u =>
      rw [runControl_wait hm] at h
      cases h
      exact .inr (readerMove_wait hi ((controlMove_eq_readerMove hr hp).symm.trans hm))
    | halt o =>
      rw [hm] at hk
      rw [runControl_halt hm, show o = .fault .panic from hk] at h
      cases h

end

/-- Settles O27: the bound exceeds the work in hand, which every move that goes on lessens. -/
theorem readerCommandsRunUntilTheyReturnOrWait : Obligations.ReaderCommandsRunUntilTheyReturnOrWait := by
  refine ⟨fun s t pick rest hi he h => ?_, fun s t i hi hl hp h => exec_readPort_suspends hi hl hp h,
    fun s t hi h => runReader_moveBound_suspends hi h, fun s t call phase hi hr h => ?_⟩
  · rw [step_cons he] at h
    exact readerTurn_suspends (hi.with_events rest) h
  · exact runControl_suspends hi (work_lt_moveBound hi.cursors) (.inr ⟨phase, hr⟩) h

end Sys2Proof.Machine

/-! ## A Ping that finds `WLOCK` held (20_memory.md R77; 44_frame_writer.md R205) -/

namespace Sys2Proof.Machine

variable {s : State} {call : HeaderCall}

/-- A Ping whole in `RBUF` whose Pong cannot be composed yet makes no move (20_memory.md R78, 60_exceptions.md R272). -/
theorem controlMove_ping_held {holder : Agent} (hr : s.reader = .header call .ping) (hl : s.WLOCK = some holder)
    (hfits : frameEnd s.r - s.r.ST ≤ s.cfg.rbufSize) (hwhole : frameEnd s.r ≤ s.r.END) : controlMove s = .wait s := by
  simp only [controlMove, hr, pingMove, if_neg (Nat.not_lt.mpr hfits), if_neg (Nat.not_lt.mpr hwhole), pongCompose, hl]

/-- Settles O48: the latch leaves a Ping whole in `RBUF`, and its first move waits. -/
theorem aPingWaitsForTheWriteLock : Obligations.APingWaitsForTheWriteLock := by
  intro s h call holder first hr hc hl hfits hwhole
  simp only [first, length_octets] at hfits hwhole ⊢
  have hmove : controlMove { latch 9 h s with reader := .header call .ping } =
      .wait { latch 9 h s with reader := .header call .ping } := by
    refine controlMove_ping_held rfl hl ?_ hwhole
    show s.r.ST + headSize h + headLength h - s.r.ST ≤ s.cfg.rbufSize
    unfold headLength
    omega
  calc exec (.ping h) s
      = runControl (_ + 8) { latch 9 h s with reader := .header call .ping } := controlFrame_run hr hc
    _ = .next { latch 9 h s with reader := .header call .ping } := runControl_wait hmove

end Sys2Proof.Machine

/-! ## A W-port command in `TWrite` (20_memory.md R74, R78; 44_frame_writer.md R201, R203, R209, R210) -/

namespace Sys2Proof.Machine

variable {s : State} {call : WriteCall} {payload h body : List Byte} {op : BitVec 4} {final : Bool} {env : Inputs}

/-! ### The frame that waits -/

theorem rand4_cons {key : Key} {keys : List Key} (hk : s.env.rand = key :: keys) :
    rand4 s = (key, { s with env := { s.env with rand := keys } }) := by
  simp only [rand4, hk]

theorem rand4_nil (hk : s.env.rand = []) :
    rand4 s = (Config.freeKey s.env.draws, { s with env := { s.env with draws := s.env.draws + 1 } }) := by
  simp only [rand4, hk]

/-- The frame `h ++ body` stands in `WBUF[0..WLEN)`, its payload of `len` octets, and the inputs are `env`. -/
def State.withFrame (s : State) (h body : List Byte) (len : Nat) (env : Inputs) : State :=
  { s with w := { s.w with WBUF := s.w.WBUF.writeBytes 0 (h ++ body), WLEN := h.length + len }, env := env }

/-- That frame is in `TWrite` for `call`, with `WLOCK` held (44_frame_writer.md R201 step 7). -/
def State.inTWrite (s : State) (call : WriteCall) (h body : List Byte) (len : Nat) (env : Inputs) : State :=
  { s.withFrame h body len env with WLOCK := some .writer, writer := .sending call h.length len }

theorem composeFrame_server (hr : s.cfg.role = .server) :
    let h := encodeHeader op final false Key.zero payload.length
    composeFrame payload op final s = (h.length, s.withFrame h payload payload.length s.env) := by
  simp only [composeFrame, hr]
  rfl

theorem composeFrame_client {key : Key} (hr : s.cfg.role = .client) (hk : rand4 s = (key, { s with env := env })) :
    let h := encodeHeader op final true key payload.length
    composeFrame payload op final s = (h.length, s.withFrame h (mask payload key 0) payload.length env) := by
  simp only [composeFrame, hr, hk]
  rfl

/-- With no answer to its `TWrite` the writer makes no move (20_memory.md R78). -/
theorem writerMove_waits {hs len : Nat} {frame : List Byte} (hw : s.writer = .sending call hs len)
    (hf : s.w.WBUF.readBytes 0 s.w.WLEN = some frame) (htx : s.env.tx = []) : writerMove s = .wait s := by
  simp only [writerMove, hw, hf, tWrite_none.mpr htx]

/-- A frame just composed waits in `TWrite` when no answer is at hand. -/
theorem sendFrame_waits
    (hc : composeFrame payload op final s = (h.length, s.withFrame h body payload.length env))
    (hbody : body.length = payload.length) (htx : env.tx = []) :
    sendFrame call payload op final s = .next (s.inTWrite call h body payload.length env) := by
  have hframe : (s.w.WBUF.writeBytes 0 (h ++ body)).readBytes 0 (h.length + payload.length) = some (h ++ body) :=
    readBytes_writeBytes_length (by rw [List.length_append, hbody])
  have hmove : writerMove (s.inTWrite call h body payload.length env) =
      .wait (s.inTWrite call h body payload.length env) := writerMove_waits rfl hframe htx
  simp only [sendFrame, hc]
  exact congrArg Move.outcome hmove

/-- What a command that sends `payload` answers when it has to wait, in either role (44_frame_writer.md R201, R202; with
no draw at hand the key is a free value, log entry 8). -/
def WaitsInTWrite (s : State) (call : WriteCall) (payload : List Byte) (op : BitVec 4) (final : Bool)
    (o : Outcome) : Prop :=
  let masked := encodeHeader op final true
  (s.cfg.role = .server →
    o = .next (s.inTWrite call (encodeHeader op final false Key.zero payload.length) payload payload.length s.env)) ∧
  (∀ key keys, s.cfg.role = .client → s.env.rand = key :: keys →
    o = .next (s.inTWrite call (masked key payload.length) (mask payload key 0) payload.length
      { s.env with rand := keys })) ∧
  (s.cfg.role = .client → s.env.rand = [] → ∃ key,
    o = .next (s.inTWrite call (masked key payload.length) (mask payload key 0) payload.length
      { s.env with draws := s.env.draws + 1 }))

theorem sendFrame_waitsInTWrite (htx : s.env.tx = []) (call : WriteCall) (payload : List Byte) (op : BitVec 4)
    (final : Bool) : WaitsInTWrite s call payload op final (sendFrame call payload op final s) := by
  refine ⟨fun hr => ?_, fun key keys hr hk => ?_, fun hr hk => ⟨Config.freeKey s.env.draws, ?_⟩⟩
  · exact sendFrame_waits (composeFrame_server hr) rfl htx
  · exact sendFrame_waits (composeFrame_client hr (rand4_cons hk)) (length_mask _ _ _) htx
  · exact sendFrame_waits (composeFrame_client hr (rand4_nil hk)) (length_mask _ _ _) htx

/-! ### The four commands that send a frame -/

/-- `WCLOSED` set, as `CLOSE_WRITER` and `CLOSE_CONN` do before their write (44_frame_writer.md R209, R210). -/
def State.closingWriter (s : State) : State := { s with w := { s.w with WCLOSED := true } }

theorem writeCommand_free {i : Instr} (hl : s.WLOCK = none) (hp : payloadRefused s.cfg payload = false) :
    writeCommand i call payload op final s = sendFrame call payload op final s := by
  rw [writeCommand, if_neg (Bool.eq_false_iff.mp hp), acquireWrite_free hl]

section
variable (hl : s.WLOCK = none) (htx : s.env.tx = [])
include hl htx

theorem exec_writeFrame_waits (hp : payloadRefused s.cfg payload = false) (op : BitVec 4) (final : Bool) :
    WaitsInTWrite s .writeFrame payload op final (exec (.writeFrame payload op final) s) := by
  rw [exec, execWriteFrame, writeCommand_free hl hp]
  exact sendFrame_waitsInTWrite htx _ _ _ _

theorem exec_write_waits (hp : payloadRefused s.cfg payload = false) :
    WaitsInTWrite s .write payload 2 true (exec (.write payload) s) := by
  rw [exec, execWrite, writeCommand_free hl hp]
  exact sendFrame_waitsInTWrite htx _ _ _ _

theorem exec_closeWriter_waits (hw : s.w.WCLOSED = false) (status : BitVec 16) :
    WaitsInTWrite s.closingWriter .closeWriter (be16 (closeCode status)) 8 true (exec (.closeWriter status) s) := by
  rw [exec, execCloseWriter, acquireWrite_free hl, if_neg (Bool.eq_false_iff.mp hw)]
  exact sendFrame_waitsInTWrite (s := s.closingWriter) htx _ _ _ _

theorem exec_closeConn_waits (hw : s.w.WCLOSED = false) :
    WaitsInTWrite s.closingWriter .closeConn [] 8 true (exec .closeConn s) := by
  rw [exec, execCloseConn, acquireWrite_free hl, if_neg (Bool.eq_false_iff.mp hw)]
  exact sendFrame_waitsInTWrite (s := s.closingWriter) htx _ _ _ _

end

/-- The low octet of a 16-bit number, taken by its remainder. -/
theorem be16_eq_mod (v : Nat) : be16 v = [BitVec.ofNat 8 (v / 256), BitVec.ofNat 8 (v % 256)] := by
  have hlow : BitVec.ofNat 8 v = BitVec.ofNat 8 (v % 256) :=
    BitVec.eq_of_toNat_eq (by simp only [BitVec.toNat_ofNat, Nat.reducePow, Nat.mod_mod])
  rw [be16, hlow]

/-! ### The answer -/

/-- The one `TWrite` of `frame` was made, with the answer `a`, and `WLEN` is 0 (44_frame_writer.md R201, R204). -/
def State.afterWrite (s : State) (frame : List Byte) (a : TxAnswer) (left : List TxAnswer) : State :=
  { s with
    w := { s.w with WLEN := 0 }
    env := { s.env with tx := left }
    trace := .write frame (min a.accept frame.length) a.status :: s.trace }

section
variable {hs len : Nat} {frame : List Byte} {a : TxAnswer} {left : List TxAnswer}

/-- With an answer at hand a turn of the writer makes its `TWrite` and ends the command. -/
theorem writerTurn_answered {pick : Nat} (hw : s.writer = .sending call hs len)
    (hf : s.w.WBUF.readBytes 0 s.w.WLEN = some frame) (htx : s.env.tx = a :: left) :
    writerTurn pick s =
      .next (endSend call hs len (min a.accept frame.length) a.status (s.afterWrite frame a left)) := by
  have hmove : writerMove s =
      .go (endSend call hs len (min a.accept frame.length) a.status (s.afterWrite frame a left)) := by
    unfold writerMove
    rw [hw]
    simp only [hf, tWrite_cons htx]
    rfl
  simp only [writerTurn, hw, hmove, Move.outcome]

end

/-- `TCLOSED` set and `TClose` answered by `c`, the inputs `env` left (44_frame_writer.md R210). -/
def State.afterClose (s : State) (c : SendStatus) (env : Inputs) : State :=
  { s with w := { s.w with TCLOSED := true }, env := env, trace := .close c :: s.trace }

theorem closeTransport_closed (ht : s.w.TCLOSED = true) : closeTransport s = endWrite 0x13 (.status .ok) s := by
  simp only [closeTransport, ht, if_true]

theorem closeTransport_cons {c : SendStatus} {cs : List SendStatus} (ht : s.w.TCLOSED = false)
    (hc : s.env.closes = c :: cs) :
    closeTransport s = endWrite 0x13 (.status (closeTransportStatus c)) (s.afterClose c { s.env with closes := cs }) := by
  simp only [closeTransport, ht, Bool.false_eq_true, if_false, tClose, hc]
  rfl

/-- With no answer of `TClose` at hand its status is a free value (log entry 8). -/
theorem closeTransport_nil (ht : s.w.TCLOSED = false) (hc : s.env.closes = []) :
    ∃ c, closeTransport s = endWrite 0x13 (.status (closeTransportStatus c))
      (s.afterClose c { s.env with draws := s.env.draws + 1 }) := by
  refine ⟨Config.freeCloseAnswer s.env.draws, ?_⟩
  simp only [closeTransport, ht, Bool.false_eq_true, if_false, tClose, hc]
  rfl

/-- Settles O58: each command that gets `WLOCK` composes its frame and its first move waits; a turn with an answer makes
the `TWrite` and ends the command, `CLOSE_CONN` by way of `TClose`. -/
theorem aWriteWaitsInTWriteHoldingItsLock : Obligations.AWriteWaitsInTWriteHoldingItsLock := by
  refine ⟨fun s hl htx => ?_, ?_⟩
  · refine ⟨fun payload op final hlen hcap => ?_, fun hw => ⟨fun status => ?_, ?_⟩⟩
    · have hp := payloadRefused_eq_false hlen hcap
      exact ⟨exec_writeFrame_waits hl htx hp op final, exec_write_waits hl htx hp⟩
    · have h := exec_closeWriter_waits hl htx hw status
      rw [be16_eq_mod] at h
      exact h
    · exact exec_closeConn_waits hl htx hw
  · intro s pick hs len call frame a left rest he hw hf hlen htx tn st u ended closeStatus
    have hstep : step s = .next (endSend call hs len tn a.status u) := by
      have h := writerTurn_answered (s := { s with events := rest }) (pick := pick) hw hf htx
      simp only [State.afterWrite, hlen] at h
      exact (step_cons he).trans h
    refine ⟨?_, ?_, ?_, ?_, ?_, ?_⟩
    · rintro rfl
      exact hstep
    · rintro rfl
      exact hstep
    · rintro rfl
      exact hstep
    · rintro rfl ht
      exact hstep.trans (congrArg _ (closeTransport_closed ht))
    · rintro c cs rfl ht hc
      exact hstep.trans (congrArg _ (closeTransport_cons ht hc))
    · rintro rfl ht hc
      obtain ⟨c, h⟩ := closeTransport_nil (s := u) ht hc
      exact ⟨c, hstep.trans (congrArg _ h)⟩

end Sys2Proof.Machine

/-! ## The three parsers, an equation per case (40_header_codec.md R120 to R122) -/

namespace Sys2Proof

variable {buf : List Byte} {i : Nat} {bits : BitVec 16}

/-- len7 is the low seven bits of the base header (30_encoding.md R91). -/
theorem toNat_hdrLen7 (bits : BitVec 16) : (hdrLen7 bits).toNat = bits.toNat % 128 := by
  simp [hdrLen7]

theorem parseLength_short (h : (hdrLen7 bits).toNat ≤ 125) :
    parseLength bits buf i = .ok (hdrLen7 bits).toNat i := by
  simp only [parseLength, if_pos h]

theorem parseLength_ext16 (h : (hdrLen7 bits).toNat = 126) :
    parseLength bits buf i =
      if i + 2 > buf.length then .needMore else .ok (beNat ((buf.drop i).take 2)) (i + 2) := by
  simp [parseLength, h]

theorem parseLength_ext64 (h : (hdrLen7 bits).toNat = 127) :
    parseLength bits buf i =
      if i + 8 > buf.length then .needMore
      else if beNat ((buf.drop i).take 8) > maxLen then .oversize
      else .ok (beNat ((buf.drop i).take 8)) (i + 8) := by
  simp [parseLength, h]

/-- The three forms of the length (30_encoding.md R92). -/
theorem hdrLen7_cases (bits : BitVec 16) :
    (hdrLen7 bits).toNat ≤ 125 ∨ (hdrLen7 bits).toNat = 126 ∨ (hdrLen7 bits).toNat = 127 := by
  have := (hdrLen7 bits).isLt
  omega

theorem readMask_clear (h : hdrMask bits = false) : readMask bits buf i = .ok Key.zero i := by
  simp [readMask, h]

end Sys2Proof

/-! ## Decoding undoes encoding (30_encoding.md R90 to R96, R100, R104) -/

namespace Sys2Proof

open Machine

variable {buf tail : List Byte} {i : Nat}

/-! ### The opcode and the command code (R96, R104) -/

theorem encode_ofWire (op : BitVec 4) (h : Head) : encode (Instr.ofWire op h) = .frame (h.octets op) := by
  obtain ⟨n, rfl⟩ : ∃ n : Fin 16, op = BitVec.ofFin n := ⟨op.toFin, rfl⟩
  fin_cases n <;> rfl

theorem wellFormed_ofWire (op : BitVec 4) (h : Head) : (Instr.ofWire op h).wellFormed = h.wellFormed := by
  unfold Instr.ofWire
  split <;> rfl

/-- An instruction is the frame of some opcode, or it is encoded as a command, which decodes to it. -/
theorem frame_or_command (i : Instr) :
    (∃ op h, i = Instr.ofWire op h) ∨ ∃ c, encode i = .command c ∧ decodeCommand c = some i := by
  cases i with
  | cont h => exact .inl ⟨0, h, rfl⟩
  | text h => exact .inl ⟨1, h, rfl⟩
  | bin h => exact .inl ⟨2, h, rfl⟩
  | rsvd3 h => exact .inl ⟨3, h, rfl⟩
  | rsvd4 h => exact .inl ⟨4, h, rfl⟩
  | rsvd5 h => exact .inl ⟨5, h, rfl⟩
  | rsvd6 h => exact .inl ⟨6, h, rfl⟩
  | rsvd7 h => exact .inl ⟨7, h, rfl⟩
  | close h => exact .inl ⟨8, h, rfl⟩
  | ping h => exact .inl ⟨9, h, rfl⟩
  | pong h => exact .inl ⟨10, h, rfl⟩
  | rsvdB h => exact .inl ⟨11, h, rfl⟩
  | rsvdC h => exact .inl ⟨12, h, rfl⟩
  | rsvdD h => exact .inl ⟨13, h, rfl⟩
  | rsvdE h => exact .inl ⟨14, h, rfl⟩
  | rsvdF h => exact .inl ⟨15, h, rfl⟩
  | _ => exact .inr ⟨_, rfl, rfl⟩

/-! ### Parsing the octets of a header (40_header_codec.md R120 to R125) -/

section
variable (h : Head) (op : BitVec 4)

/-- Where the length octets of a well-formed header stand, the length step reads its length (R121). -/
theorem parseLength_bits (hw : h.wellFormed = true) (hd : buf.drop i = h.len.ext ++ tail) :
    parseLength (h.bits op) buf i = .ok h.len.length (i + h.len.ext.length) := by
  have hroom : buf.length - i = h.len.ext.length + tail.length := by
    rw [← List.length_drop, hd, List.length_append]
  unfold Head.wellFormed at hw
  have h7 := hdrLen7_bits h op
  cases hl : h.len with
  | short v =>
    rw [hl] at h7 hw
    have hv : (hdrLen7 (h.bits op)).toNat ≤ 125 := h7 ▸ of_decide_eq_true hw
    rw [parseLength_short hv, h7]
    rfl
  | ext16 v =>
    rw [hl] at h7 hd hroom
    have hle : ¬ i + 2 > buf.length := by simp only [LenField.ext, length_be16] at hroom; omega
    have hv : beNat ((buf.drop i).take 2) = v.toNat := by
      rw [hd, LenField.ext, List.take_left' (length_be16 _)]
      exact beNat_be16 v.isLt
    rw [parseLength_ext16 (by rw [h7]; rfl), if_neg hle, hv]
    rfl
  | ext64 v =>
    rw [hl] at h7 hd hroom hw
    have hle : ¬ i + 8 > buf.length := by simp only [LenField.ext, length_be64] at hroom; omega
    have hv : beNat ((buf.drop i).take 8) = v.toNat := by
      rw [hd, LenField.ext, List.take_left' (length_be64 _)]
      exact beNat_be64 v.isLt
    have hmax : ¬ v.toNat > maxLen := not_lt.mpr (of_decide_eq_true hw)
    rw [parseLength_ext64 (by rw [h7]; rfl), if_neg hle, hv, if_neg hmax]
    rfl

/-- Where the key octets of a header stand, the key step reads its key (R122). -/
theorem readMask_bits (hd : buf.drop i = h.keyOctets ++ tail) :
    readMask (h.bits op) buf i = .ok (headKey h) (i + h.keyOctets.length) := by
  unfold readMask headKey
  unfold Head.keyOctets at hd ⊢
  rw [hdrMask_bits, hd]
  cases h.key <;> rfl

/-- `parseFull` undoes the encoding of a header, whatever octets follow (R125). -/
theorem parseFull_octets (hw : h.wellFormed = true) (tail : List Byte) :
    parseFull (h.octets op ++ tail) 0 = .ok (h.bits op) (headLength h) (headKey h) (headSize h) := by
  have hhead : parseHeader (h.octets op ++ tail) 0 = .ok (h.bits op) 2 := rfl
  have hlen : parseLength (h.bits op) (h.octets op ++ tail) 2 = .ok h.len.length (2 + h.len.ext.length) :=
    parseLength_bits h op hw (tail := h.keyOctets ++ tail) (by simp [Head.octets])
  have hkey : readMask (h.bits op) (h.octets op ++ tail) (2 + h.len.ext.length) = .ok (headKey h) (headSize h) :=
    readMask_bits h op (tail := tail) (by simp [Head.octets, Nat.add_comm 2])
  simp only [parseFull, hhead, parseRest, hlen, hkey, headLength]

/-- The form of a well-formed length is the one its len7 names (30_encoding.md R92, R93). -/
theorem lenField_of_len7 {l : LenField} (hw : l.wellFormed = true) :
    (if l.len7.toNat ≤ 125 then .short l.len7
      else if l.len7.toNat = 126 then .ext16 (BitVec.ofNat 16 l.length)
      else .ext64 (BitVec.ofNat 64 l.length)) = l := by
  cases l with
  | short v => exact if_pos (of_decide_eq_true hw)
  | ext16 v => simp [LenField.len7, LenField.length]
  | ext64 v => simp [LenField.len7, LenField.length]

/-- A well-formed head is the one its base header, length and key stand for. -/
theorem ofParsed_bits_length_key (hw : h.wellFormed = true) :
    Head.ofParsed (h.bits op) (headLength h) (headKey h) = h := by
  obtain ⟨fin, rsv, len, key⟩ := h
  have hlen := lenField_of_len7 (l := len) hw
  have hkey : (if key.isSome then some (key.getD Key.zero) else none) = key := by cases key <;> rfl
  simp only [Head.ofParsed, hdrFin_bits, hdrRsv_bits, hdrLen7_bits, hdrMask_bits, headLength, headKey, hlen, hkey]

end

/-- With the optional checks off, `parseFull'` is `parseFull` (43_frame_reader.md R162). -/
theorem parseChecked_unchecked {cfg : Config} (hr : cfg.rsvEnforce = false) (hm : cfg.maskEnforce = false)
    (buf : List Byte) (st : Nat) : parseChecked cfg buf st = parseFull buf st := by
  unfold parseChecked parseFull
  cases parseHeader buf st <;> simp [hr, hm]

theorem decodeFrame_octets {cfg : Config} (hr : cfg.rsvEnforce = false) (hm : cfg.maskEnforce = false) {h : Head}
    (hw : h.wellFormed = true) (op : BitVec 4) (tail : List Byte) :
    decodeFrame cfg (h.octets op ++ tail) = .ok (Instr.ofWire op h) (h.octets op).length := by
  unfold decodeFrame
  rw [parseChecked_unchecked hr hm, parseFull_octets h op hw]
  simp only [hdrOpcode_bits, ofParsed_bits_length_key h op hw, length_octets]

/-- Settles O2: the octets of a frame's header parse back field by field, and its opcode names its constructor; a
command is told by its code. -/
theorem decodingUndoesEncoding : Obligations.DecodingUndoesEncoding := by
  intro i hw
  obtain ⟨op, h, rfl⟩ | ⟨c, he, hc⟩ := frame_or_command i
  · rw [wellFormed_ofWire] at hw
    rw [encode_ofWire]
    exact fun cfg tail hr hm => decodeFrame_octets hr hm hw op tail
  · rw [he]
    exact hc

end Sys2Proof

/-! ## Encoding undoes decoding (30_encoding.md R90 to R96, R104) -/

namespace Sys2Proof

open Machine

variable {buf : List Byte} {st i len next : Nat} {bits : BitVec 16} {key : Key}

/-! ### Octets from the number they write (00_scope.md R6) -/

/-- A base header tells its two octets. -/
theorem word_inj {a b c d : Byte} (h : (a ++ b : BitVec 16) = c ++ d) : a = c ∧ b = d := by
  constructor
  · simpa only [BitVec.extractLsb'_append_eq_left] using congrArg (·.extractLsb' 8 8) h
  · simpa only [BitVec.extractLsb'_append_eq_right] using congrArg (·.extractLsb' 0 8) h

/-- Big-endian octets of one length are told by their number. -/
theorem beNat_inj {xs ys : List Byte} (hl : xs.length = ys.length) (h : beNat xs = beNat ys) : xs = ys := by
  induction xs generalizing ys with
  | nil => exact (List.length_eq_zero_iff.mp hl.symm).symm
  | cons x xs ih =>
    obtain _ | ⟨y, ys⟩ := ys
    · cases hl
    have hl' : xs.length = ys.length := Nat.succ.inj hl
    have hx := beNat_lt xs
    have hy := beNat_lt ys
    rw [beNat, beNat, hl'] at h
    rw [hl'] at hx
    have hdiv := congrArg (· / 256 ^ ys.length) h
    have hhead : x.toNat = y.toNat := by
      simpa only [Nat.mul_comm _ (256 ^ ys.length), Nat.mul_add_div (Nat.pow_pos (show 0 < 256 by omega)),
        Nat.div_eq_of_lt hx, Nat.div_eq_of_lt hy, Nat.add_zero] using hdiv
    rw [hhead] at h
    rw [BitVec.eq_of_toNat_eq hhead, ih hl' (Nat.add_left_cancel h)]

/-- The 16-bit form writes the two octets its number was read from (30_encoding.md R92). -/
theorem ext16_beNat_ext {bs : List Byte} (h : bs.length = 2) :
    (LenField.ext16 (BitVec.ofNat 16 (beNat bs))).ext = bs := by
  have hlt : beNat bs < 65536 := (beNat_lt bs).trans_eq (by rw [h]; norm_num)
  rw [LenField.ext, BitVec.toNat_ofNat, Nat.mod_eq_of_lt hlt]
  exact beNat_inj h.symm (beNat_be16 hlt)

/-- The 64-bit form writes the eight octets its number was read from (30_encoding.md R92). -/
theorem ext64_beNat_ext {bs : List Byte} (h : bs.length = 8) :
    (LenField.ext64 (BitVec.ofNat 64 (beNat bs))).ext = bs := by
  have hlt : beNat bs < 18446744073709551616 := (beNat_lt bs).trans_eq (by rw [h]; norm_num)
  rw [LenField.ext, BitVec.toNat_ofNat, Nat.mod_eq_of_lt hlt]
  exact beNat_inj h.symm (beNat_be64 hlt)

/-! ### The octets of a header that parsed -/

/-- The length form that len7 names, with the length that was read, is well formed (30_encoding.md R93, R101). -/
theorem ofParsed_wellFormed (h : parseFull buf st = .ok bits len key next) :
    (Head.ofParsed bits len key).wellFormed = true := by
  have hmax := ofParsed_length_le h
  simp only [Head.wellFormed, Head.ofParsed]
  split_ifs with h1 h2
  · exact decide_eq_true h1
  · rfl
  · refine decide_eq_true ?_
    rw [BitVec.toNat_ofNat]
    exact (Nat.mod_le _ _).trans hmax

/-- The length octets are those the length step took (R121). -/
theorem ofParsed_ext (h : parseLength bits buf i = .ok len next) :
    (Head.ofParsed bits len key).len.ext = (buf.drop i).take (next - i) := by
  obtain ⟨h7, -, rfl⟩ | ⟨h7, rfl, rfl, hle⟩ | ⟨h7, rfl, rfl, hle, -⟩ := parseLength_ok h
  · simp [Head.ofParsed, h7, LenField.ext]
  · have hlen : ((buf.drop i).take 2).length = 2 := by simp; omega
    simp [Head.ofParsed, h7, ext16_beNat_ext hlen]
  · have hlen : ((buf.drop i).take 8).length = 8 := by simp; omega
    simp [Head.ofParsed, h7, ext64_beNat_ext hlen]

/-- The key octets are those the key step took (R122). -/
theorem ofParsed_keyOctets (h : readMask bits buf i = .ok key next) :
    (Head.ofParsed bits len key).keyOctets = (buf.drop i).take (next - i) := by
  obtain ⟨hm, rfl, -, hk⟩ | ⟨hm, rfl, -⟩ := readMask_ok h
  · simp [Head.ofParsed, Head.keyOctets, hm, hk]
  · simp [Head.ofParsed, Head.keyOctets, hm]

/-- The octets of the head are the octets the parse took (R125, R126). -/
theorem ofParsed_octets (h : parseFull buf st = .ok bits len key next) :
    (Head.ofParsed bits len key).octets (hdrOpcode bits) = (buf.drop st).take (next - st) := by
  obtain ⟨q, hh, hl, hm⟩ := parseFull_ok h
  obtain ⟨b0, b1, rest, hd, hb, -, -⟩ := parseHeader_ok hh
  obtain ⟨h0, h1⟩ := word_inj ((ofParsed_bits h).trans hb)
  have hq : st + 2 ≤ q := by
    obtain ⟨-, -, hq⟩ | ⟨-, -, hq, -⟩ | ⟨-, -, hq, -⟩ := parseLength_ok hl <;> omega
  have hn : q ≤ next := by
    obtain ⟨-, hn, -⟩ | ⟨-, hn, -⟩ := readMask_ok hm <;> omega
  have hsplit : next - st = 2 + ((q - (st + 2)) + (next - q)) := by omega
  have hdrop : ((buf.drop (st + 2)).drop (q - (st + 2))) = buf.drop q := by
    rw [List.drop_drop, Nat.add_sub_cancel' hq]
  calc (Head.ofParsed bits len key).octets (hdrOpcode bits)
      = [b0, b1] ++ ((buf.drop (st + 2)).take (q - (st + 2)) ++ (buf.drop q).take (next - q)) := by
        rw [Head.octets, h0, h1, ofParsed_ext hl, ofParsed_keyOctets hm]
        rfl
    _ = (buf.drop st).take (next - st) := by
        rw [hsplit, List.take_add, List.take_add, List.drop_drop, hdrop, hd]
        rfl

/-! ### The command codes (R104) -/

/-- A code that decodes is one of the thirteen, and it is the code of the instruction it names. -/
theorem decodeCommand_some {c : Command} {i : Instr} (h : decodeCommand c = some i) :
    c.code.toNat ∈ [0x01, 0x02, 0x03, 0x04, 0x10, 0x11, 0x12, 0x13, 0x20, 0x21, 0x22, 0x23, 0x24] ∧
      ∃ operands, encode i = .command ⟨c.code, operands⟩ := by
  have of_code {v : Nat} {operands : Operands} (hv : c.code.toNat = v) :
      Code.command ⟨BitVec.ofNat 8 v, operands⟩ = .command ⟨c.code, operands⟩ := by
    rw [← hv, BitVec.ofNat_toNat, BitVec.setWidth_eq]
  unfold decodeCommand at h
  simp only at h
  split at h <;> cases h
  all_goals
    rename_i hv
    exact ⟨by rw [hv]; decide, _, of_code hv⟩

/-- Settles O3: the octets of the head that decoding answers are the ones it took, part by part; a command's code is
read off the match that decodes it. -/
theorem encodingUndoesDecoding : Obligations.EncodingUndoesDecoding := by
  refine ⟨fun cfg octets i size hd => ?_, fun c i h => (decodeCommand_some h).2⟩
  unfold decodeFrame at hd
  split at hd <;> cases hd
  rename_i bits len key hp
  have h := parseChecked_ok_parseFull hp
  refine ⟨?_, parseFull_next_le h, ?_⟩
  · rw [wellFormed_ofWire, ofParsed_wellFormed h]
  · rw [encode_ofWire, ofParsed_octets h]
    rfl

end Sys2Proof

/-! ## Octets after a header (30_encoding.md R102; 43_frame_reader.md R162) -/

namespace Sys2Proof

variable {buf : List Byte} {st i n : Nat} {bits : BitVec 16}

/-- Octets that are there stay where they are when others are appended. -/
theorem take_drop_append (h : i + n ≤ buf.length) (more : List Byte) :
    ((buf ++ more).drop i).take n = (buf.drop i).take n := by
  rw [List.drop_append_of_le_length (by omega), List.take_append_of_le_length (by rw [List.length_drop]; omega)]

theorem parseHeader_append (h : parseHeader buf st ≠ .needMore) (more : List Byte) :
    parseHeader (buf ++ more) st = parseHeader buf st := by
  cases hp : parseHeader buf st with
  | ok bits next =>
    obtain ⟨b0, b1, rest, hd, rfl, rfl, hle⟩ := parseHeader_ok hp
    rw [parseHeader, List.drop_append_of_le_length (by omega), hd]
    rfl
  | needMore => exact absurd hp h
  | oversize => exact absurd hp (parseHeader_ne_oversize buf st)

theorem parseLength_append (h : parseLength bits buf i ≠ .needMore) (more : List Byte) :
    parseLength bits (buf ++ more) i = parseLength bits buf i := by
  have hlen : (buf ++ more).length = buf.length + more.length := List.length_append
  obtain h7 | h7 | h7 := hdrLen7_cases bits
  · rw [parseLength_short h7, parseLength_short h7]
  · rw [parseLength_ext16 h7] at h ⊢
    have hle : ¬ i + 2 > buf.length := fun hc => h (if_pos hc)
    rw [parseLength_ext16 h7, if_neg hle, if_neg (by omega), take_drop_append (by omega)]
  · rw [parseLength_ext64 h7] at h ⊢
    have hle : ¬ i + 8 > buf.length := fun hc => h (if_pos hc)
    rw [parseLength_ext64 h7, if_neg hle, if_neg (by omega), take_drop_append (by omega)]

theorem readMask_append (h : readMask bits buf i ≠ .needMore) (more : List Byte) :
    readMask bits (buf ++ more) i = readMask bits buf i := by
  cases hp : readMask bits buf i with
  | ok key next =>
    obtain ⟨hm, rfl, hle, -⟩ | ⟨hm, rfl, rfl⟩ := readMask_ok hp
    · rw [readMask, if_pos hm] at hp ⊢
      rw [List.drop_append_of_le_length (by omega)]
      split at hp
      · rename_i hd
        rw [hd, ← hp]
        rfl
      · cases hp
    · exact readMask_clear hm
  | needMore => exact absurd hp h
  | oversize => exact absurd hp (readMask_ne_oversize bits buf i)

theorem parseRest_append (h : parseRest bits buf i ≠ .needMore) (more : List Byte) :
    parseRest bits (buf ++ more) i = parseRest bits buf i := by
  unfold parseRest at h ⊢
  have hl : parseLength bits buf i ≠ .needMore := fun hc => h (by rw [hc])
  rw [parseLength_append hl]
  cases hp : parseLength bits buf i with
  | ok len q =>
    rw [hp] at h
    have hm : readMask bits buf q ≠ .needMore := fun hc => h (by simp only [hc])
    simp only [readMask_append hm]
  | needMore => rfl
  | oversize => rfl

theorem parseChecked_append {cfg : Config} (h : parseChecked cfg buf st ≠ .needMore) (more : List Byte) :
    parseChecked cfg (buf ++ more) st = parseChecked cfg buf st := by
  unfold parseChecked at h ⊢
  have hh : parseHeader buf st ≠ .needMore := fun hc => h (by rw [hc])
  rw [parseHeader_append hh]
  cases hp : parseHeader buf st with
  | ok bits p =>
    rw [hp] at h
    simp only at h ⊢
    split_ifs at h ⊢ with hr hm
    · rfl
    · rfl
    · exact parseRest_append h more
  | needMore => rfl
  | oversize => rfl

/-- Settles O10: a parse that asks for more saw fewer than fourteen octets, and each parser reads only octets that are
there. -/
theorem fourteenOctetsSettleAHeader : Obligations.FourteenOctetsSettleAHeader :=
  ⟨fun _ _ _ hle hn => absurd (parseChecked_needMore hn) (by omega), fun _ _ more _ h => parseChecked_append h more⟩

end Sys2Proof

/-! ## The bound on an eight-octet length (30_encoding.md R101; 40_header_codec.md R121) -/

namespace Sys2Proof

variable {buf : List Byte} {i n : Nat}

/-- A big-endian number of eight octets exceeds 2^62 - 1 iff its first octet is at least 64: the others cannot carry
into it. -/
theorem beNat_gt_maxLen_iff {b : Byte} {bs : List Byte} (h : bs.length = 7) :
    beNat (b :: bs) > maxLen ↔ b.toNat / 64 ≠ 0 := by
  have hlow := beNat_lt bs
  simp only [beNat, maxLen, h] at hlow ⊢
  omega

/-- Octets that are there, first one apart. -/
theorem take_drop_eq_getD_cons (h : i + (n + 1) ≤ buf.length) :
    (buf.drop i).take (n + 1) = buf.getD i 0 :: (buf.drop (i + 1)).take n := by
  rw [List.drop_eq_getElem_cons (by omega), List.take_succ_cons, List.getD_eq_getElem]

/-- Settles O11: with the eight octets there, the one test left is the bound. -/
theorem oversizeIsTheTwoTopBits : Obligations.OversizeIsTheTwoTopBits := by
  intro bits buf i h7 hle
  have hrest : ((buf.drop (i + 1)).take 7).length = 7 := by simp; omega
  rw [parseLength_ext64 ((toNat_hdrLen7 bits).trans h7), if_neg (by omega), take_drop_eq_getD_cons hle,
    ← beNat_gt_maxLen_iff hrest]
  split_ifs with hbig
  · exact iff_of_true rfl hbig
  · exact iff_of_false nofun hbig

end Sys2Proof

/-! ## The words of the opcode table (30_encoding.md R91, R96, R104) -/

namespace Sys2Proof

/-- Settles O1: each word is evaluated by the decoder. -/
theorem tableWordsDecodeToTheirInstructions : Obligations.TableWordsDecodeToTheirInstructions :=
  ⟨rfl, rfl, rfl, rfl, rfl, rfl, rfl, rfl, rfl, rfl, rfl, rfl, rfl⟩

end Sys2Proof

/-! ## A command of the host (45_facade.md R236, R237) -/

namespace Sys2Proof.Machine

theorem hostTurn_some {c : Command} {i : Instr} (h : decodeCommand c = some i) (s : State) :
    hostTurn c s = exec i s := by
  rw [hostTurn, h]

theorem hostTurn_none {c : Command} (h : decodeCommand c = none) (s : State) :
    hostTurn c s = .next (respond c.code (.status .misuse) s) := by
  rw [hostTurn, h]

/-- Settles O25: the event is the host's turn, and a code that decodes is one of the thirteen. -/
theorem aStepRunsTheIssuedCommand : Obligations.AStepRunsTheIssuedCommand := by
  intro s c rest he
  rw [step_cons he]
  refine ⟨fun i hd => hostTurn_some hd _, fun hc => ?_⟩
  have hd : decodeCommand c = none := Option.eq_none_iff_forall_ne_some.mpr fun i hi => hc (decodeCommand_some hi).1
  exact hostTurn_none hd _

end Sys2Proof.Machine

/-! ## The header codec (40_header_codec.md R120 to R127) -/

namespace Sys2Proof

open Machine

variable {buf : List Byte} {st i n : Nat} {bits : BitVec 16}

/-! ### Octets by their index -/

theorem drop_eq_getD_cons (h : i < buf.length) : buf.drop i = buf.getD i 0 :: buf.drop (i + 1) := by
  rw [List.drop_eq_getElem_cons h, List.getD_eq_getElem]

/-- The big-endian number of octets that are there, octet by octet (00_scope.md R6). -/
theorem beNat_take_drop (h : i + n ≤ buf.length) :
    beNat ((buf.drop i).take n) = ∑ k ∈ Finset.range n, (buf.getD (i + k) 0).toNat * 256 ^ (n - 1 - k) := by
  induction n generalizing i with
  | zero => rfl
  | succ n ih =>
    have hlen : ((buf.drop (i + 1)).take n).length = n := by simp; omega
    rw [take_drop_eq_getD_cons h, beNat, hlen, ih (by omega), Finset.sum_range_succ', Nat.add_comm]
    refine congrArg₂ _ (Finset.sum_congr rfl fun k _ => ?_) rfl
    rw [show i + 1 + k = i + (k + 1) by omega, show n + 1 - 1 - (k + 1) = n - 1 - k by omega]

/-- Two fields side by side, as a number: the first one is the high one (30_encoding.md R91). -/
theorem append_eq_ofNat {m n : Nat} (x : BitVec m) (y : BitVec n) :
    x ++ y = BitVec.ofNat (m + n) (x.toNat * 2 ^ n + y.toNat) := by
  apply BitVec.eq_of_toNat_eq
  have hval : (x ++ y).toNat = x.toNat * 2 ^ n + y.toNat := by
    rw [BitVec.toNat_append, ← Nat.shiftLeft_add_eq_or_of_lt y.isLt, Nat.shiftLeft_eq]
  rw [BitVec.toNat_ofNat, ← hval, Nat.mod_eq_of_lt (x ++ y).isLt]

/-! ### What the C port answers (45_facade.md R236) -/

/-- A command of the C port leaves everything but its response as it was. -/
theorem next_respond {r r' : Result} (h : r = r') (code : Byte) (s : State) :
    (.next (respond code r s) : Outcome) = .next { s with responses := ⟨code, r'⟩ :: s.responses } := by
  rw [h, respond]

/-! ### The base header and the key (R120, R122) -/

theorem parseHeader_short (h : buf.length < st + 2) : parseHeader buf st = .needMore := by
  cases hp : parseHeader buf st with
  | ok bits next =>
    obtain ⟨-, -, -, -, -, rfl, hle⟩ := parseHeader_ok hp
    omega
  | needMore => rfl
  | oversize => exact absurd hp (parseHeader_ne_oversize buf st)

theorem parseHeader_there (h : st + 2 ≤ buf.length) :
    parseHeader buf st = .ok (buf.getD st 0 ++ buf.getD (st + 1) 0) (st + 2) := by
  rw [parseHeader, drop_eq_getD_cons (by omega), drop_eq_getD_cons (by omega)]

/-- Settles O4: the octets that are there stand side by side in the word. -/
theorem parseHeaderAnswersFirstOctetHigh : Obligations.ParseHeaderAnswersFirstOctetHigh := by
  intro buf st s
  refine next_respond ?_ 0x20 s
  split_ifs with h
  · rw [parseHeader_short h]
    rfl
  · rw [parseHeader_there (by omega), append_eq_ofNat]
    rfl

theorem readMask_short (hm : hdrMask bits = true) (h : buf.length < i + 4) : readMask bits buf i = .needMore := by
  cases hp : readMask bits buf i with
  | ok key next =>
    obtain ⟨-, rfl, hle, -⟩ | ⟨hm', -⟩ := readMask_ok hp
    · omega
    · exact absurd (hm.symm.trans hm') nofun
  | needMore => rfl
  | oversize => exact absurd hp (readMask_ne_oversize bits buf i)

theorem readMask_there (hm : hdrMask bits = true) (h : i + 4 ≤ buf.length) :
    readMask bits buf i =
      .ok ⟨buf.getD i 0, buf.getD (i + 1) 0, buf.getD (i + 2) 0, buf.getD (i + 3) 0⟩ (i + 4) := by
  rw [readMask, if_pos hm, drop_eq_getD_cons (by omega), drop_eq_getD_cons (by omega),
    drop_eq_getD_cons (by omega), drop_eq_getD_cons (by omega)]

/-- Settles O6: the MASK bit set with the four octets there or not, and the MASK bit clear. -/
theorem readMaskAnswersTheKey : Obligations.ReadMaskAnswersTheKey := by
  intro bits buf i s
  refine next_respond ?_ 0x22 s
  split_ifs with hm h
  · rw [readMask_short hm h]
    rfl
  · rw [readMask_there hm (by omega)]
    rfl
  · rw [readMask_clear (Bool.eq_false_iff.mpr hm)]
    rfl

/-! ### The length (R121) -/

/-- Settles O5: one case for each form of the length, its number read octet by octet. -/
theorem parseLengthAnswersTheAnnouncedLength : Obligations.ParseLengthAnswersTheAnnouncedLength := by
  intro bits buf i s len7 v16 v64
  refine next_respond ?_ 0x21 s
  have h7 : (hdrLen7 bits).toNat = len7 := toNat_hdrLen7 bits
  have h16 (h : i + 2 ≤ buf.length) : beNat ((buf.drop i).take 2) = v16 := by
    rw [beNat_take_drop h, Finset.sum_range_succ, Finset.sum_range_one]
    simp [v16]
  have h64 (h : i + 8 ≤ buf.length) : beNat ((buf.drop i).take 8) = v64 := beNat_take_drop h
  rw [← h7]
  obtain hs | h126 | h127 := hdrLen7_cases bits
  · rw [parseLength_short hs, if_pos hs]
    rfl
  · rw [parseLength_ext16 h126, h126, if_neg (by decide : ¬ 126 ≤ 125), if_pos rfl]
    split_ifs with h
    · rfl
    · rw [h16 (by omega)]
      rfl
  · rw [parseLength_ext64 h127, h127, if_neg (by decide : ¬ 127 ≤ 125), if_neg (by decide : ¬ 127 = 126)]
    by_cases h : i + 8 > buf.length
    · rw [if_pos h, if_pos h]
      rfl
    · rw [if_neg h, if_neg h, h64 (by omega), show 2 ^ 62 - 1 = maxLen from rfl, apply_ite (parseResult .length)]
      rfl

/-! ### The size of a header (R126) -/

/-- The next index of a success: two octets, the length octets len7 names, the key octets MASK names. -/
theorem parseFull_next {len next : Nat} {key : Key} (h : parseFull buf st = .ok bits len key next) :
    next = st + headerSize bits := by
  obtain ⟨q, -, hl, hm⟩ := parseFull_ok h
  have hq : q = st + 2 + if (hdrLen7 bits).toNat ≤ 125 then 0 else if (hdrLen7 bits).toNat = 126 then 2 else 8 := by
    obtain ⟨h7, -, rfl⟩ | ⟨h7, -, rfl, -⟩ | ⟨h7, -, rfl, -⟩ := parseLength_ok hl <;> simp [h7]
  have hn : next = q + if hdrMask bits then 4 else 0 := by
    obtain ⟨hb, rfl, -⟩ | ⟨hb, rfl, -⟩ := readMask_ok hm <;> simp [hb]
  rw [hn, hq, headerSize]
  omega

/-- Settles O8: each part of the header takes the octets its bits announce. -/
theorem headerSizeIsReadOffTheSecondOctet : Obligations.HeaderSizeIsReadOffTheSecondOctet := by
  intro buf st bits len key p h
  refine ⟨parseFull_next h, parseFull_next_le h, ?_⟩
  rw [headerSize, toNat_hdrLen7]
  rfl

/-! ### The octets of the encoder (R123) -/

theorem ofNat_mod_256 (v : Nat) : BitVec.ofNat 8 (v % 256) = BitVec.ofNat 8 v :=
  BitVec.eq_of_toNat_eq (Nat.mod_mod v 256)

theorem be64_eq_map (v : Nat) :
    be64 v = (List.range 8).map fun k => BitVec.ofNat 8 (v / 256 ^ (7 - k) % 256) := by
  simp only [ofNat_mod_256]
  simp [be64, List.range_succ]

/-- The first octet of a header whose RSV bits are 0 (30_encoding.md R91). -/
theorem octet0_eq_ofNat (fin : Bool) (op : BitVec 4) :
    (BitVec.ofBool fin ++ (0 : BitVec 3) ++ op : BitVec 8) = BitVec.ofNat 8 (fin.toNat * 128 + op.toNat) := by
  rw [append_eq_ofNat (BitVec.ofBool fin ++ (0 : BitVec 3)) op]
  cases fin <;> rfl

/-- The second octet of a header (30_encoding.md R91). -/
theorem octet1_eq_ofNat (masked : Bool) (len7 : BitVec 7) :
    (BitVec.ofBool masked ++ len7 : BitVec 8) = BitVec.ofNat 8 (masked.toNat * 128 + len7.toNat) := by
  rw [append_eq_ofNat (BitVec.ofBool masked) len7]
  cases masked <;> rfl

section
variable {L : Nat}

theorem minimalLen_toNat_len7 (L : Nat) :
    (minimalLen L).len7.toNat = if L ≤ 125 then L else if L ≤ 65535 then 126 else 127 := by
  unfold minimalLen
  split_ifs with h1 h2
  · exact Nat.mod_eq_of_lt (by omega)
  · rfl
  · rfl

theorem minimalLen_ext (h : L ≤ maxLen) :
    (minimalLen L).ext = if L ≤ 125 then [] else if L ≤ 65535 then be16 L else be64 L := by
  unfold minimalLen
  split_ifs with h1 h2
  · rfl
  · exact congrArg be16 (Nat.mod_eq_of_lt (by omega))
  · exact congrArg be64 (Nat.mod_eq_of_lt (h.trans_lt (by decide)))

theorem minimalLen_length (h : L ≤ maxLen) : (minimalLen L).length = L := by
  unfold minimalLen
  split_ifs with h1 h2
  · exact Nat.mod_eq_of_lt (by omega)
  · exact Nat.mod_eq_of_lt (by omega)
  · exact Nat.mod_eq_of_lt (h.trans_lt (by decide))

theorem minimalLen_wellFormed (h : L ≤ maxLen) : (minimalLen L).wellFormed = true := by
  unfold minimalLen
  split_ifs with h1 h2
  · exact decide_eq_true ((Nat.mod_le L _).trans h1)
  · rfl
  · exact decide_eq_true ((Nat.mod_le L _).trans h)

end

/-- The head whose octets the encoder writes. -/
def encodedHead (fin masked : Bool) (key : Key) (L : Nat) : Head :=
  { fin := fin, rsv := 0, len := minimalLen L, key := if masked then some key else none }

section
variable (op : BitVec 4) (fin masked : Bool) (key : Key) (L : Nat)

theorem encodeHeader_eq_octets : encodeHeader op fin masked key L = (encodedHead fin masked key L).octets op := rfl

theorem encodedHead_key_isSome : (encodedHead fin masked key L).key.isSome = masked := by
  cases masked <;> rfl

theorem encodedHead_keyOctets : (encodedHead fin masked key L).keyOctets = if masked then key.octets else [] := by
  cases masked <;> rfl

theorem headKey_encodedHead : headKey (encodedHead fin masked key L) = if masked then key else Key.zero := by
  cases masked <;> rfl

end

/-- Settles O7: the two octets of the base header, the length octets and the key octets, each by its own lemma. -/
theorem encodeHeaderAnswersTheSmallestForm : Obligations.EncodeHeaderAnswersTheSmallestForm := by
  intro op fin masked key payloadLen s L len7 ext k
  refine next_respond (congrArg Result.octets ?_) 0x23 s
  have hlen7 : (minimalLen L).len7.toNat = len7 := minimalLen_toNat_len7 L
  have hext : (minimalLen L).ext = ext := by
    rw [minimalLen_ext (Nat.le_of_lt_succ payloadLen.isLt), be16_eq_mod, be64_eq_map]
  have hk : (encodedHead fin masked key L).keyOctets = k := encodedHead_keyOctets fin masked key L
  rw [encodeHeader_eq_octets, Head.octets, hk, encodedHead_key_isSome]
  simp only [encodedHead]
  rw [octet0_eq_ofNat, octet1_eq_ofNat, hlen7, hext]

/-! ### Parsing what the encoder writes (R127) -/

theorem toNat_hdrRsv (bits : BitVec 16) : (hdrRsv bits).toNat = bits.toNat / 4096 % 8 := by
  simp [hdrRsv, Nat.shiftRight_eq_div_pow]

theorem toNat_hdrOpcode (bits : BitVec 16) : (hdrOpcode bits).toNat = bits.toNat / 256 % 16 := by
  simp [hdrOpcode, Nat.shiftRight_eq_div_pow]

/-- The parse answers the encoder's operands, whatever octets follow. -/
theorem parseFull_encodeHeader {L : Nat} (h : L ≤ maxLen) (op : BitVec 4) (fin masked : Bool) (key : Key)
    (tail : List Byte) :
    parseFull (encodeHeader op fin masked key L ++ tail) 0 =
      .ok ((encodedHead fin masked key L).bits op) L (if masked then key else Key.zero)
        (encodeHeader op fin masked key L).length := by
  have hw : (encodedHead fin masked key L).wellFormed = true := minimalLen_wellFormed h
  have hlen : headLength (encodedHead fin masked key L) = L := minimalLen_length h
  rw [encodeHeader_eq_octets, parseFull_octets _ op hw, hlen, headKey_encodedHead, length_octets]

/-- The encoder leaves RSV1 clear (30_encoding.md R91). -/
theorem encodeHeader_ne_rsv1 {b : Byte} (h : b.getLsbD 6 = true) (rest : List Byte) (op : BitVec 4)
    (fin masked : Bool) (key : Key) (L : Nat) : encodeHeader op fin masked key L ≠ b :: rest := by
  intro heq
  have hb : (BitVec.ofBool fin ++ (0 : BitVec 3) ++ op : BitVec 8) = b := (List.cons.inj heq).1
  rw [← hb, octet0_getLsbD] at h
  simp at h

/-- Settles O9: the octets are those of a well-formed head, which parse back field by field; a header with RSV1 set
parses and is never written. -/
theorem parseUndoesEncodeHeader : Obligations.ParseUndoesEncodeHeader := by
  constructor
  · intro op fin masked key L T hL
    refine ⟨(encodedHead fin masked key L).bits op, parseFull_encodeHeader hL op fin masked key T,
      hdrFin_bits _ op, ?_, ?_, (hdrMask_bits _ op).trans (encodedHead_key_isSome fin masked key L)⟩
    · rw [← toNat_hdrRsv, hdrRsv_bits]
      rfl
    · rw [← toNat_hdrOpcode, hdrOpcode_bits]
  · exact ⟨[0xC2, 0x00], 0xC200, 0, Key.zero, by decide, encodeHeader_ne_rsv1 (by decide) [0x00]⟩

end Sys2Proof

/-! ## Masking (41_masking.md R140 to R144) -/

namespace Sys2Proof.Machine

theorem mask_cons (b : Byte) (bs : List Byte) (key : Key) (offset : Nat) :
    mask (b :: bs) key offset = (b ^^^ keyOctet key offset) :: mask bs key (offset + 1) := rfl

/-! ### The octets of a masked payload (R140) -/

theorem keyOctet_eq_getD_octets (key : Key) (j : Nat) : keyOctet key j = key.octets.getD (j % 4) 0 := by
  have hlt : j % 4 < 4 := Nat.mod_lt j (by decide)
  unfold keyOctet
  interval_cases j % 4 <;> rfl

/-- Octet `j` meets the key octet `j` places after the one the offset names. -/
theorem getD_mask {buf : List Byte} {j : Nat} (hj : j < buf.length) (key : Key) (offset : Nat) :
    (mask buf key offset).getD j 0 = buf.getD j 0 ^^^ keyOctet key (offset + j) := by
  induction buf generalizing offset j with
  | nil => exact absurd hj (Nat.not_lt_zero j)
  | cons b bs ih =>
    rw [mask_cons]
    cases j with
    | zero => rfl
    | succ j =>
      rw [List.getD_cons_succ, List.getD_cons_succ, ih (Nat.lt_of_succ_lt_succ hj),
        Nat.add_right_comm offset 1 j, Nat.add_assoc]

/-- Settles O12: the response carries `mask`, whose octets are known by their index. -/
theorem maskXorsEachOctetWithItsKeyOctet : Obligations.MaskXorsEachOctetWithItsKeyOctet := by
  intro buf key offset s
  refine ⟨mask buf key offset, next_respond rfl 0x24 s, length_mask buf key offset, fun j hj => ?_⟩
  rw [getD_mask hj, keyOctet_eq_getD_octets]
  rfl

/-! ### The laws of masking (R141, R142) -/

/-- Settles O13: octet by octet, `x ^^^ k ^^^ k = x`. -/
theorem maskingTwiceIsTheIdentity : Obligations.MaskingTwiceIsTheIdentity := by
  intro buf key offset
  induction buf generalizing offset with
  | nil => rfl
  | cons b bs ih => rw [mask_cons, mask_cons, ih, BitVec.xor_assoc, BitVec.xor_self, BitVec.xor_zero]

theorem mask_mod (buf : List Byte) (key : Key) (offset : Nat) : mask buf key offset = mask buf key (offset % 4) := by
  induction buf generalizing offset with
  | nil => rfl
  | cons b bs ih =>
    have htail : mask bs key (offset + 1) = mask bs key (offset % 4 + 1) := by
      rw [ih (offset + 1), ih (offset % 4 + 1), Nat.mod_add_mod]
    rw [mask_cons, mask_cons, keyOctet_mod, htail]

theorem mask_append (X Y : List Byte) (key : Key) (offset : Nat) :
    mask (X ++ Y) key offset = mask X key offset ++ mask Y key (offset + X.length) := by
  induction X generalizing offset with
  | nil => rfl
  | cons b bs ih =>
    rw [List.cons_append, mask_cons, mask_cons, ih, List.cons_append, List.length_cons,
      Nat.add_right_comm offset 1, Nat.add_assoc]

/-- Settles O14: each law by induction on the octets masked first. -/
theorem maskingInPiecesIsMasking : Obligations.MaskingInPiecesIsMasking := ⟨mask_mod, mask_append⟩

/-! ### The identity key (R144) -/

theorem mask_zero (buf : List Byte) (offset : Nat) : mask buf Key.zero offset = buf := by
  induction buf generalizing offset with
  | nil => rfl
  | cons b bs ih =>
    rw [mask_cons, keyOctet_zero, ih]
    exact congrArg (· :: bs) BitVec.xor_zero

/-- A header that parses with its MASK bit clear gives the identity key, under every configuration (R122). -/
theorem parseChecked_key_of_mask_clear {cfg : Config} {buf : List Byte} {st len next : Nat} {bits : BitVec 16}
    {key : Key} (h : parseChecked cfg buf st = .ok bits len key next) (hm : hdrMask bits = false) :
    key = Key.zero := by
  obtain ⟨q, -, -, hkey⟩ := parseFull_ok (parseChecked_ok_parseFull h)
  rw [readMask_clear hm] at hkey
  cases hkey
  rfl

/-- Settles O15: XOR with a zero octet changes nothing, and the parse reads no key. -/
theorem theZeroKeyLeavesOctetsUnchanged : Obligations.TheZeroKeyLeavesOctetsUnchanged :=
  ⟨mask_zero, fun _ _ _ _ _ _ _ => parseChecked_key_of_mask_clear⟩

end Sys2Proof.Machine

/-! ## The read buffer (42_read_buffer.md R150, R153, R154) -/

namespace Sys2Proof.Machine

variable {s t : State}

/-! ### The two branches of `fill` (R150) -/

theorem fill_of_slide (h : fill s = some t) (hI : s.r.I ≥ s.r.END / 2) : t = { s with r := slideFromI s.r } := by
  rw [(fill_some h).1, if_pos hI]

theorem fill_of_stay (h : fill s = some t) (hI : s.r.I < s.r.END / 2) : t = s := by
  rw [(fill_some h).1, if_neg (Nat.not_le.mpr hI)]

/-- `fill` changes the window and the four cursors alone. -/
theorem fill_frame (h : fill s = some t) :
    t = { s with
      r := { s.r with RBUF := t.r.RBUF, ST := t.r.ST, I := t.r.I, END := t.r.END, START := t.r.START } } := by
  obtain hI | hI := Nat.lt_or_ge s.r.I (s.r.END / 2)
  · obtain rfl := fill_of_stay h hI
    rfl
  · obtain rfl := fill_of_slide h hI
    rfl

/-- `fill` keeps the number of unread octets, whichever branch it takes (R154). -/
theorem fill_unread_length (h : fill s = some t) : t.r.END - t.r.I = s.r.END - s.r.I := by
  obtain hI | hI := Nat.lt_or_ge s.r.I (s.r.END / 2)
  · rw [fill_of_stay h hI]
  · rw [fill_of_slide h hI]
    exact Nat.sub_zero _

/-- The slide brings the unread octets, in order, to index 0 (R154). -/
theorem readByte_slideFromI {r : ReaderRegs} {k : Nat} (hk : k < r.END - r.I) :
    (slideFromI r).RBUF.readByte k = r.RBUF.readByte (r.I + k) := by
  show (r.RBUF.slide r.I r.END).readByte k = _
  rw [readByte_slide, if_pos (by omega), Nat.add_comm]

/-- Settles O30: `fill` slides or stays; `fill_none` says when it panics, and the cursors keep their order in both
branches. -/
theorem compactionKeepsTheUnreadOctets : Obligations.CompactionKeepsTheUnreadOctets := by
  intro s hi
  refine ⟨fill_none, fun t h => ?_⟩
  obtain ⟨hc, hroom⟩ := fill_cursorInv hi h
  obtain ⟨hmore, -, -, -, -, -, hstart⟩ := fill_regs h
  refine ⟨fill_frame h, fun hI => ?_, fill_of_stay h, fill_unread_length h, hstart, hmore, hc.st_le_i, hc.i_le_end,
    hroom⟩
  obtain rfl := fill_of_slide h hI
  exact ⟨rfl, rfl, rfl, rfl, fun _ => readByte_slideFromI⟩

/-! ### Where the reader calls `fill` (R153) -/

/-- In a header fetch fewer octets than the longest header stand unread from `I = ST` on while the header is not
complete. -/
theorem unread_lt_of_needMore {call : HeaderCall} {octets : List Byte} (hi : s.Inv)
    (hr : s.reader = .header call .fetch) (ho : s.r.RBUF.readBytes s.r.ST (s.r.END - s.r.ST) = some octets)
    (hp : parseChecked s.cfg octets 0 = .needMore) : s.r.END - s.r.I < 14 := by
  have hri := hi.reader
  simp only [ReaderInv, hr] at hri
  obtain ⟨-, -, hI⟩ := hri
  have hlen := parseChecked_needMore hp
  rw [readBytes_length ho] at hlen
  omega

/-- Settles O31: what stands unread is less than 14 octets, or nothing, of an `RBUF` of at least 32. -/
theorem fillFindsRoomWhereTheReaderCallsIt : Obligations.FillFindsRoomWhereTheReaderCallsIt := fun _ hi =>
  ⟨fun _ _ hr ho hp => fill_isSome_of_header hi.cursors hi.size (unread_lt_of_needMore hi hr ho hp),
    fun hI => fill_isSome_of_empty hi.cursors hi.size hI.ge⟩

end Sys2Proof.Machine

/-! ## The frame a turn of the reader executes (43_frame_reader.md R163 to R166, R170) -/

namespace Sys2Proof.Machine

variable {s : State} {call : HeaderCall} {octets : List Byte}

/-- A turn in a header fetch whose header decodes executes that frame and runs its command on (20_memory.md R78). -/
theorem readerTurn_fetched {i : Instr} {size pick : Nat} (hr : s.reader = .header call .fetch)
    (ho : fetchOctets s = some octets) (hd : decodeFrame s.cfg octets = .ok i size) :
    readerTurn pick s = continueReader (exec i s) := by
  simp only [readerTurn, hr, ho, hd]

/-- Settles O24: the turn is the frame's meaning, run on; a command that has returned makes no further move. -/
theorem aStepRunsTheFetchedFrame : Obligations.AStepRunsTheFetchedFrame := by
  intro s pick call rest octets i size he hr ho hd
  have hstep : step s = continueReader (exec i { s with events := rest }) :=
    (step_cons he).trans (readerTurn_fetched (s := { s with events := rest }) hr ho hd)
  refine ⟨fun u hu => ?_, fun f hf => ?_, fun u hu hidle => ?_⟩
  · rw [hstep, hu, continueReader_next]
  · rw [hstep, hf, continueReader_fault]
  · rw [hstep, hu, continueReader_next, runReader_idle _ hidle]

/-- A data frame returned to its command (R163, R164), the header's fields read off the header. -/
theorem dataFrame_fetching (hr : s.reader = .header call .fetch) (op : BitVec 4) (h : Head) :
    dataFrame op h s = .next (returnFrame call op (latch op h s)) := by
  simp only [dataFrame, hr]

theorem reservedFrame_fetching (hr : s.reader = .header call .fetch) (op : BitVec 4) (h : Head) :
    reservedFrame op h s = .next (takeFatal call .protocolUnknownOpcode (latch op h s)) := by
  simp only [reservedFrame, hr]

/-- Settles O39: the three meanings are one; what it returns is read off the latched header. -/
theorem dataFramesAreLatchedAndReturned : Obligations.DataFramesAreLatchedAndReturned := by
  intro s h call i op hi hr first r
  have hexec : exec i s = dataFrame op h s := by
    simp only [List.mem_cons, Prod.mk.injEq, List.not_mem_nil, or_false] at hi
    obtain ⟨rfl, rfl⟩ | ⟨rfl, rfl⟩ | ⟨rfl, rfl⟩ := hi <;> rfl
  have hfin : hdrFin (latch op h s).r.HDR = h.fin := hdrFin_bits h op
  rw [hexec, dataFrame_fetching hr]
  simp only [r, first, length_octets]
  cases call with
  | read n => rfl
  | _ => simp only [returnFrame, hfin]; rfl

/-- Settles O40: the ten meanings are one. -/
theorem reservedOpcodesCloseTheReader : Obligations.ReservedOpcodesCloseTheReader := by
  intro s h call i op hi hr first
  have hexec : exec i s = reservedFrame op h s := by
    simp only [List.mem_cons, Prod.mk.injEq, List.not_mem_nil, or_false] at hi
    obtain ⟨rfl, rfl⟩ | ⟨rfl, rfl⟩ | ⟨rfl, rfl⟩ | ⟨rfl, rfl⟩ | ⟨rfl, rfl⟩ | ⟨rfl, rfl⟩ | ⟨rfl, rfl⟩ | ⟨rfl, rfl⟩ |
      ⟨rfl, rfl⟩ | ⟨rfl, rfl⟩ := hi <;> rfl
  rw [hexec, reservedFrame_fetching hr]
  simp only [first, length_octets]
  rfl

end Sys2Proof.Machine

/-! ## The faults of a header (43_frame_reader.md R162; 60_exceptions.md R267) -/

namespace Sys2Proof.Machine

variable {s : State} {call : HeaderCall} {octets : List Byte}

/-- A header that does not decode to a frame leaves the turn to the fetch's own moves. -/
theorem readerTurn_fetching {pick : Nat} (hr : s.reader = .header call .fetch) (ho : fetchOctets s = some octets)
    (hp : ∀ bits len key next, parseChecked s.cfg octets 0 ≠ .ok bits len key next) :
    readerTurn pick s = runReader (moveBound s) s := by
  simp only [readerTurn, hr, ho, decodeFrame]
  cases hc : parseChecked s.cfg octets 0 with
  | ok bits len key next => exact absurd hc (hp bits len key next)
  | _ => rfl

/-- The status a parse closes the reader with, if it does (43_frame_reader.md R162). -/
def faultStatus : Checked → Option Status
  | .ok _ _ _ _ => none
  | .needMore => none
  | .reservedBits => some .protocolReservedBits
  | .maskViolation => some .protocolMaskViolation
  | .oversize => some .protocolOversizeLength

theorem fetchMove_fault {k : Status} (ho : fetchOctets s = some octets)
    (hk : faultStatus (parseChecked s.cfg octets 0) = some k) : fetchMove call s = .go (takeFatal call k s) := by
  simp only [fetchMove, ho]
  cases hc : parseChecked s.cfg octets 0 with
  | ok bits len key next => rw [hc] at hk; cases hk
  | needMore => rw [hc] at hk; cases hk
  | _ => rw [hc] at hk; cases hk; rfl

/-- A turn that meets a faulty header closes the reader and ends there (43_frame_reader.md R178). -/
theorem readerTurn_fault {pick : Nat} {k : Status} (hr : s.reader = .header call .fetch)
    (ho : fetchOctets s = some octets) (hk : faultStatus (parseChecked s.cfg octets 0) = some k) :
    readerTurn pick s = .next (takeFatal call k s) := by
  have hmove : readerMove s = .go (takeFatal call k s) := by simpa only [readerMove, hr] using fetchMove_fault ho hk
  calc readerTurn pick s
      = runReader (_ + 7 + 1) s :=
        readerTurn_fetching hr ho fun bits len key next hc => by rw [hc] at hk; cases hk
    _ = runReader _ (takeFatal call k s) := runReader_go hmove
    _ = .next (takeFatal call k s) := runReader_idle _ rfl

/-- The parse of a header of which the two base octets are there (R162). -/
theorem parseChecked_base (cfg : Config) (b0 b1 : Byte) (more : List Byte) :
    parseChecked cfg (b0 :: b1 :: more) 0 =
      if cfg.rsvEnforce && hdrRsv (b0 ++ b1) != 0 then .reservedBits
      else if cfg.maskEnforce && maskContradicts cfg.role (b0 ++ b1) then .maskViolation
      else parseRest (b0 ++ b1) (b0 :: b1 :: more) 2 := rfl

theorem hdrRsv_ne_zero_iff (bits : BitVec 16) : (hdrRsv bits != 0) = true ↔ bits.toNat / 4096 % 8 ≠ 0 := by
  rw [bne_iff_ne, Ne, BitVec.toNat_eq, toNat_hdrRsv]
  rfl

/-- The MASK bit that contradicts a role is the one the role itself sends (30_encoding.md R99). -/
theorem maskContradicts_iff (role : Role) (bits : BitVec 16) :
    maskContradicts role bits = true ↔ bits.getLsbD 7 = decide (role = .client) := by
  cases role with
  | server => simp [maskContradicts, hdrMask]
  | client => simp [maskContradicts, hdrMask]

theorem parseRest_oversize {bits : BitVec 16} {buf : List Byte} {p : Nat} (h : parseLength bits buf p = .oversize) :
    parseRest bits buf p = .oversize := by
  simp only [parseRest, h]

/-- Settles O38: the parse asks the three questions in the spec's order, and each fault is a fatal status. -/
theorem headerFaultsAreReportedInTheirOrder : Obligations.HeaderFaultsAreReportedInTheirOrder := by
  intro s pick call rest b0 b1 more he hr ho bits rsvBad maskBad sizeBad closed
  have hrsv : (s.cfg.rsvEnforce && hdrRsv bits != 0) = true ↔ rsvBad := by
    rw [Bool.and_eq_true, hdrRsv_ne_zero_iff]
  have hmask : (s.cfg.maskEnforce && maskContradicts s.cfg.role bits) = true ↔ maskBad := by
    rw [Bool.and_eq_true, maskContradicts_iff]
  have hparse := parseChecked_base s.cfg b0 b1 more
  have hstep : ∀ k, faultStatus (parseChecked s.cfg (b0 :: b1 :: more) 0) = some k → step s = closed k := fun k hk =>
    (step_cons he).trans (readerTurn_fault (s := { s with events := rest }) hr ho hk)
  refine ⟨fun hb => ?_, fun hr' hb => ?_, fun hr' hm' hb => ?_⟩
  · exact hstep _ (by rw [hparse, if_pos (hrsv.mpr hb)]; rfl)
  · exact hstep _ (by rw [hparse, if_neg (mt hrsv.mp hr'), if_pos (hmask.mpr hb)]; rfl)
  · obtain ⟨h7, h8, htop⟩ := hb
    have hlen : parseLength bits (b0 :: b1 :: more) 2 = .oversize :=
      (oversizeIsTheTwoTopBits bits (b0 :: b1 :: more) 2 h7 (by simp only [List.length_cons]; omega)).mpr htop
    exact hstep _ (by rw [hparse, if_neg (mt hrsv.mp hr'), if_neg (mt hmask.mp hm'), parseRest_oversize hlen]; rfl)

end Sys2Proof.Machine

/-! ## A transport that answers a status (20_memory.md R66; 42_read_buffer.md R151) -/

namespace Sys2Proof.Machine

variable {s t : State}

/-- The status a `TRead` comes back with when `a` is the transport's next answer (20_memory.md R66). -/
def answerStatus : RxAnswer → ReadStatus
  | .data _ => .ok
  | .eof => .eof
  | .timeout => .timeout
  | .err e => .err e

theorem answerStatus_ne_ok {a : RxAnswer} (ha : ∀ d, a ≠ .data d) : answerStatus a ≠ .ok := by
  cases a with
  | data d => exact absurd rfl (ha d)
  | _ => exact nofun

/-- The transaction of a `TRead` that is answered with a status: no octet comes with it. -/
def State.refuse (s : State) (cap : Nat) (a : RxAnswer) (left : List RxAnswer) : State :=
  { s with env := { s.env with rx := left }, trace := .read cap [] (answerStatus a) :: s.trace }

theorem tRead_refused {a : RxAnswer} {left : List RxAnswer} (hrx : s.env.rx = a :: left) (ha : ∀ d, a ≠ .data d)
    (cap : Nat) : tRead cap s = some ([], answerStatus a, s.refuse cap a left) := by
  cases a with
  | data d => exact absurd rfl (ha d)
  | _ => simp only [tRead, hrx]; rfl

theorem readOnce_refused {a : RxAnswer} {left : List RxAnswer} (hrx : s.env.rx = a :: left) (ha : ∀ d, a ≠ .data d) :
    readOnce s = some (0, answerStatus a, s.refuse (s.cfg.rbufSize - s.r.END) a left) := by
  simp only [readOnce, tRead_refused hrx ha]
  rfl

theorem fill_env (h : fill s = some t) : t.env = s.env := by rw [fill_frame h]

theorem fill_trace (h : fill s = some t) : t.trace = s.trace := by rw [fill_frame h]

/-- `fill` keeps the buffered octets (42_read_buffer.md R154). -/
theorem fill_buffered (hi : CursorInv s) (h : fill s = some t) :
    t.r.RBUF.readBytes t.r.I (t.r.END - t.r.I) = s.r.RBUF.readBytes s.r.I (s.r.END - s.r.I) := by
  obtain hI | hI := Nat.lt_or_ge s.r.I (s.r.END / 2)
  · rw [fill_of_stay h hI]
  · have hle := hi.i_le_end
    rw [fill_of_slide h hI]
    simp only [slideFromI, Nat.sub_zero]
    rw [readBytes_slide (by omega), Nat.zero_add]

/-- `fill` in a header fetch changes the window and its cursors, and keeps `I = ST` (10_state.md R40). -/
theorem fill_fetching (h : fill s = some t) (hI : s.r.I = s.r.ST) :
    ∃ rbuf ix en start,
      t = { s with r := { s.r with RBUF := rbuf, ST := ix, I := ix, END := en, START := start } } := by
  refine ⟨t.r.RBUF, t.r.ST, t.r.END, t.r.START, ?_⟩
  obtain hs | hs := Nat.lt_or_ge s.r.I (s.r.END / 2)
  · have hr : s.r = { s.r with I := s.r.ST } := by rw [← hI]
    rw [fill_of_stay h hs]
    exact congrArg (fun r => { s with r := r }) hr
  · rw [fill_of_slide h hs]
    simp only [slideFromI, hI, Nat.sub_self]

end Sys2Proof.Machine

/-! ## A header that is not complete (43_frame_reader.md R161; 20_memory.md R64, R78) -/

namespace Sys2Proof.Machine

variable {s t u : State} {call : HeaderCall}

/-! ### The three header commands begin alike -/

/-- The header commands, each with the call it fetches for. -/
def FetchesFor (i : Instr) (call : HeaderCall) : Prop :=
  ∃ n, (i, call) ∈ [(Instr.readFrameHeader, HeaderCall.frameHeader), (.readRawFrameHeader, .rawFrameHeader),
    (.read n, .read n)]

/-- A header command that gets `RLOCK` between frames fetches (R231, R232, R230). -/
theorem exec_headerCommand {i : Instr} (hc : FetchesFor i call) (hl : s.RLOCK = none)
    (hs : s.r.RSTATE ≠ .closed) (hm : s.r.MORE = 0) :
    exec i s = runReader (moveBound s) (beginFetch call { s with RLOCK := some .reader }) := by
  have hheader : ∀ j, headerCommand j call s =
      runReader (moveBound s) (beginFetch call { s with RLOCK := some .reader }) := by
    intro j
    rw [headerCommand, acquireRead_free hl, if_neg hs, if_neg (by omega)]
  obtain ⟨n, hc⟩ := hc
  simp only [List.mem_cons, Prod.mk.injEq, List.not_mem_nil, or_false] at hc
  obtain ⟨rfl, rfl⟩ | ⟨rfl, rfl⟩ | ⟨rfl, rfl⟩ := hc
  · exact hheader _
  · exact hheader _
  · rw [exec, execRead, acquireRead_free hl, if_neg hs, if_pos hm]

/-! ### A status of the transport (R161, R177) -/

/-- A partial header meets a status: the command returns it, the reader open and the octets where `fill` put them. -/
theorem fetchMore_refused {a : RxAnswer} {left : List RxAnswer} (hf : fill s = some t) (hrx : s.env.rx = a :: left)
    (ha : ∀ d, a ≠ .data d) :
    fetchMore call s = .go (endHeader call (terr s.env.cancelFired (answerStatus a))
      (t.refuse (s.cfg.rbufSize - t.r.END) a left)) := by
  have hcfg : t.cfg = s.cfg := by rw [fill_frame hf]
  simp only [fetchMore, hf, readOnce_refused (by rw [fill_env hf, hrx]) ha, if_neg (answerStatus_ne_ok ha), hcfg]

/-- The command of such a fetch returns with its first move. -/
theorem runReader_fetch_refused {octets : List Byte} {a : RxAnswer} {left : List RxAnswer} (n : Nat)
    (hr : s.reader = .header call .fetch) (ho : fetchOctets s = some octets)
    (hp : parseChecked s.cfg octets 0 = .needMore) (hf : fill s = some t) (hrx : s.env.rx = a :: left)
    (ha : ∀ d, a ≠ .data d) :
    runReader (n + 1) s = .next (endHeader call (terr s.env.cancelFired (answerStatus a))
      (t.refuse (s.cfg.rbufSize - t.r.END) a left)) :=
  (runReader_go ((readerMove_fetch_more hr ho hp).trans (fetchMore_refused hf hrx ha))).trans (runReader_idle _ rfl)

/-- Settles O36: the fetch's one move is `fill`, which keeps the unread octets, and a `TRead` that brings none. -/
theorem aTransportStatusInAHeaderFetchIsNotFatal : Obligations.ATransportStatusInAHeaderFetchIsNotFatal := by
  intro s n i call octets a left hc hi hl hs hm ho hp hrx ha k answer response
  have hk : terr s.env.cancelFired (answerStatus a) = k := by cases a <;> rfl
  have hanswer : answerStatus a = answer := by cases a <;> rfl
  have hresponse : ⟨headerCallCode call, headerStatus call k⟩ = response := by cases call <;> rfl
  have hi0 := beginFetch_inv hi hl hm hs call
  obtain ⟨t, hf⟩ := fill_isSome_of_header hi0.cursors hi0.size (unread_lt_of_needMore hi0 rfl ho hp)
  have hrun := runReader_fetch_refused (s := beginFetch call { s with RLOCK := some .reader })
    (4 * (s.r.END + readyOctets s.env.rx) + 7) rfl ho hp hf hrx ha
  refine ⟨_, (exec_headerCommand ⟨n, hc⟩ hl hs hm).trans hrun, (fill_buffered hi0.cursors hf).trans ho, ?_⟩
  rw [← hresponse, ← hanswer, ← hk]
  obtain ⟨rbuf, ix, en, start, rfl⟩ := fill_fetching hf rfl
  rw [hl]
  rfl

/-! ### Data that does not complete the header (R161, R78) -/

/-- A header fetch stands at its header (10_state.md R40). -/
theorem State.Inv.atHeader (hi : s.Inv) (hr : s.reader = .header call .fetch) : s.r.I = s.r.ST := by
  have hri := hi.reader
  simp only [ReaderInv, hr] at hri
  exact hri.2.2

/-- In a fetch, the octets buffered are the first of the unread ones. -/
theorem fetchOctets_unread (hc : CursorInv s) (hI : s.r.I = s.r.ST) :
    ∃ octets, fetchOctets s = some octets ∧ octets.length = s.r.END - s.r.I ∧
      unread s = octets ++ rxStream s.env.rx := by
  obtain ⟨octets, ho, hlen, hb⟩ := fetchOctets_eq hc hI
  exact ⟨octets, ho, hlen, by rw [unread, hb, Option.getD_some]⟩

/-- A parse that asks for more asked for more before the last octets came. -/
theorem parseChecked_needMore_of_append {cfg : Config} {buf more : List Byte} {st : Nat}
    (h : parseChecked cfg (buf ++ more) st = .needMore) : parseChecked cfg buf st = .needMore := by
  by_contra hne
  exact hne (parseChecked_append hne more ▸ h)

/-- What a fetch comes to when the octets at hand are data and do not complete its header: it waits, every octet in the
buffer. -/
structure FetchWaits (s t : State) : Prop where
  taken : Taken s t []
  cursors : CursorInv t
  atHeader : t.r.I = t.r.ST
  rx : t.env.rx = []
  untouched : s.env.rx = [] → t.trace = s.trace

/-- Each move of such a fetch makes one `TRead`, or waits when the transport has nothing more. -/
theorem runReader_fetchWaits {n : Nat} (hi : s.Inv) (hr : s.reader = .header call .fetch) (ha : DataOnly s.env.rx)
    (hp : parseChecked s.cfg (unread s) 0 = .needMore) (hn : work s < n) :
    ∃ t, runReader n s = .next t ∧ FetchWaits s t := by
  induction n generalizing s with
  | zero => exact absurd hn (Nat.not_lt_zero _)
  | succ n ih =>
    have hI := hi.atHeader hr
    obtain ⟨octets, ho, hlen, hu⟩ := fetchOctets_unread hi.cursors hI
    have hpo : parseChecked s.cfg octets 0 = .needMore := parseChecked_needMore_of_append (hu ▸ hp)
    have hm := readerMove_fetch_more hr ho hpo
    have hk := readerMove_keeps hi
    have hw := readerMove_works hi
    obtain ⟨s1, hf⟩ := fill_isSome_of_header hi.cursors hi.size (hlen ▸ parseChecked_needMore hpo)
    have hft := fill_taken hi.cursors hf
    have hfc := (fill_cursorInv hi.cursors hf).1
    cases hrd : readOnce s1 with
    | none =>
      have hrx := readOnce_none.mp hrd
      have hwait : readerMove s = .wait s1 := by rw [hm, fetchMore, hf]; simp only [hrd]
      obtain ⟨rbuf, ix, en, start, rfl⟩ := fill_fetching hf hI
      exact ⟨_, runReader_wait hwait, hft, hfc, rfl, hrx, fun _ => rfl⟩
    | some x =>
      obtain ⟨k, st, s2⟩ := x
      obtain ⟨rfl, ha2⟩ := readOnce_dataOnly (by rw [fill_env hf]; exact ha) hrd
      have hgo : readerMove s = .go s2 := by rw [hm, fetchMore, hf]; simp only [hrd, if_true]
      have ht : Taken s s2 [] := hft.trans (readOnce_taken hfc hrd)
      rw [hgo] at hk hw
      have hless : work s2 < work s := hw
      obtain ⟨t, hrun, h⟩ := ih hk.inv (ht.reader.trans hr) ha2
        (by rw [ht.cfg, ← List.nil_append (unread s2), ← ht.unread]; exact hp) (by omega)
      refine ⟨t, (runReader_go hgo).trans hrun, ht.trans h.taken, h.cursors, h.atHeader, h.rx, fun hnil => ?_⟩
      rw [← fill_env hf] at hnil
      rw [readOnce_none.mpr hnil] at hrd
      cases hrd

/-- What the waiting command leaves, field by field. -/
theorem FetchWaits.frame (h : FetchWaits s t) :
    ∃ reads, t.r.RBUF.readBytes t.r.ST (t.r.END - t.r.ST) = some (unread s) ∧
      t = { s with
        r := { s.r with RBUF := t.r.RBUF, ST := t.r.I, I := t.r.I, END := t.r.END, START := t.r.START }
        env := { s.env with rx := [] }
        trace := reads ++ s.trace } ∧
      receivedOctets reads = rxStream s.env.rx ∧ (s.env.rx = [] → reads = []) := by
  obtain ⟨reads, htrace, hreceived⟩ := h.taken.reads
  have hmore : t.r.MORE = s.r.MORE := h.taken.more
  obtain ⟨bs, hb, -⟩ := h.cursors.buffered
  have hunread : unread t = bs := by rw [unread, hb, h.rx]; exact List.append_nil bs
  refine ⟨reads, ?_, ?_, ?_, fun hrx => ?_⟩
  · rw [← h.atHeader, hb, h.taken.unread, hunread, List.nil_append]
  · conv_lhs => rw [h.taken.frame, hmore, htrace, h.rx, ← h.atHeader]
  · rw [hreceived, h.rx]
    exact (List.append_nil _).symm
  · exact List.append_left_eq_self.mp (htrace ▸ h.untouched hrx)

/-- Settles O37: a fetch on data alone that its header outruns, when the command is issued and at a later turn. -/
theorem aPartialHeaderWaitsForItsOctets : Obligations.APartialHeaderWaitsForItsOctets := by
  refine ⟨fun s n i call hc hi hl hs hm ha hp => ?_, fun s pick call rest hi he hr ha hp => ?_⟩
  · have hi0 := beginFetch_inv hi hl hm hs call
    obtain ⟨t, hrun, h⟩ := runReader_fetchWaits hi0 rfl ha hp (work_lt_moveBound hi0.cursors)
    obtain ⟨reads, hb, ht, hreads⟩ := h.frame
    exact ⟨t, reads, (exec_headerCommand ⟨n, hc⟩ hl hs hm).trans hrun, hb, ht, hreads⟩
  · have hi0 := hi.with_events rest
    obtain ⟨t, hrun, h⟩ := runReader_fetchWaits hi0 hr ha hp (work_lt_moveBound hi0.cursors)
    obtain ⟨reads, hb, ht, hreads⟩ := h.frame
    obtain ⟨octets, ho, -, hu⟩ := fetchOctets_unread hi0.cursors (hi0.atHeader hr)
    have hpo : parseChecked s.cfg octets 0 = .needMore := parseChecked_needMore_of_append (hu ▸ hp)
    have hturn : step s = runReader _ _ := (step_cons he).trans
      (readerTurn_fetching (s := { s with events := rest }) hr ho (by simp [hpo]))
    exact ⟨t, reads, hturn.trans hrun, hb, ht, hreads⟩

end Sys2Proof.Machine

/-! ## Delivery, apart from the command it is for (43_frame_reader.md R171, R173, R174) -/

namespace Sys2Proof.Machine

variable {s t u : State} {want got : Nat} {place : RUnit} {scratch : Memory}

/-! ### A turn of the loop does not look at the command's place -/

/-- `s` with its reader at `place` and `scratch` in `CBUF`: what a command keeps beside the turns of its delivery. -/
def State.placed (s : State) (place : RUnit) (scratch : Memory) : State :=
  { s with reader := place, r := { s.r with CBUF := scratch } }

/-- A turn's outcome with its state changed. -/
def Delivery.map (f : State → State) : Delivery → Delivery
  | .done => .done
  | .octets bs s => .octets bs (f s)
  | .again s => .again (f s)
  | .waiting s => .waiting (f s)
  | .ended st s => .ended st (f s)
  | .halt e => .halt e

theorem tRead_placed (cap : Nat) (s : State) : tRead cap (s.placed place scratch) =
    (tRead cap s).map fun x => (x.1, x.2.1, x.2.2.placed place scratch) := by
  have henv : (s.placed place scratch).env = s.env := rfl
  simp only [tRead, henv]
  split <;> rfl

theorem fill_placed (s : State) :
    fill (s.placed place scratch) = (fill s).map (State.placed · place scratch) := by
  have hslides : ((s.placed place scratch).r.I ≥ (s.placed place scratch).r.END / 2) = (s.r.I ≥ s.r.END / 2) := rfl
  simp only [fill, hslides]
  by_cases hI : s.r.I ≥ s.r.END / 2
  · simp only [if_pos hI, apply_ite (Option.map (State.placed · place scratch))]
    rfl
  · simp only [if_neg hI, apply_ite (Option.map (State.placed · place scratch))]
    rfl

theorem readOnce_placed (s : State) : readOnce (s.placed place scratch) =
    (readOnce s).map fun x => (x.1, x.2.1, x.2.2.placed place scratch) := by
  have hcap : (s.placed place scratch).cfg.rbufSize - (s.placed place scratch).r.END =
    s.cfg.rbufSize - s.r.END := rfl
  simp only [readOnce, hcap, tRead_placed]
  cases tRead (s.cfg.rbufSize - s.r.END) s <;> rfl

theorem deliverTurn_placed (want got : Nat) (s : State) : deliverTurn want got (s.placed place scratch) =
    (deliverTurn want got s).map (State.placed · place scratch) := by
  have hregs : (s.placed place scratch).r = { s.r with CBUF := scratch } := rfl
  have hcfg : (s.placed place scratch).cfg = s.cfg := rfl
  have henv : (s.placed place scratch).env = s.env := rfl
  simp only [deliverTurn, hregs, hcfg, henv, tRead_placed, fill_placed]
  split
  · rfl
  split
  · cases s.r.RBUF.readBytes s.r.I (min (want - got) (s.r.END - s.r.I)) <;> rfl
  split
  · cases tRead (want - got) s with
    | none => rfl
    | some x =>
      simp only [Option.map_some]
      split <;> rfl
  · cases fill s with
    | none => rfl
    | some s1 =>
      simp only [Option.map_some, readOnce_placed]
      cases readOnce s1 with
      | none => rfl
      | some x =>
        simp only [Option.map_some]
        split <;> rfl

/-! ### The loops that deliver -/

/-- A command's run, by the moves left, the octets delivered and the state, as a loop of `deliver`'s turns: a turn that
goes on takes one move. -/
structure DeliveryLoop (want : Nat) (run : Nat → List Byte → State → Outcome) : Prop where
  octets : ∀ {n out bs s t}, deliverTurn want out.length s = .octets bs t → run (n + 1) out s = run n (out ++ bs) t
  again : ∀ {n out s t}, deliverTurn want out.length s = .again t → run (n + 1) out s = run n out t

/-- The delivery to the host (43_frame_reader.md R172, 45_facade.md R230). -/
theorem deliverLoop (call : DataCall) (want : Nat) (scratch : Memory) :
    DeliveryLoop want fun n out s => runReader n (s.placed (.deliver call want out) scratch) := by
  have hmove : ∀ out (s : State), readerMove (s.placed (.deliver call want out) scratch) =
    deliverMove call want out (s.placed (.deliver call want out) scratch) := fun _ _ => rfl
  constructor
  · intro n out bs s t h
    exact runReader_go (by rw [hmove, deliverMove, deliverTurn_placed, h]; rfl)
  · intro n out s t h
    exact runReader_go (by rw [hmove, deliverMove, deliverTurn_placed, h]; rfl)

theorem writeBytes_append (m : Memory) (a : Nat) (xs ys : List Byte) :
    m.writeBytes a (xs ++ ys) = (m.writeBytes a xs).writeBytes (a + xs.length) ys := by
  induction xs generalizing m a with
  | nil => rfl
  | cons x xs ih =>
    simp only [List.cons_append, Memory.writeBytes, ih, List.length_cons, Nat.add_right_comm a 1, Nat.add_assoc]

/-- The delivery of a Close payload to `CBUF` (43_frame_reader.md R176). -/
theorem closeLoop (call : HeaderCall) (want : Nat) (scratch : Memory) :
    DeliveryLoop want fun n out s =>
      runControl n (s.placed (.header call (.close want out.length)) (scratch.writeBytes 0 out)) := by
  have hmove : ∀ (out : List Byte) m (s : State), controlMove (s.placed (.header call (.close want out.length)) m) =
    closeMove call want out.length (s.placed (.header call (.close want out.length)) m) := fun _ _ _ => rfl
  constructor
  · intro n out bs s t h
    refine runControl_go ?_
    rw [hmove, closeMove, deliverTurn_placed, h, writeBytes_append, List.length_append, Nat.zero_add]
    rfl
  · intro n out s t h
    exact runControl_go (by rw [hmove, closeMove, deliverTurn_placed, h]; rfl)

/-! ### Chunks on the transport (20_memory.md R66) -/

/-- The transport has chunks of data ready, then `tail`. -/
def Chunked (tail : List RxAnswer) (s : State) : Prop := ∃ chunks : List (List Byte), s.env.rx = chunks.map .data ++ tail

theorem rxStream_chunks (chunks : List (List Byte)) (tail : List RxAnswer) :
    rxStream (chunks.map .data ++ tail) = chunks.flatten ++ rxStream tail := by
  induction chunks with
  | nil => rfl
  | cons c chunks ih => simp only [List.map_cons, List.cons_append, rxStream, ih, List.flatten_cons, List.append_assoc]

/-- With a chunk ready a `TRead` brings octets. -/
theorem tRead_chunk {c : List Byte} {chunks : List (List Byte)} {tail : List RxAnswer}
    (hrx : s.env.rx = (c :: chunks).map .data ++ tail) (cap : Nat) :
    ∃ d t, tRead cap s = some (d, .ok, t) ∧ Chunked tail t := by
  simp only [List.map_cons, List.cons_append] at hrx
  by_cases hc : c.length ≤ cap
  · exact ⟨c.take cap, logTransaction (.read cap (c.take cap) .ok) { s with
      env := { s.env with rx := chunks.map .data ++ tail } }, by simp only [tRead, hrx, if_pos hc], chunks, rfl⟩
  · exact ⟨c.take cap, logTransaction (.read cap (c.take cap) .ok) { s with
      env := { s.env with rx := .data (c.drop cap) :: (chunks.map .data ++ tail) } },
      by simp only [tRead, hrx, if_neg hc], c.drop cap :: chunks, rfl⟩

theorem readOnce_chunk {c : List Byte} {chunks : List (List Byte)} {tail : List RxAnswer}
    (hrx : s.env.rx = (c :: chunks).map .data ++ tail) : ∃ n t, readOnce s = some (n, .ok, t) ∧ Chunked tail t := by
  obtain ⟨d, t, ht, hc⟩ := tRead_chunk hrx (s.cfg.rbufSize - s.r.END)
  rw [readOnce, ht]
  exact ⟨_, _, rfl, hc⟩

/-- A delivery that wants octets goes on while some are buffered, or a chunk is ready. -/
theorem deliverTurn_goes {chunks : List (List Byte)} {tail : List RxAnswer} (hi : CursorInv s)
    (hsize : 32 ≤ s.cfg.rbufSize) (hg : got < want) (hrx : s.env.rx = chunks.map .data ++ tail)
    (hready : s.r.I < s.r.END ∨ chunks ≠ []) :
    ∃ t, ((∃ bs, deliverTurn want got s = .octets bs t) ∨ deliverTurn want got s = .again t) ∧
      (s.r.I < s.r.END ∧ t.env.rx = s.env.rx ∨ s.r.I = s.r.END ∧ Chunked tail t) := by
  have hle := hi.i_le_end
  unfold deliverTurn
  rw [if_neg (Nat.not_le.mpr hg)]
  by_cases hI : s.r.I < s.r.END
  · obtain ⟨bs, hb⟩ := window_readBytes (a := s.r.I) (k := min (want - got) (s.r.END - s.r.I)) hi.filled (by omega)
    simp only [if_pos hI, hb]
    exact ⟨_, .inl ⟨_, rfl⟩, .inl ⟨hI, rfl⟩⟩
  obtain ⟨c, cs, rfl⟩ := List.exists_cons_of_ne_nil (hready.resolve_left hI)
  rw [if_neg hI]
  split
  · obtain ⟨d, t, ht, hc⟩ := tRead_chunk hrx (want - got)
    simp only [ht, if_true]
    exact ⟨_, .inl ⟨_, rfl⟩, .inr ⟨by omega, hc⟩⟩
  · obtain ⟨s1, hf⟩ := fill_isSome_of_empty hi hsize (by omega)
    obtain ⟨n, t, ht, hc⟩ := readOnce_chunk ((congrArg Inputs.rx (fill_env hf)).trans hrx)
    simp only [hf, ht, if_true]
    exact ⟨_, .inr rfl, .inr ⟨by omega, hc⟩⟩

end Sys2Proof.Machine

/-! ## What a payload loop draws from the stream (20_memory.md R65, R72; 43_frame_reader.md R171, R174) -/

namespace Sys2Proof.Machine

variable {s t u : State} {pre pre' : List Byte} {reads reads' : List Transaction} {tail : List RxAnswer} {want : Nat}

theorem CursorInv.congr (hi : CursorInv s) (hr : t.r = s.r) (hcfg : t.cfg = s.cfg) : CursorInv t where
  st_le_i := hr ▸ hi.st_le_i
  i_le_end := hr ▸ hi.i_le_end
  end_le_size := hr ▸ hcfg ▸ hi.end_le_size
  filled := hr ▸ hi.filled
  start_le_i := hr ▸ hi.start_le_i
  payload := hr ▸ hi.payload

/-- From `s` to `t` a loop took `pre` of the stream, by the transactions `reads`, and the transport's answers from `tail`
on stand untouched. -/
structure Drawn (tail : List RxAnswer) (s t : State) (pre : List Byte) (reads : List Transaction) : Prop where
  taken : Taken s t pre
  cursors : CursorInv t
  trace : t.trace = reads ++ s.trace
  chunked : Chunked tail t
  untouched : s.env.rx = tail → reads = [] ∧ t.env.rx = tail

namespace Drawn

theorem refl (hi : CursorInv s) (hc : Chunked tail s) : Drawn tail s s [] [] :=
  ⟨Taken.refl s, hi, rfl, hc, fun h => ⟨rfl, h⟩⟩

theorem trans (h : Drawn tail s t pre reads) (h' : Drawn tail t u pre' reads') :
    Drawn tail s u (pre ++ pre') (reads' ++ reads) := by
  refine ⟨h.taken.trans h'.taken, h'.cursors, by rw [h'.trace, h.trace, List.append_assoc], h'.chunked, fun hrx => ?_⟩
  obtain ⟨rfl, ht⟩ := h.untouched hrx
  obtain ⟨rfl, hu⟩ := h'.untouched ht
  exact ⟨rfl, hu⟩

/-- The octets that the transactions took left the transport. -/
theorem received (h : Drawn tail s t pre reads) : rxStream s.env.rx = receivedOctets reads ++ rxStream t.env.rx := by
  obtain ⟨reads', htrace, hrx⟩ := h.taken.reads
  rwa [List.append_cancel_right (htrace.symm.trans h.trace)] at hrx

/-- The octets buffered before and those received are the octets taken and those buffered after. -/
theorem balance (h : Drawn tail s t pre reads) (hi : CursorInv s) :
    s.r.END - s.r.I + (receivedOctets reads).length = pre.length + (t.r.END - t.r.I) := by
  obtain ⟨bs, hb, hlen⟩ := hi.buffered
  obtain ⟨bs', hb', hlen'⟩ := h.cursors.buffered
  have hunread := congrArg List.length h.taken.unread
  have hreceived := congrArg List.length h.received
  simp only [unread, hb, hb', Option.getD_some, List.length_append] at hunread hreceived
  omega

/-- The state after it, field by field. -/
theorem frame (h : Drawn tail s t pre reads) {more : Nat} (hmore : t.r.MORE = more) :
    ∃ rbuf st ix en start rx, t = { s with
      r := { s.r with RBUF := rbuf, ST := st, I := ix, END := en, START := start, MORE := more }
      env := { s.env with rx := rx }
      trace := reads ++ s.trace } :=
  ⟨t.r.RBUF, t.r.ST, t.r.I, t.r.END, t.r.START, t.env.rx, hmore ▸ h.trace ▸ h.taken.frame⟩

end Drawn

/-! ### The reads of a delivery (R174) -/

/-- The octets that older reads took are wanted no more by newer ones. -/
theorem deliveryReads_append {size : Nat} (older : DeliveryReads size want reads)
    (newer : DeliveryReads size (want - (receivedOctets reads).length) reads') :
    DeliveryReads size want (reads' ++ reads) := by
  induction reads' with
  | nil => exact older
  | cons x reads' ih =>
    cases x with
    | read cap octets status =>
      obtain ⟨holder, hread⟩ := newer
      rw [Nat.sub_sub, ← List.length_append, ← receivedOctets_append] at hread
      exact ⟨ih holder, hread⟩
    | write frame n st => exact newer.elim
    | close st => exact newer.elim

/-- Nothing is read for octets that are not wanted (20_memory.md R65). -/
theorem deliveryReads_zero {size : Nat} (h : DeliveryReads size 0 reads) : reads = [] := by
  cases reads with
  | nil => rfl
  | cons x reads =>
    cases x with
    | read cap octets status =>
      obtain ⟨-, hleft, -⟩ := h
      exact absurd hleft (by rw [Nat.zero_sub]; exact Nat.lt_irrefl 0)
    | write frame n st => exact h.elim
    | close st => exact h.elim

/-! ### One turn -/

/-- A delivery of `want` octets that drew `pre` by these `reads`. -/
structure Delivers (tail : List RxAnswer) (want : Nat) (s t : State) (pre : List Byte) (reads : List Transaction) :
    Prop where
  drawn : Drawn tail s t pre reads
  le : pre.length ≤ want
  reads : DeliveryReads s.cfg.rbufSize (want - (s.r.END - s.r.I)) reads

theorem Delivers.trans (hi : CursorInv s) (h : Delivers tail want s t pre reads)
    (h' : Delivers tail (want - pre.length) t u pre' reads') :
    Delivers tail want s u (pre ++ pre') (reads' ++ reads) := by
  have hle := h'.le
  have hpre := h.le
  have hbalance := h.drawn.balance hi
  have hreads := h'.reads
  rw [h.drawn.taken.cfg, show want - pre.length - (t.r.END - t.r.I) =
    want - (s.r.END - s.r.I) - (receivedOctets reads).length by omega] at hreads
  exact ⟨h.drawn.trans h'.drawn, by rw [List.length_append]; omega, deliveryReads_append h.reads hreads⟩

/-- The one read of a turn with nothing buffered: of the count still wanted, or of the whole of the empty buffer. -/
theorem deliveryReads_one {size cap : Nat} {d : List Byte} (hw : 0 < want)
    (hcap : cap = if want ≥ size - 16 then want else size) (hd : d.length ≤ cap) :
    DeliveryReads size want [.read cap d .ok] :=
  ⟨trivial, hw, hcap, hd, rfl⟩

end Sys2Proof.Machine

/-! ## The run of a delivery (43_frame_reader.md R171; log entry 11) -/

namespace Sys2Proof.Machine

variable {s t u : State} {pre : List Byte} {reads : List Transaction} {tail : List RxAnswer} {want : Nat}
  {run : Nat → List Byte → State → Outcome} {out : List Byte}

/-- A turn that goes on: what it drew is masked at its place and joins what was delivered (10_state.md R39). -/
theorem DeliveryLoop.turn (loop : DeliveryLoop want run) {chunks : List (List Byte)} (hi : CursorInv s)
    (hsize : 32 ≤ s.cfg.rbufSize) (hg : out.length < want) (hmore : want - out.length ≤ s.r.MORE)
    (hrx : s.env.rx = chunks.map .data ++ tail) (hready : s.r.I < s.r.END ∨ chunks ≠ []) :
    ∃ t pre reads, (∀ n, run (n + 1) out s = run n (out ++ mask pre s.r.KEY (maskOffset s.r)) t) ∧
      work t < work s ∧ Delivers tail (want - out.length) s t pre reads := by
  obtain ⟨t, hturn, hleft⟩ := deliverTurn_goes hi hsize hg hrx hready
  have hcases := deliverTurn_cases (got := out.length) hi hsize hmore
  have hreads := deliverTurn_reads (want := want) (got := out.length) hi
  have hwork := deliverTurn_work (want := want) (got := out.length) hi
  have hchunked : Chunked tail t := by
    obtain ⟨-, h⟩ | ⟨-, h⟩ := hleft
    · exact ⟨chunks, h.trans hrx⟩
    · exact h
  have huntouched : s.env.rx = tail → s.r.I < s.r.END ∧ t.env.rx = tail := by
    intro h
    have hnil : chunks = [] := List.map_eq_nil_iff.mp (List.append_left_eq_self.mp (hrx.symm.trans h))
    obtain ⟨hI, h'⟩ | ⟨hI, -⟩ := hleft
    · exact ⟨hI, h'.trans h⟩
    · exact absurd (hready.resolve_right (by simp [hnil])) (by omega)
  obtain ⟨bs, hturn⟩ | hturn := hturn
  · rw [hturn] at hcases hreads hwork
    obtain ⟨-, pre, rfl, hle, ht, hc⟩ := hcases
    obtain ⟨hI, htrace⟩ | ⟨hI, hI', hdirect, d, hd, htrace⟩ := hreads
    · exact ⟨t, pre, [], fun n => loop.octets hturn, hwork,
        ⟨ht, hc, htrace, hchunked, fun h => ⟨rfl, (huntouched h).2⟩⟩, hle, trivial⟩
    · refine ⟨t, pre, [_], fun n => loop.octets hturn, hwork,
        ⟨ht, hc, htrace, hchunked, fun h => absurd (huntouched h).1 (by omega)⟩, hle, ?_⟩
      rw [hI, Nat.sub_self, Nat.sub_zero]
      exact deliveryReads_one (by omega) (if_pos hdirect).symm hd
  · rw [hturn] at hcases hreads hwork
    obtain ⟨-, ht, hc⟩ := hcases
    obtain ⟨hI, hsmall, d, hd, -, htrace⟩ := hreads
    refine ⟨t, [], [_], fun n => ?_, hwork,
        ⟨ht, hc, htrace, hchunked, fun h => absurd (huntouched h).1 (by omega)⟩, Nat.zero_le _, ?_⟩
    · rw [mask_nil, List.append_nil]
      exact loop.again hturn
    · rw [hI, Nat.sub_self, Nat.sub_zero]
      exact deliveryReads_one (by omega) (if_neg (by omega)).symm hd

/-- A delivery runs until it has the octets it wants, or nothing is buffered and no chunk is left. -/
theorem DeliveryLoop.reaches (loop : DeliveryLoop want run) {n : Nat} {out : List Byte} (hi : CursorInv s)
    (hsize : 32 ≤ s.cfg.rbufSize) (hle : out.length ≤ want) (hmore : want - out.length ≤ s.r.MORE)
    (hrx : Chunked tail s) (hn : work s < n) :
    ∃ m u pre reads, run n out s = run (m + 1) (out ++ mask pre s.r.KEY (maskOffset s.r)) u ∧
      Delivers tail (want - out.length) s u pre reads ∧
      (pre.length = want - out.length ∨ u.r.I = u.r.END ∧ u.env.rx = tail) := by
  induction n generalizing s out with
  | zero => exact absurd hn (Nat.not_lt_zero _)
  | succ n ih =>
    obtain ⟨chunks, hchunks⟩ := hrx
    have hstop : run (n + 1) out s = run (n + 1) (out ++ mask [] s.r.KEY (maskOffset s.r)) s := by
      rw [mask_nil, List.append_nil]
    have hstay : Delivers tail (want - out.length) s s [] [] :=
      ⟨Drawn.refl hi ⟨chunks, hchunks⟩, Nat.zero_le _, trivial⟩
    by_cases hg : out.length < want
    swap
    · exact ⟨n, s, [], [], hstop, hstay, .inl (by rw [List.length_nil]; omega)⟩
    by_cases hready : s.r.I < s.r.END ∨ chunks ≠ []
    swap
    · obtain ⟨hI, hnil⟩ := not_or.mp hready
      refine ⟨n, s, [], [], hstop, hstay, .inr ⟨by have := hi.i_le_end; omega, ?_⟩⟩
      rw [hchunks, not_not.mp hnil]
      rfl
    obtain ⟨t, pre, reads, hrun, hwork, hd⟩ := loop.turn hi hsize hg hmore hchunks hready
    have ht := hd.drawn.taken
    have hlen := hd.le
    have htmore := ht.more
    have hwant : want - (out ++ mask pre s.r.KEY (maskOffset s.r)).length = want - out.length - pre.length := by
      rw [List.length_append, length_mask, Nat.sub_sub]
    obtain ⟨m, u, pre', reads', hrun', hd', hend⟩ := ih (s := t) (out := out ++ mask pre s.r.KEY (maskOffset s.r))
      hd.drawn.cursors (ht.cfg ▸ hsize) (by rw [List.length_append, length_mask]; omega) (by omega)
      hd.drawn.chunked (by omega)
    rw [hwant] at hd' hend
    refine ⟨m, u, pre ++ pre', reads' ++ reads, ?_, hd.trans hi hd', ?_⟩
    · rw [hrun, hrun', List.append_assoc, ht.KEY, ht.maskOffset hi.start_le_i, mask_append]
    · exact hend.imp_left fun h => by rw [List.length_append]; omega

end Sys2Proof.Machine

/-! ## Where a delivery ends (43_frame_reader.md R171 to R173) -/

namespace Sys2Proof.Machine

variable {s t u : State} {pre inHand : List Byte} {reads : List Transaction} {tail : List RxAnswer} {want got : Nat}
  {run : Nat → List Byte → State → Outcome} {out : List Byte}

/-! ### The octets in hand -/

/-- What is drawn comes from the octets in hand, those buffered and those of the chunks, and leaves the rest of them. -/
theorem Drawn.from_inHand (h : Drawn tail s t pre reads) (hu : unread s = inHand ++ rxStream tail) :
    ∃ rest, inHand = pre ++ rest ∧ unread t = rest ++ rxStream tail := by
  obtain ⟨chunks, hrx⟩ := h.chunked
  obtain ⟨bs, hb, -⟩ := h.cursors.buffered
  have ht : unread t = (bs ++ chunks.flatten) ++ rxStream tail := by
    rw [unread, hb, hrx, rxStream_chunks, Option.getD_some, List.append_assoc]
  have hunread := h.taken.unread
  rw [hu, ht, ← List.append_assoc] at hunread
  exact ⟨_, List.append_cancel_right hunread, ht⟩

/-- With nothing buffered and no chunk left, no octet in hand is left. -/
theorem rest_eq_nil {rest : List Byte} (hI : t.r.I = t.r.END) (htail : t.env.rx = tail)
    (hrest : unread t = rest ++ rxStream tail) : rest = [] := by
  rw [unread, hI, Nat.sub_self, htail] at hrest
  exact List.append_left_eq_self.mp hrest.symm

/-- With enough octets in hand a delivery has all it wants. -/
theorem DeliveryLoop.fills (loop : DeliveryLoop want run) {n : Nat} (hi : CursorInv s) (hsize : 32 ≤ s.cfg.rbufSize)
    (hmore : want ≤ s.r.MORE) (hrx : Chunked tail s) (hn : work s < n) (hu : unread s = inHand ++ rxStream tail)
    (henough : want ≤ inHand.length) :
    ∃ m u reads, run n [] s = run (m + 1) (mask (inHand.take want) s.r.KEY (maskOffset s.r)) u ∧
      Delivers tail want s u (inHand.take want) reads ∧ unread u = inHand.drop want ++ rxStream tail := by
  obtain ⟨m, u, pre, reads, hrun, hd, hend⟩ := loop.reaches (out := []) hi hsize (Nat.zero_le _) hmore hrx hn
  obtain ⟨rest, rfl, hrest⟩ := hd.drawn.from_inHand hu
  rw [List.length_append] at henough
  have hfull : pre.length = want := by
    refine hend.elim id fun ⟨hI, htail⟩ => ?_
    have hle : pre.length ≤ want := hd.le
    rw [rest_eq_nil hI htail hrest, List.length_nil] at henough
    omega
  rw [List.take_left' hfull, List.drop_left' hfull]
  exact ⟨m, u, reads, hrun, hd, hrest⟩

/-- With fewer octets in hand than it wants a delivery takes them all, and stands with nothing buffered before the rest
of the transport's answers. -/
theorem DeliveryLoop.dries (loop : DeliveryLoop want run) {n : Nat} (hi : CursorInv s) (hsize : 32 ≤ s.cfg.rbufSize)
    (hmore : want ≤ s.r.MORE) (hrx : Chunked tail s) (hn : work s < n) (hu : unread s = inHand ++ rxStream tail)
    (hfew : inHand.length < want) :
    ∃ m u reads, run n [] s = run (m + 1) (mask inHand s.r.KEY (maskOffset s.r)) u ∧
      Delivers tail want s u inHand reads ∧ u.r.I = u.r.END ∧ u.env.rx = tail := by
  obtain ⟨m, u, pre, reads, hrun, hd, hend⟩ := loop.reaches (out := []) hi hsize (Nat.zero_le _) hmore hrx hn
  obtain ⟨rest, rfl, hrest⟩ := hd.drawn.from_inHand hu
  rw [List.length_append] at hfew
  obtain ⟨hI, htail⟩ := hend.resolve_left (by rw [List.length_nil]; omega)
  obtain rfl := rest_eq_nil hI htail hrest
  rw [List.append_nil]
  exact ⟨m, u, reads, hrun, hd, hI, htail⟩

/-! ### The turn that finds nothing (R173, R174) -/

/-- `s` with its window empty, its cursors at `ix`. -/
def State.drained (s : State) (rbuf : Memory) (st ix : Nat) (start : Int) : State :=
  { s with r := { s.r with RBUF := rbuf, ST := st, I := ix, END := ix, START := start } }

theorem State.eq_drained (hI : s.r.I = s.r.END) : s = s.drained s.r.RBUF s.r.ST s.r.I s.r.START := by
  have hr : s.r = { s.r with END := s.r.I } := by rw [hI]
  exact congrArg (fun r => { s with r := r }) hr

/-- With nothing unread `fill` leaves the whole of the buffer free (42_read_buffer.md R150). -/
theorem fill_drained (h : fill s = some t) (hI : s.r.I = s.r.END) :
    ∃ rbuf st, t = s.drained rbuf st 0 (s.r.START - s.r.I) := by
  refine ⟨s.r.RBUF.slide s.r.I s.r.END, s.r.ST - s.r.I, ?_⟩
  rw [fill_of_slide h (by omega)]
  simp only [slideFromI, State.drained, hI, Nat.sub_self]

/-- The `TRead` a delivery makes with nothing buffered asks for what is still wanted, or for the whole of the buffer. -/
def deliveryCap (size want : Nat) : Nat := if want ≥ size - 16 then want else size

/-- With nothing buffered a delivery waits for the transport, or ends with the status it answers. -/
theorem deliverTurn_dry (hi : CursorInv s) (hsize : 32 ≤ s.cfg.rbufSize) (hg : got < want) (hI : s.r.I = s.r.END) :
    ∃ (rbuf : Memory) (st ix : Nat) (start : Int), (ix : Int) - start = s.r.I - s.r.START ∧
      (s.env.rx = [] → deliverTurn want got s = .waiting (s.drained rbuf st ix start)) ∧
      ∀ a left, s.env.rx = a :: left → (∀ d, a ≠ .data d) →
        deliverTurn want got s = .ended (eofRule s.env.cancelFired got (answerStatus a))
          ((s.drained rbuf st ix start).refuse (deliveryCap s.cfg.rbufSize (want - got)) a left) := by
  by_cases hdirect : want - got ≥ s.cfg.rbufSize - directMargin
  · refine ⟨s.r.RBUF, s.r.ST, s.r.I, s.r.START, rfl, fun hrx => ?_, fun a left hrx ha => ?_⟩
    · rw [← State.eq_drained hI, deliverTurn, if_neg (by omega), if_neg (by omega), if_pos hdirect,
        tRead_none.mpr hrx]
    · rw [← State.eq_drained hI, deliverTurn, if_neg (by omega), if_neg (by omega), if_pos hdirect,
        tRead_refused hrx ha, deliveryCap, if_pos hdirect]
      exact if_neg (answerStatus_ne_ok ha)
  · obtain ⟨s1, hf⟩ := fill_isSome_of_empty hi hsize hI.ge
    obtain ⟨rbuf, st, rfl⟩ := fill_drained hf hI
    refine ⟨rbuf, st, 0, s.r.START - s.r.I, by omega, fun hrx => ?_, fun a left hrx ha => ?_⟩
    · rw [deliverTurn, if_neg (by omega), if_neg (by omega), if_neg hdirect, hf]
      simp only [(readOnce_none (s := s.drained rbuf st 0 (s.r.START - s.r.I))).mpr hrx]
    · rw [deliverTurn, if_neg (by omega), if_neg (by omega), if_neg hdirect, hf]
      simp only [readOnce_refused (s := s.drained rbuf st 0 (s.r.START - s.r.I)) hrx ha,
        if_neg (answerStatus_ne_ok ha), deliveryCap, if_neg hdirect]
      rfl

end Sys2Proof.Machine

/-! ## The delivery to the host (43_frame_reader.md R172; 45_facade.md R230) -/

namespace Sys2Proof.Machine

variable {s t u : State} {tail : List RxAnswer} {want : Nat} {out : List Byte} {scratch : Memory} {call : DataCall}

/-- A delivery that has all it wants returns. -/
theorem runReader_delivered (m : Nat) (hfull : want ≤ out.length) :
    runReader (m + 1) (s.placed (.deliver call want out) scratch) =
      .next (endDelivery call out .ok (s.placed (.deliver call want out) scratch)) := by
  have hmove : readerMove (s.placed (.deliver call want out) scratch) =
      .go (endDelivery call out .ok (s.placed (.deliver call want out) scratch)) := by
    show deliverMove call want out _ = _
    rw [deliverMove, deliverTurn, if_pos hfull]
  rw [runReader_go hmove]
  exact runReader_idle m (by cases call <;> rfl)

/-- A delivery that does not come to the end of the payload leaves `RSTATE` alone and returns the status as it is. -/
theorem endDelivery_open {st : Status} (h : ¬ (st = .ok ∧ s.r.MORE = 0)) :
    endDelivery call out st s = endRead (dataCallCode call) (.delivered out st) s := by
  cases call with
  | appendFrame => simp only [endDelivery, if_neg h]; rfl
  | read => simp only [endDelivery, if_neg h]; rfl

/-- A status of the transport within the payload ends a delivery, the reader open. -/
theorem runReader_delivery_ended {st : Status} (m : Nat) (hd : deliverTurn want out.length s = .ended st t)
    (hmore : 0 < t.r.MORE) :
    runReader (m + 1) (s.placed (.deliver call want out) scratch) =
      .next (endRead (dataCallCode call) (.delivered out st) (t.placed (.deliver call want out) scratch)) := by
  have hopen : ¬ (st = .ok ∧ (t.placed (.deliver call want out) scratch).r.MORE = 0) := fun h =>
    absurd h.2 (Nat.ne_of_gt hmore)
  have hmove : readerMove (s.placed (.deliver call want out) scratch) =
      .go (endDelivery call out st (t.placed (.deliver call want out) scratch)) := by
    show deliverMove call want out _ = _
    rw [deliverMove, deliverTurn_placed, hd]
    rfl
  rw [runReader_go hmove, endDelivery_open hopen]
  exact runReader_idle m rfl

/-- `APPEND_FRAME` with `RLOCK` free and the reader open delivers (R172). -/
theorem exec_appendFrame_open (hl : s.RLOCK = none) (hs : s.r.RSTATE ≠ .closed) (n : Nat) :
    exec (.appendFrame n) s = runReader (moveBound s)
      (({ s with RLOCK := some .reader } : State).placed (.deliver .appendFrame (min n s.r.MORE) []) s.r.CBUF) := by
  rw [exec, execAppendFrame, acquireRead_free hl, if_neg hs]
  rfl

/-- `READ` in the middle of a payload delivers (45_facade.md R230). -/
theorem exec_read_open (hl : s.RLOCK = none) (hs : s.r.RSTATE ≠ .closed) (hm : 0 < s.r.MORE) (n : Nat) :
    exec (.read n) s = runReader (moveBound s)
      (({ s with RLOCK := some .reader } : State).placed (.deliver .read (min n s.r.MORE) []) s.r.CBUF) := by
  rw [exec, execRead, acquireRead_free hl, if_neg hs, if_neg (by omega)]
  rfl

theorem chunked_of_dataOnly (h : DataOnly s.env.rx) : Chunked [] s := by
  unfold Chunked
  generalize s.env.rx = rx at h ⊢
  induction rx with
  | nil => exact ⟨[], rfl⟩
  | cons a rx ih =>
    obtain ⟨d, rfl⟩ := h a List.mem_cons_self
    obtain ⟨chunks, rfl⟩ := ih fun b hb => h b (List.mem_cons_of_mem _ hb)
    exact ⟨d :: chunks, rfl⟩

/-- Settles O51: the delivery has all it wants, and `endDelivery` reads the end of the payload off `MORE`. -/
theorem appendFrameDeliversTheNextPayloadOctets : Obligations.AppendFrameDeliversTheNextPayloadOctets := by
  intro s n want hi hl hs ha henough
  let s0 : State := { s with RLOCK := some .reader }
  have hi0 : CursorInv s0 := hi.cursors.congr rfl rfl
  have hend : (s.r.MORE - want = 0) = (want = s.r.MORE) := by
    have hle : want ≤ s.r.MORE := Nat.min_le_right _ _
    exact propext ((Nat.sub_eq_zero_iff_le).trans ⟨hle.antisymm, ge_of_eq⟩)
  obtain ⟨m, u, reads, hrun, hd, hu⟩ := (deliverLoop .appendFrame want s.r.CBUF).fills (inHand := unread s) hi0 hi.size
    (Nat.min_le_right _ _) (chunked_of_dataOnly ha) (work_lt_moveBound hi0) (List.append_nil _).symm henough
  have hlen : ((unread s).take want).length = want := List.length_take_of_le henough
  have hoffset := hd.drawn.taken.offset
  have hreceived := hd.drawn.received
  have hmore : u.r.MORE = s.r.MORE - want := by
    have h : u.r.MORE + ((unread s).take want).length = s.r.MORE := hd.drawn.taken.more
    omega
  obtain ⟨rbuf, st, ix, en, start, rx, rfl⟩ := hd.drawn.frame hmore
  rw [hlen] at hoffset
  refine ⟨_, reads, ((exec_appendFrame_open hl hs n).trans hrun).trans
    (runReader_delivered m (by rw [length_mask, hlen])), ?_, ?_, hoffset, hreceived, hd.reads, fun hle => ?_⟩
  · simp only [endDelivery, State.placed, true_and, hend]
    rw [hl, hi.reader_idle hl]
    rfl
  · exact hu.trans (List.append_nil _)
  · exact deliveryReads_zero (Nat.sub_eq_zero_of_le hle ▸ hd.reads)

/-- An end of stream is swallowed exactly when octets came before it (R173). -/
theorem eofRule_eof (cancelFired : Bool) (got : Nat) :
    eofRule cancelFired got .eof = if 0 < got then .ok else .endOfStream := by
  simp only [eofRule, terr, true_and, gt_iff_lt]

/-- Settles O54: the buffered octets are all there are, and the turn after them meets the status. -/
theorem anEndOfStreamAfterOctetsIsSwallowed : Obligations.AnEndOfStreamAfterOctetsIsSwallowed := by
  intro s n bs a left hi hl hs hb hfew hrx ha k answer wanted i code hc
  let s0 : State := { s with RLOCK := some .reader }
  have hi0 : CursorInv s0 := hi.cursors.congr rfl rfl
  have hanswer : answerStatus a = answer := by cases a <;> rfl
  have hk : eofRule s.env.cancelFired bs.length (answerStatus a) = k := by
    cases a with
    | eof => exact eofRule_eof _ _
    | _ => rfl
  obtain ⟨call, hcode, hexec⟩ : ∃ call, dataCallCode call = code ∧ exec i s = runReader (moveBound s)
      (s0.placed (.deliver call (min n s.r.MORE) []) s.r.CBUF) := by
    simp only [List.mem_cons, Prod.mk.injEq, List.not_mem_nil, or_false] at hc
    obtain ⟨rfl, rfl⟩ | ⟨rfl, rfl⟩ := hc
    · exact ⟨.appendFrame, rfl, exec_appendFrame_open hl hs n⟩
    · exact ⟨.read, rfl, exec_read_open hl hs (by omega) n⟩
  obtain ⟨m, u, reads, hrun, hd, hI, hleft⟩ := (deliverLoop call (min n s.r.MORE) s.r.CBUF).dries (s := s0)
    (inHand := bs) (tail := a :: left) hi0 hi.size (Nat.min_le_right _ _) ⟨[], hrx⟩ (work_lt_moveBound hi0)
    (by show unread s = _; rw [unread, hb, hrx, Option.getD_some]) hfew
  obtain ⟨rfl, -⟩ := hd.drawn.untouched hrx
  have hoffset := hd.drawn.taken.offset
  have hcfg : u.cfg = s.cfg := hd.drawn.taken.cfg
  have hcancel : u.env.cancelFired = s.env.cancelFired := hd.drawn.taken.cancelFired
  obtain ⟨rbuf, st, ix, start, hphase, -, hturn⟩ := deliverTurn_dry (want := min n s.r.MORE) hd.drawn.cursors
    (hcfg ▸ hi.size) hfew hI
  have hended : deliverTurn (min n s.r.MORE) (mask bs s.r.KEY (maskOffset s.r)).length u =
      .ended k ((u.drained rbuf st ix start).refuse (deliveryCap s.cfg.rbufSize wanted) a left) := by
    rw [length_mask, hturn a left hleft ha, hcancel, hk, hcfg]
  have hmore : u.r.MORE = s.r.MORE - bs.length := by
    have : u.r.MORE + bs.length = s.r.MORE := hd.drawn.taken.more
    omega
  refine ⟨_, (hexec.trans hrun).trans (runReader_delivery_ended m hended (by show 0 < u.r.MORE; omega)), ?_, rfl,
    hphase.trans hoffset⟩
  obtain ⟨rbuf', st', ix', en', start', rx', rfl⟩ := hd.drawn.frame hmore
  rw [← hanswer, ← hcode, hl, hi.reader_idle hl]
  rfl

end Sys2Proof.Machine

/-! ## A control frame in hand (43_frame_reader.md R161, R163) -/

namespace Sys2Proof.Machine

variable {s : State} {op : BitVec 4} {h : Head} {bs : List Byte} {chunks : List (List Byte)} {tail : List RxAnswer}

/-- A well-formed header announces at most `MAX_LEN` octets (30_encoding.md R101). -/
theorem headLength_le (hw : h.wellFormed = true) : headLength h ≤ maxLen := by
  unfold Head.wellFormed LenField.wellFormed at hw
  unfold headLength LenField.length
  cases hl : h.len with
  | short v => have := v.isLt; simp only [maxLen]; omega
  | ext16 v => have := v.isLt; simp only [maxLen]; omega
  | ext64 v => rw [hl] at hw; exact of_decide_eq_true hw

/-- The octets in hand for a frame just latched: those buffered behind its header, and the chunks'. -/
theorem latch_unread (hb : s.r.RBUF.readBytes (s.r.ST + headSize h) (s.r.END - (s.r.ST + headSize h)) = some bs)
    (hrx : s.env.rx = chunks.map .data ++ tail) :
    unread (latch op h s) = (bs ++ chunks.flatten) ++ rxStream tail := by
  simp only [unread, latch_r, latch_env, hb, hrx, rxStream_chunks, Option.getD_some, List.append_assoc]

/-- When every chunk was taken, the octets received are the chunks'. -/
theorem Drawn.received_chunks {t : State} {pre : List Byte} {reads : List Transaction} (hd : Drawn tail s t pre reads)
    (hrx : s.env.rx = chunks.map .data ++ tail) (hleft : t.env.rx = tail) : receivedOctets reads = chunks.flatten := by
  have hreceived := hd.received
  rw [hrx, rxStream_chunks, hleft] at hreceived
  exact (List.append_cancel_right hreceived).symm

end Sys2Proof.Machine

/-! ## A Pong is skipped (43_frame_reader.md R168, R175) -/

namespace Sys2Proof.Machine

variable {s t u : State} {call : HeaderCall} {pre : List Byte} {reads : List Transaction} {tail : List RxAnswer}

/-! ### The moves of `skip` -/

/-- `s` with the cursor past `c` octets of the payload. -/
def State.passed (s : State) (c : Nat) : State := { s with r := { s.r with I := s.r.I + c, MORE := s.r.MORE - c } }

/-- Passing buffered octets takes them from the stream. -/
theorem passed_taken {c : Nat} (hi : CursorInv s) (hbuffered : s.r.I + c ≤ s.r.END) (hmore : c ≤ s.r.MORE) :
    ∃ bs, Taken s (s.passed c) bs ∧ CursorInv (s.passed c) := by
  obtain ⟨bs, hb⟩ := window_readBytes (a := s.r.I) (k := c) hi.filled hbuffered
  obtain ⟨rest, hrest⟩ := window_readBytes (a := s.r.I + c) (k := s.r.END - (s.r.I + c)) hi.filled (by omega)
  have hlen := readBytes_length hb
  have hunread : s.r.RBUF.readBytes s.r.I (s.r.END - s.r.I) = some (bs ++ rest) := by
    rw [show s.r.END - s.r.I = c + (s.r.END - (s.r.I + c)) by omega, readBytes_add, hb, hrest]
  have h1 := hi.st_le_i
  have h2 := hi.start_le_i
  have h3 := hi.payload
  refine ⟨bs, ⟨rfl, ⟨[], rfl, rfl⟩, ?_, ?_, ?_⟩, ?_, hbuffered, hi.end_le_size, hi.filled, ?_, ?_⟩
  · simp only [State.passed]; omega
  · simp only [State.passed]; omega
  · simp only [unread, State.passed, hunread, hrest, Option.getD_some, List.append_assoc]
  · simp only [State.passed]; omega
  · simp only [State.passed]; omega
  · simp only [State.passed]; omega

theorem skipMove_done (hm : s.r.MORE = 0) : skipMove call s = .go (beginFetch call s) := by
  rw [skipMove, if_pos hm]

theorem skipMove_buffered (hm : 0 < s.r.MORE) (hI : s.r.I < s.r.END) :
    skipMove call s = .go (s.passed (min s.r.MORE (s.r.END - s.r.I))) := by
  rw [skipMove, if_neg (by omega), if_pos hI]
  rfl

/-- A read of the whole of the empty buffer (42_read_buffer.md R150, R151), answered with data. -/
def WholeRead (size : Nat) (x : Transaction) : Prop := ∃ d, x = .read size d .ok

/-- `skip` goes on while octets are buffered, or a chunk is ready. -/
theorem skipMove_goes {chunks : List (List Byte)} (hi : CursorInv s) (hsize : 32 ≤ s.cfg.rbufSize) (hm : 0 < s.r.MORE)
    (hrx : s.env.rx = chunks.map .data ++ tail)
    (hready : s.r.I < s.r.END ∨ chunks ≠ []) :
    ∃ t pre reads, skipMove call s = .go t ∧ Drawn tail s t pre reads ∧ ∀ x ∈ reads, WholeRead s.cfg.rbufSize x := by
  have hle := hi.i_le_end
  by_cases hI : s.r.I < s.r.END
  · obtain ⟨bs, ht, hc⟩ := passed_taken (c := min s.r.MORE (s.r.END - s.r.I)) hi (by omega) (by omega)
    exact ⟨_, bs, [], skipMove_buffered hm hI, ⟨ht, hc, rfl, ⟨chunks, hrx⟩, fun h => ⟨rfl, h⟩⟩, nofun⟩
  · have hne := hready.resolve_left hI
    obtain ⟨c, cs, rfl⟩ := List.exists_cons_of_ne_nil hne
    obtain ⟨s1, hf⟩ := fill_isSome_of_empty hi hsize (by omega)
    have hfc := (fill_cursorInv hi hf).1
    obtain ⟨n, t, ht, hchunked⟩ := readOnce_chunk ((congrArg Inputs.rx (fill_env hf)).trans hrx)
    have htaken := (fill_taken hi hf).trans (readOnce_taken hfc ht)
    have hgo : skipMove call s = .go t := by
      rw [skipMove, if_neg (by omega), if_neg hI, hf]
      simp only [ht, if_true]
    obtain ⟨rbuf, st, rfl⟩ := fill_drained hf (by omega)
    obtain ⟨d, left, -, -, -, -, htrace⟩ := readOnce_some ht
    refine ⟨t, [], [.read s.cfg.rbufSize d .ok], hgo, ⟨htaken, readOnce_cursorInv hfc ht, ?_, hchunked, fun h => ?_⟩,
      fun x hx => ⟨d, List.mem_singleton.mp hx⟩⟩
    · rw [htrace]
      rfl
    · exact absurd (List.map_eq_nil_iff.mp (List.append_left_eq_self.mp (hrx.symm.trans h))) hne

/-- `skip` runs until the payload is passed, or nothing is buffered and no chunk is left. -/
theorem skip_reaches {n : Nat} (hi : CursorInv s) (hsize : 32 ≤ s.cfg.rbufSize) (hr : s.reader = .header call .skip)
    (hrx : Chunked tail s) (hn : work s < n) :
    ∃ m u pre reads, runControl n s = runControl (m + 1) u ∧ Drawn tail s u pre reads ∧
      (∀ x ∈ reads, WholeRead s.cfg.rbufSize x) ∧ (u.r.MORE = 0 ∨ u.r.I = u.r.END ∧ u.env.rx = tail) := by
  induction n generalizing s with
  | zero => exact absurd hn (Nat.not_lt_zero _)
  | succ n ih =>
    obtain ⟨chunks, hchunks⟩ := hrx
    have hstay : Drawn tail s s [] [] := Drawn.refl hi ⟨chunks, hchunks⟩
    by_cases hm : s.r.MORE = 0
    · exact ⟨n, s, [], [], rfl, hstay, nofun, .inl hm⟩
    by_cases hready : s.r.I < s.r.END ∨ chunks ≠ []
    swap
    · obtain ⟨hI, hnil⟩ := not_or.mp hready
      refine ⟨n, s, [], [], rfl, hstay, nofun, .inr ⟨by have := hi.i_le_end; omega, ?_⟩⟩
      rw [hchunks, not_not.mp hnil]
      rfl
    obtain ⟨t, pre, reads, hgo, hd, hreads⟩ := skipMove_goes (call := call) hi hsize (by omega) hchunks hready
    have hworks := skipMove_works hi hr
    rw [hgo] at hworks
    have hwork : work t < work s := hworks
    have hmove : controlMove s = .go t := by simpa only [controlMove, hr] using hgo
    have hcfg := hd.taken.cfg
    obtain ⟨m, u, pre', reads', hrun, hd', hreads', hend⟩ := ih (s := t) hd.cursors (hcfg ▸ hsize)
      (hd.taken.reader.trans hr) hd.chunked (by omega)
    refine ⟨m, u, _, _, (runControl_go hmove).trans hrun, hd.trans hd', fun x hx => ?_, hend⟩
    exact (List.mem_append.mp hx).elim (fun h => hcfg ▸ hreads' x h) (hreads x)

/-- A Pong whole in the buffer is passed in one move (R175). -/
theorem runControl_skip_buffered (n : Nat) (hr : s.reader = .header call .skip) (hle : s.r.I + s.r.MORE ≤ s.r.END) :
    runControl (n + 2) s = .next (beginFetch call (s.passed s.r.MORE)) := by
  have hdone : ∀ {m} {v : State}, v.reader = .header call .skip → v.r.MORE = 0 →
      runControl (m + 1) v = .next (beginFetch call v) := by
    intro m v hv hm
    rw [runControl_go (t := beginFetch call v) (by simpa only [controlMove, hv] using skipMove_done hm)]
    exact runControl_fetch m rfl
  by_cases hm : s.r.MORE = 0
  · rw [hdone hr hm, hm]
    rfl
  · have hmove : controlMove s = .go (s.passed s.r.MORE) := by
      have h := skipMove_buffered (call := call) (s := s) (by omega) (by omega)
      rw [show min s.r.MORE (s.r.END - s.r.I) = s.r.MORE by omega] at h
      simpa only [controlMove, hr] using h
    rw [runControl_go hmove]
    exact hdone hr (Nat.sub_self _)

/-- With nothing buffered and a status of the transport next, `skip` closes the reader with it (R168, R178). -/
theorem runControl_skip_refused {a : RxAnswer} {left : List RxAnswer} (n : Nat) (hi : CursorInv s)
    (hsize : 32 ≤ s.cfg.rbufSize) (hr : s.reader = .header call .skip) (hm : 0 < s.r.MORE) (hI : s.r.I = s.r.END)
    (hrx : s.env.rx = a :: left) (ha : ∀ d, a ≠ .data d) :
    ∃ rbuf st start, runControl (n + 1) s = .next (takeFatal call (terr s.env.cancelFired (answerStatus a))
      ((s.drained rbuf st 0 start).refuse s.cfg.rbufSize a left)) := by
  obtain ⟨s1, hf⟩ := fill_isSome_of_empty hi hsize hI.ge
  obtain ⟨rbuf, st, rfl⟩ := fill_drained hf hI
  have hmove : controlMove s = .go (takeFatal call (terr s.env.cancelFired (answerStatus a))
      ((s.drained rbuf st 0 (s.r.START - s.r.I)).refuse s.cfg.rbufSize a left)) := by
    simp only [controlMove, hr, skipMove]
    rw [if_neg (by omega), if_neg (by omega), hf]
    simp only [readOnce_refused (s := s.drained rbuf st 0 (s.r.START - s.r.I)) hrx ha,
      if_neg (answerStatus_ne_ok ha)]
    rfl
  exact ⟨rbuf, st, _, (runControl_go hmove).trans (runControl_idle n rfl)⟩

/-! ### The frame -/

/-- `PONG` latches its header and skips its payload (R168). -/
theorem exec_pong_skips (h : Head) (hr : s.reader = .header call .fetch) (hc : call ≠ .rawFrameHeader) :
    exec (.pong h) s = runControl (4 * (s.r.END + readyOctets s.env.rx) + 8)
      { latch 10 h s with reader := .header call .skip } :=
  controlFrame_run hr hc

/-- What a Pong comes to, its octets in the buffer and in chunks: the octets of the payload in hand are skipped. -/
theorem exec_pong_reaches {h : Head} {bs : List Byte} {chunks : List (List Byte)} (hi : s.Inv)
    (hr : s.reader = .header call .fetch) (hc : call ≠ .rawFrameHeader) (hw : h.wellFormed = true)
    (hfirst : s.r.ST + headSize h ≤ s.r.END)
    (hb : s.r.RBUF.readBytes (s.r.ST + headSize h) (s.r.END - (s.r.ST + headSize h)) = some bs)
    (hrx : s.env.rx = chunks.map .data ++ tail) :
    ∃ m u pre rest reads, exec (.pong h) s = runControl (m + 1) u ∧
      Drawn tail { latch 10 h s with reader := .header call .skip } u pre reads ∧
      (∀ x ∈ reads, WholeRead s.cfg.rbufSize x) ∧ bs ++ chunks.flatten = pre ++ rest ∧
      unread u = rest ++ rxStream tail ∧ (u.r.MORE = 0 ∨ u.r.I = u.r.END ∧ u.env.rx = tail ∧ rest = []) := by
  have hi0 : CursorInv { latch 10 h s with reader := .header call .skip } :=
    (latch_cursorInv hi.cursors hfirst (headLength_le hw)).congr rfl rfl
  obtain ⟨m, u, pre, reads, hrun, hd, hreads, hend⟩ := skip_reaches (tail := tail) hi0 hi.size rfl ⟨chunks, hrx⟩
    (work_lt_moveBound hi0)
  obtain ⟨rest, hrest, hu⟩ := hd.from_inHand (latch_unread hb hrx)
  refine ⟨m, u, pre, rest, reads, (exec_pong_skips h hr hc).trans hrun, hd, hreads, hrest, hu, ?_⟩
  exact hend.imp_right fun ⟨hI, htail⟩ => ⟨hI, htail, rest_eq_nil hI htail hu⟩

/-- Settles O43: a Pong whole in the buffer is passed in one move; one in chunks is passed once `MORE` is 0. -/
theorem aPongIsDropped : Obligations.APongIsDropped := by
  constructor
  · intro s h call first hr hc hle
    simp only [first, length_octets] at hle ⊢
    rw [exec_pong_skips h hr hc, runControl_skip_buffered _ rfl hle]
    simp only [State.passed, latch_r, Nat.sub_self]
    rw [hr]
    rfl
  · intro s h call bs chunks tail first inHand hi hr hc hw hfirst hb hrx henough
    simp only [first, length_octets] at hfirst hb
    obtain ⟨m, u, pre, rest, reads, hrun, hd, hreads, hrest, hu, hend⟩ :=
      exec_pong_reaches hi hr hc hw hfirst hb hrx
    have hmore : u.r.MORE + pre.length = h.len.length := hd.taken.more
    have hlen : inHand.length = pre.length + rest.length := by rw [← List.length_append, ← hrest]
    have hdone : u.r.MORE = 0 := hend.elim id fun ⟨_, _, hnil⟩ => by
      rw [hnil, List.length_nil] at hlen
      omega
    have hmove : controlMove u = .go (beginFetch call u) := by
      simpa only [controlMove, hd.taken.reader] using skipMove_done hdone
    refine ⟨beginFetch call u, reads, hrun.trans ((runControl_go hmove).trans (runControl_fetch m rfl)), ?_, ?_, hreads⟩
    · obtain ⟨rbuf, st, ix, en, start, rx, rfl⟩ := hd.frame hdone
      rw [hr]
      rfl
    · show unread u = _
      rw [hu, show inHand = pre ++ rest from hrest, List.drop_left' (by omega)]

/-- Settles O50: with fewer octets in hand than the payload's, `skip` takes them all and meets the status. -/
theorem aTransportStatusInAPongIsFatal : Obligations.ATransportStatusInAPongIsFatal := by
  intro s h call bs chunks a left first inHand hi hr hc hw hfirst hb hrx ha hfew k answer
  simp only [first, length_octets] at hfirst hb
  have hk : terr s.env.cancelFired (answerStatus a) = k := by cases a <;> rfl
  have hanswer : answerStatus a = answer := by cases a <;> rfl
  obtain ⟨m, u, pre, rest, reads, hrun, hd, hreads, hrest, hu, hend⟩ := exec_pong_reaches hi hr hc hw hfirst hb hrx
  have hmore : u.r.MORE + pre.length = h.len.length := hd.taken.more
  have hlen : inHand.length = pre.length + rest.length := by rw [← List.length_append, ← hrest]
  obtain ⟨hI, hleft, rfl⟩ := hend.resolve_left (by omega)
  rw [List.append_nil] at hrest
  have hreceived := hd.received_chunks hrx hleft
  have hcfg : u.cfg = s.cfg := hd.taken.cfg
  have hcancel : u.env.cancelFired = s.env.cancelFired := hd.taken.cancelFired
  obtain ⟨rbuf, st, start, hfatal⟩ := runControl_skip_refused (call := call) m hd.cursors (hcfg ▸ hi.size)
    hd.taken.reader (by omega) hI hleft ha
  rw [hcancel, hk, hcfg] at hfatal
  refine ⟨_, reads, hrun.trans hfatal, ?_, hreceived, hreads⟩
  subst hrest
  obtain ⟨rbuf', st', ix', en', start', rx', rfl⟩ := hd.frame (Nat.eq_sub_of_add_eq hmore)
  rw [← hanswer]
  rfl

end Sys2Proof.Machine

/-! ## A Close ends the stream (43_frame_reader.md R169, R176) -/

namespace Sys2Proof.Machine

variable {s t u : State} {call : HeaderCall} {want : Nat} {out : List Byte} {scratch : Memory}

/-- `s` in `processClose`, `out` of the `want` octets obtained and in `CBUF`. -/
def State.closing (s : State) (call : HeaderCall) (want : Nat) (scratch : Memory) (out : List Byte) : State :=
  s.placed (.header call (.close want out.length)) (scratch.writeBytes 0 out)

/-! ### How `processClose` ends -/

/-- The octets obtained are parsed, and what they say closes the reader. -/
theorem endClose_closing :
    endClose call out.length (s.closing call want scratch out) =
      .go (takeFatal call (closeStatusOf out) (s.closing call want scratch out)) := by
  have hread : (s.closing call want scratch out).r.CBUF.readBytes 0 out.length = some out :=
    readBytes_writeBytes_self _ _ _
  simp only [endClose, hread]

theorem controlMove_closing : controlMove (s.closing call want scratch out) =
    closeMove call want out.length (s.closing call want scratch out) := rfl

theorem deliverTurn_closing (got : Nat) : deliverTurn want got (s.closing call want scratch out) =
    (deliverTurn want got s).map (State.closing · call want scratch out) :=
  deliverTurn_placed want got s

theorem runControl_close_full (m : Nat) (hfull : want ≤ out.length) :
    runControl (m + 1) (s.closing call want scratch out) =
      .next (takeFatal call (closeStatusOf out) (s.closing call want scratch out)) := by
  have hmove : controlMove (s.closing call want scratch out) =
      .go (takeFatal call (closeStatusOf out) (s.closing call want scratch out)) := by
    rw [controlMove_closing, closeMove, deliverTurn, if_pos hfull]
    exact endClose_closing
  exact (runControl_go hmove).trans (runControl_idle m rfl)

theorem runControl_close_ended {st : Status} (m : Nat) (hd : deliverTurn want out.length s = .ended st t) :
    runControl (m + 1) (s.closing call want scratch out) =
      .next (takeFatal call (if st = .ok then closeStatusOf out else st) (t.closing call want scratch out)) := by
  have hmove : controlMove (s.closing call want scratch out) =
      .go (takeFatal call (if st = .ok then closeStatusOf out else st) (t.closing call want scratch out)) := by
    rw [controlMove_closing, closeMove, deliverTurn_closing, hd]
    simp only [Delivery.map]
    split
    · exact endClose_closing
    · rfl
  exact (runControl_go hmove).trans (runControl_idle m rfl)

theorem runControl_close_waiting (m : Nat) (hd : deliverTurn want out.length s = .waiting t) :
    runControl (m + 1) (s.closing call want scratch out) = .next (t.closing call want scratch out) := by
  refine runControl_wait ?_
  rw [controlMove_closing, closeMove, deliverTurn_closing, hd]
  rfl

/-! ### What the octets say (30_encoding.md R95) -/

theorem beNat_pair (a b : Byte) : beNat [a, b] = a.toNat * 256 + b.toNat := by
  simp only [beNat, List.length_cons, List.length_nil]
  omega

/-- The status a Close ends with when the transport answers `rs` before its octets are there: the octets obtained are
parsed where the status is swallowed (43_frame_reader.md R173, R176). -/
def closeEnd (cancelFired : Bool) (payload : List Byte) (rs : ReadStatus) : Status :=
  if eofRule cancelFired payload.length rs = .ok then closeStatusOf payload else eofRule cancelFired payload.length rs

theorem closeEnd_eof (cancelFired : Bool) (payload : List Byte) :
    closeEnd cancelFired payload .eof = if 0 < payload.length then closeStatusOf payload else .endOfStream := by
  rw [closeEnd, eofRule_eof]
  by_cases h : 0 < payload.length
  · simp only [if_pos h, if_true]
  · simp only [if_neg h, reduceCtorEq, if_false]

theorem closeEnd_timeout (cancelFired : Bool) (payload : List Byte) :
    closeEnd cancelFired payload .timeout = if cancelFired then .cancelled else .transport .timeout := by
  cases cancelFired <;> rfl

/-! ### The frame -/

theorem latch_maskOffset (op : BitVec 4) (h : Head) (s : State) : maskOffset (latch op h s).r = 0 := by
  simp only [maskOffset, latch_r, Int.sub_self, Int.toNat_zero]

/-- `CLOSE` latches its header and delivers at most 128 octets to `CBUF` (R176). -/
theorem exec_close_delivers (h : Head) (hr : s.reader = .header call .fetch) (hc : call ≠ .rawFrameHeader) :
    exec (.close h) s = runControl (4 * (s.r.END + readyOctets s.env.rx) + 8)
      ((latch 8 h s).closing call (min 128 h.len.length) s.r.CBUF []) :=
  controlFrame_run hr hc

/-- A payload whole in the buffer is delivered in one turn. -/
theorem DeliveryLoop.buffered {run : Nat → List Byte → State → Outcome} (loop : DeliveryLoop want run) {bs : List Byte}
    (n : Nat) (hle : s.r.I + want ≤ s.r.END) (hb : s.r.RBUF.readBytes s.r.I want = some bs) :
    ∃ m, run (n + 2) [] s = run (m + 1) (mask bs s.r.KEY (maskOffset s.r)) (s.passed want) := by
  have hlen := readBytes_length hb
  obtain rfl | hw := Nat.eq_zero_or_pos want
  · rw [List.eq_nil_of_length_eq_zero hlen]
    exact ⟨n + 1, rfl⟩
  · refine ⟨n, loop.octets ?_⟩
    rw [List.length_nil, deliverTurn, if_neg (by omega), if_pos (by omega)]
    simp only [Nat.sub_zero, show min want (s.r.END - s.r.I) = want by omega, hb]
    rfl

section
variable {h : Head} {bs : List Byte} {chunks : List (List Byte)} {tail : List RxAnswer} (hi : s.Inv)
  (hr : s.reader = .header call .fetch) (hc : call ≠ .rawFrameHeader) (hw : h.wellFormed = true)
  (hfirst : s.r.ST + headSize h ≤ s.r.END)
  (hb : s.r.RBUF.readBytes (s.r.ST + headSize h) (s.r.END - (s.r.ST + headSize h)) = some bs)
  (hrx : s.env.rx = chunks.map .data ++ tail)
include hi hr hc hw hfirst hb hrx

/-- A Close with enough octets in hand closes the reader with what they say. -/
theorem exec_close_fills (henough : min 128 h.len.length ≤ (bs ++ chunks.flatten).length) :
    let k := min 128 h.len.length
    let payload := mask ((bs ++ chunks.flatten).take k) (headKey h) 0
    ∃ u reads, exec (.close h) s =
        .next (takeFatal call (closeStatusOf payload) (u.closing call k s.r.CBUF payload)) ∧
      Delivers tail k (latch 8 h s) u ((bs ++ chunks.flatten).take k) reads ∧ u.r.MORE = h.len.length - k ∧
      unread u = (bs ++ chunks.flatten).drop k ++ rxStream tail := by
  intro k payload
  have hi0 : CursorInv (latch 8 h s) := latch_cursorInv hi.cursors hfirst (headLength_le hw)
  obtain ⟨m, u, reads, hrun, hd, hrest⟩ := (closeLoop call k s.r.CBUF).fills hi0 hi.size (Nat.min_le_right _ _)
    ⟨chunks, hrx⟩ (work_lt_moveBound hi0) (latch_unread (op := 8) hb hrx) henough
  have hfull : ((bs ++ chunks.flatten).take k).length = k := List.length_take_of_le henough
  have hmore : u.r.MORE + ((bs ++ chunks.flatten).take k).length = h.len.length := hd.drawn.taken.more
  rw [latch_maskOffset] at hrun
  exact ⟨u, reads, ((exec_close_delivers h hr hc).trans hrun).trans
    (runControl_close_full m (by rw [length_mask, hfull])), hd, by omega, hrest⟩

/-- A Close with fewer octets in hand than it reads takes them all, and stands with nothing buffered before the rest of
the transport's answers. -/
theorem exec_close_dries (hfew : (bs ++ chunks.flatten).length < min 128 h.len.length) :
    let k := min 128 h.len.length
    let payload := mask (bs ++ chunks.flatten) (headKey h) 0
    ∃ m u reads, exec (.close h) s = runControl (m + 1) (u.closing call k s.r.CBUF payload) ∧
      Delivers tail k (latch 8 h s) u (bs ++ chunks.flatten) reads ∧
      u.r.MORE = h.len.length - (bs ++ chunks.flatten).length ∧ u.r.I = u.r.END ∧ u.env.rx = tail ∧
      receivedOctets reads = chunks.flatten := by
  intro k payload
  have hi0 : CursorInv (latch 8 h s) := latch_cursorInv hi.cursors hfirst (headLength_le hw)
  obtain ⟨m, u, reads, hrun, hd, hI, htail⟩ := (closeLoop call k s.r.CBUF).dries hi0 hi.size (Nat.min_le_right _ _)
    ⟨chunks, hrx⟩ (work_lt_moveBound hi0) (latch_unread (op := 8) hb hrx) hfew
  rw [latch_maskOffset] at hrun
  exact ⟨m, u, reads, (exec_close_delivers h hr hc).trans hrun, hd, Nat.eq_sub_of_add_eq hd.drawn.taken.more, hI,
    htail, hd.drawn.received_chunks hrx htail⟩

end

/-- Settles O42: the delivery to `CBUF` has all it wants, buffered or in chunks, or meets a status, or waits. -/
theorem aCloseFrameEndsTheStream : Obligations.ACloseFrameEndsTheStream := by
  unfold Obligations.ACloseFrameEndsTheStream
  intro verdict
  have hverdict : ∀ payload, closeStatusOf payload = verdict payload := by
    intro payload
    match payload with
    | [] => rfl
    | [_] => rfl
    | [a, b] => simp only [closeStatusOf, true_and, beNat_pair]; rfl
    | a :: b :: c :: reason => simp only [closeStatusOf, reduceCtorEq, false_and, if_false]; rfl
  constructor
  · intro s h call bs first k hr hc hle hb payload
    simp only [first, length_octets] at hle hb ⊢
    obtain ⟨m, hrun⟩ := (closeLoop call k s.r.CBUF).buffered (s := latch 8 h s)
      (4 * (s.r.END + readyOctets s.env.rx) + 6) hle hb
    rw [latch_maskOffset] at hrun
    have hlen : k ≤ payload.length := by rw [length_mask, readBytes_length hb]
    rw [exec_close_delivers h hr hc, ← hverdict]
    exact hrun.trans (runControl_close_full m hlen)
  intro s h call bs chunks tail first k key inHand hi hr hc hw hfirst hb hrx
  simp only [first, length_octets] at hfirst hb
  have hbuffered : bs.length = (latch 8 h s).r.END - (latch 8 h s).r.I := readBytes_length hb
  refine ⟨?_, ?_, ?_⟩
  · intro henough payload
    obtain ⟨u, reads, hexec, hd, hmore, hrest⟩ := exec_close_fills hi hr hc hw hfirst hb hrx henough
    refine ⟨_, reads, hexec, ?_, hrest, hbuffered ▸ hd.reads⟩
    obtain ⟨rbuf, st, ix, en, start, rx, rfl⟩ := hd.drawn.frame hmore
    rw [← hverdict]
    rfl
  · intro a left hfew htail ha payload status answer wanted
    obtain ⟨m, u, reads, hexec, hd, hmore, hI, hleft, hreceived⟩ :=
      exec_close_dries hi hr hc hw hfirst hb hrx hfew
    have hanswer : answerStatus a = answer := by cases a <;> rfl
    have hcfg : u.cfg = s.cfg := hd.drawn.taken.cfg
    have hcancel : u.env.cancelFired = s.env.cancelFired := hd.drawn.taken.cancelFired
    have hstatus : closeEnd s.env.cancelFired payload (answerStatus a) = status := by
      cases a with
      | data d => exact absurd rfl (ha d)
      | eof => rw [answerStatus, closeEnd_eof, hverdict, length_mask]
      | timeout => exact closeEnd_timeout _ _
      | err e => rfl
    obtain ⟨rbuf, st, ix, start, -, -, hturn⟩ := deliverTurn_dry (want := k) hd.drawn.cursors (hcfg ▸ hi.size)
      (show payload.length < k by rw [length_mask]; exact hfew) hI
    have hended := runControl_close_ended (call := call) (scratch := s.r.CBUF) m
      (hturn a left (hleft.trans htail) ha)
    rw [hcancel, ← closeEnd, hstatus, hcfg, length_mask] at hended
    refine ⟨_, reads, hexec.trans hended, ?_, hreceived, hbuffered ▸ hd.reads⟩
    obtain ⟨rbuf', st', ix', en', start', rx', rfl⟩ := hd.drawn.frame hmore
    rw [← hanswer]
    rfl
  · intro hfew htail
    obtain ⟨m, u, reads, hexec, hd, hmore, hI, hleft, hreceived⟩ :=
      exec_close_dries hi hr hc hw hfirst hb hrx hfew
    have hcfg : u.cfg = s.cfg := hd.drawn.taken.cfg
    obtain ⟨rbuf, st, ix, start, -, hwait, -⟩ := deliverTurn_dry (want := k)
      (got := (mask inHand key 0).length) hd.drawn.cursors (hcfg ▸ hi.size) (by rw [length_mask]; exact hfew) hI
    have hwaits := runControl_close_waiting (call := call) (scratch := s.r.CBUF) m (hwait (hleft.trans htail))
    refine ⟨_, reads, hexec.trans hwaits, ?_, hreceived, hbuffered ▸ hd.reads⟩
    obtain ⟨rbuf', st', ix', en', start', rx', rfl⟩ := hd.drawn.frame hmore
    obtain rfl : rx' = [] := hleft.trans htail
    rw [← length_mask inHand key 0]
    rfl

end Sys2Proof.Machine

/-! ## A payload that is refused (44_frame_writer.md R200; 45_facade.md R237) -/

namespace Sys2Proof.Machine

variable {s : State} {payload : List Byte}

/-- A payload over 2^62 - 1 octets, or over `WBUF_CAP` less 14, is refused. -/
theorem payloadRefused_of_overlong {cfg : Config}
    (h : payload.length > 2 ^ 62 - 1 ∨ ∃ cap, cfg.wbufCap = some cap ∧ 14 + payload.length > cap) :
    payloadRefused cfg payload = true := by
  unfold payloadRefused
  obtain hlen | ⟨cap, hcap, hlen⟩ := h
  · rw [decide_eq_true (show payload.length > maxLen by simp only [maxLen]; omega), Bool.true_or]
  · simp only [hcap, decide_eq_true hlen, Bool.or_true]

/-- A refused payload is answered before `WLOCK` is asked for. -/
theorem writeCommand_refused {i : Instr} {call : WriteCall} {op : BitVec 4} {final : Bool}
    (h : payloadRefused s.cfg payload = true) :
    writeCommand i call payload op final s = .next (respond (writeCallCode call) (.written 0 .misuse) s) := by
  rw [writeCommand, if_pos h]

/-- Settles O57: both commands look at the payload before the lock. -/
theorem overlongPayloadsAreRefused : Obligations.OverlongPayloadsAreRefused := by
  intro s payload op final h
  have hp := payloadRefused_of_overlong h
  exact ⟨writeCommand_refused hp, writeCommand_refused hp⟩

end Sys2Proof.Machine

/-! ## A frame composed in either role (44_frame_writer.md R201, R202) -/

namespace Sys2Proof.Machine

variable {s : State} {payload body : List Byte} {key : Key} {masked : Bool} {env : Inputs}
  {P Q : Bool → Key → List Byte → Inputs → Prop}

/-- `P` of the MASK bit, the key and the octets behind the header that a frame for `payload` gets, and of the inputs its
composition leaves: a server's frame is in clear, a client's is masked with the first draw at hand, or with some key
when there is none (log entry 8). -/
def InEitherRole (s : State) (payload : List Byte) (P : Bool → Key → List Byte → Inputs → Prop) : Prop :=
  (s.cfg.role = .server → P false Key.zero payload s.env) ∧
  (∀ key keys, s.cfg.role = .client → s.env.rand = key :: keys →
    P true key (mask payload key 0) { s.env with rand := keys }) ∧
  (s.cfg.role = .client → s.env.rand = [] → ∃ key,
    P true key (mask payload key 0) { s.env with draws := s.env.draws + 1 })

theorem InEitherRole.imp (h : InEitherRole s payload P) (himp : ∀ masked key body env,
    P masked key body env → Q masked key body env) : InEitherRole s payload Q := by
  obtain ⟨hserver, hdraw, hfree⟩ := h
  exact ⟨fun hr => himp _ _ _ _ (hserver hr), fun key keys hr hk => himp _ _ _ _ (hdraw key keys hr hk),
    fun hr hk => (hfree hr hk).imp fun key => himp _ _ _ _⟩

/-- `composeFrame` puts `body` behind a header with this MASK bit and key, whatever the opcode and FIN, and leaves the
inputs `env`. -/
structure Composes (s : State) (payload : List Byte) (masked : Bool) (key : Key) (body : List Byte) (env : Inputs) :
    Prop where
  eq : ∀ op final, let h := encodeHeader op final masked key payload.length
    composeFrame payload op final s = (h.length, s.withFrame h body payload.length env)
  length : body.length = payload.length
  tx : env.tx = s.env.tx

theorem composes (s : State) (payload : List Byte) : InEitherRole s payload (Composes s payload) := by
  refine ⟨fun hr => ?_, fun key keys hr hk => ?_, fun hr hk => ⟨Config.freeKey s.env.draws, ?_⟩⟩
  · exact ⟨fun _ _ => composeFrame_server hr, rfl, rfl⟩
  · exact ⟨fun _ _ => composeFrame_client hr (rand4_cons hk), length_mask _ _ _, rfl⟩
  · exact ⟨fun _ _ => composeFrame_client hr (rand4_nil hk), length_mask _ _ _, rfl⟩

/-- The frame stands in `WBUF[0..WLEN)`. -/
theorem readBytes_withFrame {h : List Byte} {len : Nat} (hbody : body.length = len) :
    (s.withFrame h body len env).w.WBUF.readBytes 0 (s.withFrame h body len env).w.WLEN = some (h ++ body) :=
  readBytes_writeBytes_length (n := h.length + len) (by rw [List.length_append, hbody])

end Sys2Proof.Machine

/-! ## A frame that is sent (44_frame_writer.md R201, R203, R204, R209, R210) -/

namespace Sys2Proof.Machine

variable {s : State} {payload body frame : List Byte} {key : Key} {masked : Bool} {env : Inputs} {a : TxAnswer}
  {left : List TxAnswer} {call : WriteCall} {op : BitVec 4} {final : Bool}

/-- `frame` was composed in `WBUF` with the inputs `env` left, its `TWrite` was answered by `n` octets accepted and the
status `ts`, and `WLEN` is 0. -/
def State.wrote (s : State) (frame : List Byte) (n : Nat) (ts : SendStatus) (left : List TxAnswer) (env : Inputs) :
    State :=
  { s with
    w := { s.w with WBUF := s.w.WBUF.writeBytes 0 frame, WLEN := 0 }
    env := { env with tx := left }
    trace := .write frame n ts :: s.trace }

/-- The end of a W-port command frees the writer and `WLOCK`, whatever they were. -/
theorem endSend_release (hs len tn : Nat) (ts : SendStatus) (lock : Option Agent) (place : WUnit) :
    endSend call hs len tn ts { s with WLOCK := lock, writer := place } = endSend call hs len tn ts s := by
  cases call with
  | writeFrame => rfl
  | write => rfl
  | closeWriter => rfl
  | closeConn =>
    simp only [endSend, closeTransport, tClose]
    split
    · rfl
    · cases s.env.closes <;> rfl

theorem endWrite_free (hl : s.WLOCK = none) (code : Byte) (result : Result) :
    endWrite code result s = respond code result { s with writer := .idle } := by
  rw [endWrite, ← hl]

/-- With an answer at hand a frame just composed is written, and its command ends. -/
theorem sendFrame_answered (hc : Composes s payload masked key body env) (htx : s.env.tx = a :: left) :
    let h := encodeHeader op final masked key payload.length
    let tn := min a.accept (h.length + payload.length)
    sendFrame call payload op final s =
      .next (endSend call h.length payload.length tn a.status (s.wrote (h ++ body) tn a.status left env)) := by
  intro h tn
  have hturn := writerTurn_answered (s := s.inTWrite call h body payload.length env) (pick := 0) rfl
    (readBytes_withFrame (env := env) hc.length) (hc.tx.trans htx)
  simp only [State.afterWrite, List.length_append, hc.length] at hturn
  simp only [sendFrame, hc.eq op final]
  exact hturn.trans (congrArg _ (endSend_release (s := s.wrote (h ++ body) tn a.status left env) _ _ _ _
    (some .writer) (.sending call h.length payload.length)))

/-! ### `WRITE_FRAME` and `WRITE` -/

/-- Both commands send their frame and report what was accepted of it (44_frame_writer.md R203), in either role. -/
theorem exec_write_answered (hl : s.WLOCK = none) (hp : payloadRefused s.cfg payload = false)
    (htx : s.env.tx = a :: left) (op : BitVec 4) (final : Bool) :
    InEitherRole s payload fun masked key body env =>
      let sent := fun (code : Byte) (op : BitVec 4) (final : Bool) =>
        let h := encodeHeader op final masked key payload.length
        let size := h.length + payload.length
        let tn := min a.accept size
        Host.Outcome.next (φ := Fault) (ρ := Refusal)
          (respond code (.written (tn - h.length) (writeStatus a.status tn size))
            { s.wrote (h ++ body) tn a.status left env with writer := .idle })
      exec (.writeFrame payload op final) s = sent 0x10 op final ∧ exec (.write payload) s = sent 0x11 2 true := by
  refine (composes s payload).imp fun masked key body env hc => ⟨?_, ?_⟩
  · rw [exec, execWriteFrame, writeCommand_free hl hp, sendFrame_answered hc htx]
    exact congrArg _ (endWrite_free (s := s.wrote _ _ _ _ _) hl _ _)
  · rw [exec, execWrite, writeCommand_free hl hp, sendFrame_answered hc htx]
    exact congrArg _ (endWrite_free (s := s.wrote _ _ _ _ _) hl _ _)

/-- Settles O55: the server's case of `exec_write_answered`. -/
theorem aServerSendsItsFrameInOneWrite : Obligations.AServerSendsItsFrameInOneWrite := by
  intro s payload op final a left hlen hcap hl hr htx sent
  obtain ⟨hserver, -, -⟩ := exec_write_answered hl (payloadRefused_eq_false hlen hcap) htx op final
  exact hserver hr

/-- Settles O56: the client's two cases of `exec_write_answered`. -/
theorem aClientSendsItsFrameMasked : Obligations.AClientSendsItsFrameMasked := by
  intro s payload op final a left hlen hcap hl hr htx sent
  obtain ⟨-, hdraw, hfree⟩ := exec_write_answered hl (payloadRefused_eq_false hlen hcap) htx op final
  exact ⟨fun key keys hk => hdraw key keys hr hk, fun hk => hfree hr hk⟩

/-! ### `CLOSE_WRITER` -/

/-- A header of a payload of at most 125 octets: two octets, and the key's iff masked (30_encoding.md R91, R103). -/
theorem encodeHeader_short {n : Nat} (hn : n ≤ 125) (op : BitVec 4) (final masked : Bool) (key : Key) :
    encodeHeader op final masked key n = BitVec.ofNat 8 (final.toNat * 128 + op.toNat) ::
      BitVec.ofNat 8 (masked.toNat * 128 + n) :: if masked then key.octets else [] := by
  rw [encodeHeader_eq_octets, Head.octets, encodedHead_keyOctets, encodedHead_key_isSome]
  simp only [encodedHead]
  rw [octet0_eq_ofNat, octet1_eq_ofNat, minimalLen_toNat_len7, if_pos hn, minimalLen_ext (by simp only [maxLen]; omega),
    if_pos hn]
  rfl

/-- With `WLOCK` free and an answer at hand `CLOSE_WRITER` sends its frame, in either role. -/
theorem exec_closeWriter_answered (hl : s.WLOCK = none) (hw : s.w.WCLOSED = false) (htx : s.env.tx = a :: left)
    (status : BitVec 16) :
    InEitherRole s.closingWriter (be16 (closeCode status)) fun masked key body env =>
      let h := encodeHeader 8 true masked key 2
      let tn := min a.accept (h.length + 2)
      exec (.closeWriter status) s =
        .next (respond 0x12 (.status (writeStatus a.status tn (h.length + 2)))
          { s.closingWriter.wrote (h ++ body) tn a.status left env with writer := .idle }) := by
  refine (composes s.closingWriter (be16 (closeCode status))).imp fun masked key body env hc => ?_
  rw [exec, execCloseWriter, acquireWrite_free hl, if_neg (Bool.eq_false_iff.mp hw)]
  refine (sendFrame_answered (s := s.closingWriter) hc htx).trans ?_
  exact congrArg _ (endWrite_free (s := s.closingWriter.wrote _ _ _ _ _) hl _ _)

/-- Settles O59: nothing is sent once `WCLOSED` is set; else the frame's octets are those of its encoding. -/
theorem closeWriterSendsOneCloseFrame : Obligations.CloseWriterSendsOneCloseFrame := by
  intro s status hl
  refine ⟨fun hw => ?_, fun a left hw htx => ?_⟩
  · rw [exec, execCloseWriter, acquireWrite_free hl, if_pos hw]
    rfl
  · intro code body sent
    have h := exec_closeWriter_answered hl hw htx status
    rw [be16_eq_mod] at h
    simp only [encodeHeader_short (show 2 ≤ 125 by decide)] at h
    exact h

/-! ### `CLOSE_CONN` -/

/-- With `WLOCK` free and an answer at hand `CLOSE_CONN` sends its frame and goes on to close the transport. -/
theorem exec_closeConn_answered (hl : s.WLOCK = none) (hw : s.w.WCLOSED = false) (htx : s.env.tx = a :: left) :
    InEitherRole s.closingWriter [] fun masked key body env =>
      let frame := encodeHeader 8 true masked key 0 ++ body
      exec .closeConn s =
        .next (closeTransport (s.closingWriter.wrote frame (min a.accept frame.length) a.status left env)) := by
  refine (composes s.closingWriter []).imp fun masked key body env hc => ?_
  rw [exec, execCloseConn, acquireWrite_free hl, if_neg (Bool.eq_false_iff.mp hw)]
  simp only [List.length_append, hc.length]
  exact sendFrame_answered (s := s.closingWriter) hc htx

/-- Settles O60: `TClose` is made at most once, after the frame is written or with none to write. -/
theorem closeConnClosesTheTransportOnce : Obligations.CloseConnClosesTheTransportOnce := by
  intro s hl ended closing
  have hclosing : ∀ u : State, u.WLOCK = none → closing u (.next (closeTransport u)) := by
    intro u hu
    refine ⟨fun ht => ?_, fun c cs ht hc => ?_, fun ht hc => ?_⟩
    · rw [closeTransport_closed ht, endWrite_free hu]
      rfl
    · rw [closeTransport_cons ht hc, endWrite_free (s := u.afterClose c _) hu]
      rfl
    · obtain ⟨c, h⟩ := closeTransport_nil ht hc
      rw [h, endWrite_free (s := u.afterClose c _) hu]
      exact ⟨c, rfl⟩
  refine ⟨fun hw => ?_, fun a left hw htx => ?_⟩
  · rw [exec, execCloseConn, acquireWrite_free hl, if_pos hw]
    exact hclosing s hl
  · intro sent
    have h := (exec_closeConn_answered hl hw htx).imp (Q := fun masked key body env =>
      closing (sent (encodeHeader 8 true masked key 0 ++ body) { env with tx := left }) (exec .closeConn s))
      fun masked key body env h => by rw [h]; exact hclosing (sent _ _) hl
    simp only [encodeHeader_short (Nat.zero_le 125)] at h
    exact h

end Sys2Proof.Machine

/-! ## A Ping whole in `RBUF` (44_frame_writer.md R205 to R208) -/

namespace Sys2Proof.Machine

variable {s t : State} {h : Head} {call : HeaderCall} {body frame : List Byte} {key : Key} {masked : Bool}
  {env : Inputs} {a : TxAnswer} {left : List TxAnswer} {mode : PongMode}

/-- The Ping of header `h` is latched and in hand. -/
def State.pinging (s : State) (h : Head) (call : HeaderCall) : State :=
  { latch 9 h s with reader := .header call .ping }

/-- The octets of a Ping, header and payload. -/
def pingSize (h : Head) : Nat := headSize h + headLength h

theorem length_ping (h : Head) : (h.octets 9).length + h.len.length = pingSize h := by
  rw [length_octets]
  rfl

theorem frameEnd_pinging : frameEnd (s.pinging h call).r = s.r.ST + pingSize h := Nat.add_assoc _ _ _

/-- `PING` latches its header and takes the Ping in hand (R167). -/
theorem exec_ping_run (hr : s.reader = .header call .fetch) (hc : call ≠ .rawFrameHeader) :
    exec (.ping h) s = runControl (moveBound s) (s.pinging h call) :=
  controlFrame_run hr hc

theorem controlMove_pinging : controlMove (s.pinging h call) = pingMove call (s.pinging h call) := rfl

/-- Settles O47: the first move of the Ping in hand compares its size with the buffer's. -/
theorem aPingThatCannotFitPanics : Obligations.APingThatCannotFitPanics := by
  intro s h call hr hc hlarge
  have hsize : frameEnd (s.pinging h call).r - s.r.ST > s.cfg.rbufSize := by
    rw [frameEnd_pinging, Nat.add_sub_cancel_left, ← length_ping]
    exact hlarge
  rw [exec_ping_run hr hc, moveBound_eq]
  exact runControl_halt (controlMove_pinging.trans (if_pos hsize))

/-- A Ping whole in `RBUF` goes on to its Pong. -/
theorem pingMove_whole (hfits : pingSize h ≤ s.cfg.rbufSize) (hwhole : s.r.ST + pingSize h ≤ s.r.END) :
    pingMove call (s.pinging h call) = pongCompose call (s.pinging h call) := by
  have hfits' : ¬ s.r.ST + pingSize h - s.r.ST > s.cfg.rbufSize := by omega
  unfold pingMove
  rw [frameEnd_pinging]
  exact (if_neg hfits').trans (if_neg (Nat.not_lt.mpr hwhole))

/-- The Pong composed, `PING` stands before its `TWrite`. -/
theorem exec_ping_composed (hr : s.reader = .header call .fetch) (hc : call ≠ .rawFrameHeader)
    (hfits : pingSize h ≤ s.cfg.rbufSize) (hwhole : s.r.ST + pingSize h ≤ s.r.END)
    (hpong : pongCompose call (s.pinging h call) = .go t) : ∃ n, exec (.ping h) s = runControl (n + 1) t := by
  refine ⟨4 * (s.r.END + readyOctets s.env.rx) + 6, ?_⟩
  rw [exec_ping_run hr hc, moveBound_eq]
  exact runControl_go (controlMove_pinging.trans ((pingMove_whole hfits hwhole).trans hpong))

/-! ### The Pong's `TWrite` (R206 to R208) -/

/-- `n` octets of the Pong `frame` were accepted, with the status `ts`, and `WLOCK` is free again. -/
def State.pongWritten (s : State) (mode : PongMode) (frame : List Byte) (n : Nat) (ts : SendStatus)
    (left : List TxAnswer) : State :=
  { s with
    w := afterPong mode s.w
    WLOCK := none
    env := { s.env with tx := left }
    trace := .write frame n ts :: s.trace }

/-- A Pong taken whole: the cursor passes the Ping, and the next header is fetched. -/
theorem runControl_pong_sent (n : Nat) (hf : pongFrame s = some frame) (hr : s.reader = .header call .pongWrite)
    (hm : s.cfg.pongMode = mode) (htx : s.env.tx = a :: left) (hok : a.status = .ok)
    (hall : frame.length ≤ a.accept) :
    runControl (n + 1) s = .next (beginFetch call { s.pongWritten mode frame frame.length .ok left with
      r := { s.r with I := frameEnd s.r, MORE := 0 } }) := by
  have hst : writeStatus .ok frame.length frame.length = .ok := by rw [writeStatus, if_neg (Nat.lt_irrefl _)]
  have hmove : controlMove s = .go (beginFetch call { s.pongWritten mode frame frame.length .ok left with
      r := { s.r with I := frameEnd s.r, MORE := 0 } }) := by
    simp only [controlMove, hr, pongMove, hf, tWrite_cons htx, hok, Nat.min_eq_right hall, if_pos hst, hm]
    rfl
  exact (runControl_go hmove).trans (runControl_fetch n rfl)

/-- The status of a write that did not take its whole frame (44_frame_writer.md R203). -/
def failedWrite : SendStatus → Status
  | .err e => .transport (.other e)
  | .ok => .shortWrite

theorem writeStatus_failed {ts : SendStatus} {accept size : Nat} (hfail : ts ≠ .ok ∨ accept < size) :
    writeStatus ts (min accept size) size = failedWrite ts := by
  cases ts with
  | err e => rfl
  | ok => rw [writeStatus, if_pos (by have := hfail.resolve_left (not_not.mpr rfl); omega), failedWrite]

/-- A Pong that is refused or cut short closes the reader. -/
theorem runControl_pong_failed (n : Nat) (hf : pongFrame s = some frame) (hr : s.reader = .header call .pongWrite)
    (hm : s.cfg.pongMode = mode) (htx : s.env.tx = a :: left)
    (hfail : a.status ≠ .ok ∨ a.accept < frame.length) :
    runControl (n + 1) s = .next (takeFatal call (failedWrite a.status)
      (s.pongWritten mode frame (min a.accept frame.length) a.status left)) := by
  have hst : failedWrite a.status ≠ .ok := by cases a.status <;> exact nofun
  have hmove : controlMove s = .go (takeFatal call (failedWrite a.status)
      (s.pongWritten mode frame (min a.accept frame.length) a.status left)) := by
    simp only [controlMove, hr, pongMove, hf, tWrite_cons htx, writeStatus_failed hfail, if_neg hst, hm]
    rfl
  exact (runControl_go hmove).trans (runControl_idle n rfl)

/-! ### The Pong in place (R206) -/

/-- The Ping's opcode is rewritten in `RBUF`, and the slice is in `TWrite`. -/
def State.pongInPlace (s : State) (call : HeaderCall) (b : Byte) : State :=
  { s with
    r := { s.r with RBUF := s.r.RBUF.writeByte s.r.ST (pongOctet b) }
    WLOCK := some .reader
    reader := .header call .pongWrite }

theorem pongCompose_inPlace {b : Byte} (hl : s.WLOCK = none) (hm : s.cfg.pongMode = .passthrough)
    (hb : s.r.RBUF.readByte s.r.ST = some b) : pongCompose call s = .go (s.pongInPlace call b) := by
  simp only [pongCompose, hl, hm, hb]
  rfl

theorem pongFrame_passthrough (hm : s.cfg.pongMode = .passthrough) :
    pongFrame s = s.r.RBUF.readBytes s.r.ST (frameEnd s.r - s.r.ST) := by
  simp only [pongFrame, hm]

theorem frameEnd_pongInPlace (b : Byte) :
    frameEnd ((s.pinging h call).pongInPlace call b).r = s.r.ST + pingSize h := frameEnd_pinging (call := call)

/-- `PING` in `PASSTHROUGH` stands before the `TWrite` of its own octets, the first one rewritten. -/
theorem exec_ping_inPlace {b : Byte} {tail : List Byte} (hr : s.reader = .header call .fetch)
    (hc : call ≠ .rawFrameHeader) (hm : s.cfg.pongMode = .passthrough) (hl : s.WLOCK = none)
    (hfits : pingSize h ≤ s.cfg.rbufSize) (hwhole : s.r.ST + pingSize h ≤ s.r.END)
    (hb : s.r.RBUF.readBytes s.r.ST (pingSize h) = some (b :: tail)) :
    ∃ n, exec (.ping h) s = runControl (n + 1) ((s.pinging h call).pongInPlace call b) ∧
      pongFrame ((s.pinging h call).pongInPlace call b) = some (pongOctet b :: tail) := by
  obtain ⟨hframe, hbyte⟩ := readBytes_writeByte_head (c := pongOctet b) hb
  obtain ⟨n, hrun⟩ := exec_ping_composed hr hc hfits hwhole
    (pongCompose_inPlace (s := s.pinging h call) hl hm hbyte)
  refine ⟨n, hrun, (pongFrame_passthrough (s := (s.pinging h call).pongInPlace call b) hm).trans ?_⟩
  rw [frameEnd_pongInPlace, show ((s.pinging h call).pongInPlace call b).r.ST = s.r.ST from rfl,
    Nat.add_sub_cancel_left]
  exact hframe

/-- Settles O44: the Pong is composed in place and taken whole. -/
theorem aPingIsSentBackWithItsOpcodeRewritten : Obligations.APingIsSentBackWithItsOpcodeRewritten := by
  intro s h call b tail a left hs total hr hc hm hl hfits hwhole hb htx hok hall pong
  have htotal : total = pingSize h := length_ping h
  have hhs : hs = headSize h := length_octets h 9
  rw [htotal] at hfits hwhole hb hall
  have hlen : (pongOctet b :: tail).length = pingSize h := readBytes_length (bs := b :: tail) hb
  obtain ⟨n, hrun, hframe⟩ := exec_ping_inPlace hr hc hm hl hfits hwhole hb
  rw [hrun, runControl_pong_sent n hframe rfl hm htx hok (hlen.trans_le hall), State.pongWritten,
    frameEnd_pongInPlace, hlen, htotal, hhs, hr, hl]
  rfl

/-! ### The Pong afresh (R207) -/

/-- The longest header: two octets, eight of an extended length, four of the key (30_encoding.md R90, R102). -/
theorem headSize_le (h : Head) : headSize h ≤ 14 := by
  have hext : h.len.ext.length ≤ 8 := by
    cases h.len with
    | short v => exact Nat.zero_le 8
    | ext16 v => exact (length_be16 _).trans_le (by decide)
    | ext64 v => exact (length_be64 _).le
  have hkey : h.keyOctets.length ≤ 4 := by
    unfold Head.keyOctets
    cases h.key with
    | none => exact Nat.zero_le 4
    | some k => exact le_rfl
  unfold headSize
  omega

/-- A new frame stands in `WBUF`, in `TWrite`. -/
def State.pongAfresh (s : State) (call : HeaderCall) (h body : List Byte) (len : Nat) (env : Inputs) : State :=
  { s.withFrame h body len env with WLOCK := some .reader, reader := .header call .pongWrite }

theorem pongCompose_afresh {bs : List Byte} (hl : s.WLOCK = none) (hm : s.cfg.pongMode = .fresh)
    (hb : s.r.RBUF.readBytes s.r.I s.r.MORE = some bs) (hcomp : Composes s (mask bs s.r.KEY 0) masked key body env) :
    pongCompose call s =
      .go (s.pongAfresh call (encodeHeader 10 true masked key s.r.MORE) body s.r.MORE env) := by
  have hcompose := hcomp.eq 10 true
  rw [length_mask, readBytes_length hb] at hcompose
  simp only [pongCompose, hl, hm, hb, hcompose]
  rfl

theorem pongFrame_fresh (hm : s.cfg.pongMode = .fresh) : pongFrame s = s.w.WBUF.readBytes 0 s.w.WLEN := by
  simp only [pongFrame, hm]

/-- `PING` in `FRESH` stands before the `TWrite` of a frame of its payload in clear, in either role. -/
theorem exec_ping_afresh {bs : List Byte} (hr : s.reader = .header call .fetch) (hc : call ≠ .rawFrameHeader)
    (hm : s.cfg.pongMode = .fresh) (hl : s.WLOCK = none) (hfits : pingSize h ≤ s.cfg.rbufSize)
    (hwhole : s.r.ST + pingSize h ≤ s.r.END)
    (hb : s.r.RBUF.readBytes (s.r.ST + headSize h) (headLength h) = some bs) :
    InEitherRole (s.pinging h call) (mask bs (headKey h) 0) fun masked key body env =>
      let hdr := encodeHeader 10 true masked key (headLength h)
      let t := (s.pinging h call).pongAfresh call hdr body (headLength h) env
      body.length = headLength h ∧ env.tx = s.env.tx ∧
        ∃ n, exec (.ping h) s = runControl (n + 1) t ∧ pongFrame t = some (hdr ++ body) := by
  refine (composes (s.pinging h call) (mask bs (headKey h) 0)).imp fun masked key body env hcomp => ?_
  have hbody : body.length = headLength h := by rw [hcomp.length, length_mask, readBytes_length hb]
  obtain ⟨n, hrun⟩ := exec_ping_composed hr hc hfits hwhole
    (pongCompose_afresh (s := s.pinging h call) hl hm hb hcomp)
  exact ⟨hbody, hcomp.tx, n, hrun, (pongFrame_fresh (s := (s.pinging h call).pongAfresh call _ body _ env) hm).trans
    (readBytes_withFrame (s := s.pinging h call) (env := env) hbody)⟩

/-- Settles O45: the Pong is composed afresh and taken whole. -/
theorem aPingIsAnsweredWithAFreshPong : Obligations.APingIsAnsweredWithAFreshPong := by
  intro s h call bs a left hs total clear hr hc hm hl hfits hwhole hb htx hok hall sent
  have htotal : total = pingSize h := length_ping h
  have hhs : hs = headSize h := length_octets h 9
  rw [htotal] at hfits hwhole
  rw [hhs] at hb
  refine (exec_ping_afresh hr hc hm hl hfits hwhole hb).imp (Q := fun masked key body env =>
    exec (.ping h) s = sent (encodeHeader 10 true masked key h.len.length ++ body) { env with tx := left }) ?_
  rintro masked key body env ⟨hbody, htx', n, hrun, hframe⟩
  have hfit : (encodeHeader 10 true masked key (headLength h) ++ body).length ≤ a.accept := by
    have hsize := headSize_le (encodedHead true masked key (headLength h))
    rw [← length_octets _ 10] at hsize
    rw [List.length_append, hbody, encodeHeader_eq_octets]
    exact (Nat.add_le_add_right hsize _).trans ((Nat.add_comm _ _).trans_le hall)
  have hend : frameEnd (s.pinging h call).r = s.r.ST + pingSize h := frameEnd_pinging
  rw [hrun, runControl_pong_sent n hframe rfl hm (htx'.trans htx) hok hfit]
  simp only [sent]
  rw [htotal, hhs, hr, hl, ← hend]
  rfl

/-- Settles O49: the Pong is composed, in place or afresh, and the answer to its `TWrite` closes the reader. -/
theorem aFailedPongClosesTheReader : Obligations.AFailedPongClosesTheReader := by
  constructor
  · intro s h call b tail a left hs total hr hc hm hl hfits hwhole hb htx hfail pong k
    have htotal : total = pingSize h := length_ping h
    have hhs : hs = headSize h := length_octets h 9
    rw [htotal] at hfits hwhole hb hfail
    have hlen : (pongOctet b :: tail).length = pingSize h := readBytes_length (bs := b :: tail) hb
    obtain ⟨n, hrun, hframe⟩ := exec_ping_inPlace hr hc hm hl hfits hwhole hb
    rw [hrun, runControl_pong_failed n hframe rfl hm htx (hlen ▸ hfail), hlen, htotal, hhs, hl]
    rfl
  · intro s h call bs a left hs total clear hr hc hm hl hfits hwhole hb htx k fails
    have htotal : total = pingSize h := length_ping h
    have hhs : hs = headSize h := length_octets h 9
    rw [htotal] at hfits hwhole
    rw [hhs] at hb
    refine (exec_ping_afresh hr hc hm hl hfits hwhole hb).imp (Q := fun masked key body env =>
      fails (encodeHeader 10 true masked key h.len.length ++ body) { env with tx := left }) ?_
    rintro masked key body env ⟨hbody, htx', n, hrun, hframe⟩ hfail
    rw [hrun, runControl_pong_failed n hframe rfl hm (htx'.trans htx) hfail, hhs, hl]
    rfl

end Sys2Proof.Machine

/-! ## A Ping is gathered (44_frame_writer.md R205; 42_read_buffer.md R151, R155) -/

namespace Sys2Proof.Machine

variable {s t u : State} {h : Head} {call : HeaderCall} {reads reads' : List Transaction} {tail : List RxAnswer}

/-! ### The moves of the gathering -/

/-- `s` with room for `size` octets from `ST` on: the buffer is compacted from `ST` where they would pass its end. -/
def State.roomFor (s : State) (size : Nat) : State :=
  if s.r.ST + size > s.cfg.rbufSize then compactFromST s else s

/-- The compaction before the latch is the compaction after it. -/
theorem roomFor_pinging :
    (if frameEnd (s.pinging h call).r > (s.pinging h call).cfg.rbufSize then compactFromST (s.pinging h call)
      else s.pinging h call) = (s.roomFor (pingSize h)).pinging h call := by
  have hcompact : compactFromST (s.pinging h call) = (compactFromST s).pinging h call := by
    have hI : s.r.ST + headSize h - s.r.ST = 0 + headSize h := by omega
    have hstart : ((s.r.ST + headSize h : Nat) : Int) - s.r.ST = (0 + headSize h : Nat) := by omega
    simp only [State.pinging, compactFromST, latch, hI, hstart]
  rw [frameEnd_pinging, hcompact, State.roomFor, apply_ite (State.pinging · h call)]
  rfl

theorem readOnce_pinging : readOnce (s.pinging h call) =
    (readOnce s).map fun x => (x.1, x.2.1, x.2.2.pinging h call) := by
  have htRead : ∀ cap, tRead cap (s.pinging h call) =
      (tRead cap s).map fun x => (x.1, x.2.1, x.2.2.pinging h call) := fun cap => by
    have henv : (s.pinging h call).env = s.env := rfl
    simp only [tRead, henv]
    split <;> rfl
  have hcap : (s.pinging h call).cfg.rbufSize - (s.pinging h call).r.END = s.cfg.rbufSize - s.r.END := rfl
  simp only [readOnce, hcap, htRead]
  cases tRead (s.cfg.rbufSize - s.r.END) s <;> rfl

/-- What a Ping in hand does with what its `TRead` gives: it goes on, it waits in `v`, or the status is fatal (R205). -/
def gatherMove (call : HeaderCall) (cancelFired : Bool) (v : State) : Option (Nat × ReadStatus × State) → Move
  | none => .wait v
  | some (_, st, t) => if st = .ok then .go t else .go (takeFatal call (terr cancelFired st) t)

/-- A Ping not whole makes room and one `TRead`. -/
theorem controlMove_ping_short (hfits : pingSize h ≤ s.cfg.rbufSize) (hshort : s.r.END < s.r.ST + pingSize h) :
    controlMove (s.pinging h call) = gatherMove call s.env.cancelFired ((s.roomFor (pingSize h)).pinging h call)
      ((readOnce (s.roomFor (pingSize h))).map fun x => (x.1, x.2.1, x.2.2.pinging h call)) := by
  have hfits' : ¬ frameEnd (s.pinging h call).r - (s.pinging h call).r.ST > (s.pinging h call).cfg.rbufSize := by
    have hst : (s.pinging h call).r.ST = s.r.ST := rfl
    rw [frameEnd_pinging, hst, Nat.add_sub_cancel_left]
    exact Nat.not_lt.mpr hfits
  have hshort' : (s.pinging h call).r.END < frameEnd (s.pinging h call).r := by
    rw [frameEnd_pinging]
    exact hshort
  rw [controlMove_pinging, pingMove, if_neg hfits', if_pos hshort', roomFor_pinging, ← readOnce_pinging]
  rfl

/-! ### What the gathering keeps -/

/-- From `s` to `t`, by the transactions `reads`, octets joined those that stand in the buffer from the header on, and
none was taken. -/
structure Gathers (tail : List RxAnswer) (s t : State) (reads : List Transaction) : Prop where
  drawn : Drawn tail s t [] reads
  atHeader : t.r.I = t.r.ST
  grows : s.r.END - s.r.ST ≤ t.r.END - t.r.ST

theorem Gathers.trans (hg : Gathers tail s t reads) (hg' : Gathers tail t u reads') :
    Gathers tail s u (reads' ++ reads) :=
  ⟨hg.drawn.trans hg'.drawn, hg'.atHeader, hg.grows.trans hg'.grows⟩

section
variable (hi : CursorInv s) (hI : s.r.I = s.r.ST)
include hi hI

theorem roomFor_gathers (hrx : Chunked tail s) (size : Nat) : Gathers tail s (s.roomFor size) [] := by
  unfold State.roomFor
  split
  · exact ⟨⟨compactFromST_taken hi, compactFromST_cursorInv hi, rfl, hrx, fun h => ⟨rfl, h⟩⟩,
      by simp only [compactFromST_r]; omega, by simp only [compactFromST_r]; omega⟩
  · exact ⟨Drawn.refl hi hrx, hI, le_rfl⟩

/-- A read of the free room, answered with a chunk. -/
theorem readOnce_gathers {c : List Byte} {chunks : List (List Byte)}
    (hrx : s.env.rx = (c :: chunks).map .data ++ tail) :
    ∃ n t reads, readOnce s = some (n, .ok, t) ∧ Gathers tail s t reads := by
  obtain ⟨n, t, ht, hchunked⟩ := readOnce_chunk hrx
  have htaken := readOnce_taken hi ht
  have hcursors := readOnce_cursorInv hi ht
  obtain ⟨d, left, -, -, -, -, rfl⟩ := readOnce_some ht
  refine ⟨n, _, [_], ht, ⟨htaken, hcursors, rfl, hchunked, fun h => ?_⟩, hI, ?_⟩
  · exact absurd (List.map_eq_nil_iff.mp (List.append_left_eq_self.mp (hrx.symm.trans h))) (List.cons_ne_nil c chunks)
  · show s.r.END - s.r.ST ≤ s.r.END + d.length - s.r.ST
    omega

end

/-- A Ping in hand runs until it is whole, or no chunk is left. -/
theorem runControl_ping_gathers {n : Nat} (hi : CursorInv s) (hI : s.r.I = s.r.ST) (hlen : headLength h ≤ maxLen)
    (hhead : headSize h ≤ s.r.END - s.r.ST) (hfits : pingSize h ≤ s.cfg.rbufSize) (hrx : Chunked tail s)
    (hn : work (s.pinging h call) < n) :
    ∃ m u reads, runControl n (s.pinging h call) = runControl (m + 1) (u.pinging h call) ∧
      work (u.pinging h call) < m + 1 ∧ Gathers tail s u reads ∧ (s.r.ST + pingSize h ≤ s.r.END → reads = []) ∧
      (u.r.ST + pingSize h ≤ u.r.END ∨ u.r.END < u.r.ST + pingSize h ∧ u.env.rx = tail) := by
  induction n generalizing s with
  | zero => exact absurd hn (Nat.not_lt_zero _)
  | succ n ih =>
    have hstay : Gathers tail s s [] := ⟨Drawn.refl hi hrx, hI, le_rfl⟩
    by_cases hwhole : s.r.ST + pingSize h ≤ s.r.END
    · exact ⟨n, s, [], rfl, hn, hstay, fun _ => rfl, .inl hwhole⟩
    have hroom := roomFor_gathers hi hI hrx (pingSize h)
    obtain ⟨chunks, hchunks⟩ := hrx
    cases chunks with
    | nil => exact ⟨n, s, [], rfl, hn, hstay, fun _ => rfl, .inr ⟨by omega, hchunks⟩⟩
    | cons c chunks =>
      have henv : (s.roomFor (pingSize h)).env = s.env := by unfold State.roomFor; split <;> rfl
      obtain ⟨k, t, reads, hread, hg⟩ := readOnce_gathers hroom.drawn.cursors hroom.atHeader
        ((congrArg Inputs.rx henv).trans hchunks)
      have hst := hroom.trans hg
      have hgo := controlMove_ping_short (call := call) hfits (Nat.not_le.mp hwhole)
      rw [hread] at hgo
      have hworks := pingMove_works (call := call) (s := s.pinging h call)
        ((latch_cursorInv hi (by have := hi.i_le_end; omega) hlen).congr rfl rfl) rfl
      rw [← controlMove_pinging, hgo] at hworks
      have hless : work (t.pinging h call) < work (s.pinging h call) := hworks
      obtain ⟨m, u, reads', hrun, hm, hgu, -, hend⟩ := ih hst.drawn.cursors hst.atHeader (hhead.trans hst.grows)
        (by rw [hst.drawn.taken.cfg]; exact hfits) hst.drawn.chunked (by omega)
      exact ⟨m, u, _, (runControl_go hgo).trans hrun, hm, hst.trans hgu, fun h => absurd h hwhole, hend⟩

/-! ### The octets gathered -/

/-- The first octets of a slice that is read. -/
theorem readBytes_take {m : Memory} {a n k : Nat} {bs : List Byte} (hb : m.readBytes a n = some bs) (hk : k ≤ n) :
    m.readBytes a k = some (bs.take k) := by
  rw [readBytes_eq_some_iff] at hb ⊢
  obtain ⟨hlen, hbytes⟩ := hb
  refine ⟨by rw [List.length_take]; omega, fun j hj => ?_⟩
  rw [List.getElem?_take_of_lt hj]
  exact hbytes j (by omega)

/-- The state after it, field by field. -/
theorem Gathers.frame (hg : Gathers tail s t reads) :
    ∃ rbuf st en start rx, t = { s with
      r := { s.r with RBUF := rbuf, ST := st, I := st, END := en, START := start }
      env := { s.env with rx := rx }
      trace := reads ++ s.trace } := by
  have hmore : t.r.MORE = s.r.MORE := hg.drawn.taken.more
  have hI := hg.atHeader
  obtain ⟨rbuf, st, ix, en, start, rx, rfl⟩ := hg.drawn.frame hmore
  obtain rfl : ix = st := hI
  exact ⟨rbuf, ix, en, start, rx, rfl⟩

section
variable {inHand : List Byte} (hg : Gathers tail s t reads) (hu : unread s = inHand ++ rxStream tail)
include hg hu

/-- The octets in hand are those buffered, then those of the chunks that are left. -/
theorem Gathers.inHand_eq :
    ∃ (bs : List Byte) (chunks : List (List Byte)), t.r.RBUF.readBytes t.r.ST (t.r.END - t.r.ST) = some bs ∧
      t.env.rx = chunks.map .data ++ tail ∧ inHand = bs ++ chunks.flatten := by
  obtain ⟨bs, hb, -⟩ := hg.drawn.cursors.buffered
  obtain ⟨chunks, hrx⟩ := hg.drawn.chunked
  have hunread := hg.drawn.taken.unread
  rw [hu, unread, hb, hrx, rxStream_chunks, Option.getD_some, List.nil_append, ← List.append_assoc] at hunread
  exact ⟨bs, chunks, hg.atHeader ▸ hb, hrx, List.append_cancel_right hunread⟩

/-- With enough octets buffered the first of those in hand are read. -/
theorem Gathers.octets {size : Nat} (hsize : size ≤ t.r.END - t.r.ST) :
    t.r.RBUF.readBytes t.r.ST size = some (inHand.take size) := by
  obtain ⟨bs, chunks, hb, -, rfl⟩ := hg.inHand_eq hu
  rw [List.take_append_of_le_length (by rw [readBytes_length hb]; exact hsize)]
  exact readBytes_take hb hsize

/-- With no chunk left all the octets in hand are buffered. -/
theorem Gathers.dry (htail : t.env.rx = tail) : t.r.RBUF.readBytes t.r.ST (t.r.END - t.r.ST) = some inHand := by
  obtain ⟨bs, chunks, hb, hrx, rfl⟩ := hg.inHand_eq hu
  rw [List.map_eq_nil_iff.mp (List.append_left_eq_self.mp (hrx.symm.trans htail)), List.flatten_nil, List.append_nil]
  exact hb

end

/-! ### The frame -/

/-- The bound on moves is not met: more moves than the work in hand come to the same. -/
theorem runControl_enough {n n' : Nat} (hi : s.Inv) (hn : work s < n) (hn' : work s < n') :
    runControl n s = runControl n' s := by
  induction n generalizing s n' with
  | zero => exact absurd hn (Nat.not_lt_zero _)
  | succ n ih =>
    obtain ⟨n', rfl⟩ := Nat.exists_eq_succ_of_ne_zero (Nat.ne_of_gt (Nat.zero_lt_of_lt hn'))
    have hkeeps := controlMove_keeps hi
    have hworks := controlMove_works hi
    cases hm : controlMove s with
    | go t =>
      rw [hm] at hkeeps hworks
      have hless : work t < work s := hworks
      rw [runControl_go hm, runControl_go hm]
      exact ih hkeeps.inv (by omega) (by omega)
    | wait t => rw [runControl_wait hm, runControl_wait hm]
    | halt o => rw [runControl_halt hm, runControl_halt hm]

/-- The latch of a Ping keeps the invariant. -/
theorem pinging_inv (hi : s.Inv) (hr : s.reader = .header call .fetch) (hc : call ≠ .rawFrameHeader)
    (hlen : headLength h ≤ maxLen) (hhead : headSize h ≤ s.r.END - s.r.ST) : (s.pinging h call).Inv := by
  have hri := hi.reader
  simp only [ReaderInv, hr] at hri
  have hle := hi.cursors.i_le_end
  have hst := hi.cursors.st_le_i
  refine hi.of_reader rfl rfl rfl rfl (by rw [hr]; rfl) rfl rfl
    (by show s.RLOCK = _; rw [hi.rlock, hr]; rfl) ((latch_cursorInv hi.cursors (by omega) hlen).congr rfl rfl)
    ⟨hri.1, hc, ?_⟩ hi.closedBy hi.cbufWf hi.cbufSize
  show s.r.ST < s.r.ST + headSize h
  unfold headSize
  omega

section
variable (hi : s.Inv) (hr : s.reader = .header call .fetch) (hc : call ≠ .rawFrameHeader)
  (hlen : headLength h ≤ maxLen) (hhead : headSize h ≤ s.r.END - s.r.ST) (hfits : pingSize h ≤ s.cfg.rbufSize)
  (hrx : Chunked tail s)
include hi hr hc hlen hhead hfits hrx

/-- What a Ping comes to, its octets in the buffer and in chunks. -/
theorem exec_ping_gathers :
    ∃ m u reads, exec (.ping h) s = runControl (m + 1) (u.pinging h call) ∧
      work (u.pinging h call) < m + 1 ∧ Gathers tail s u reads ∧ (s.r.ST + pingSize h ≤ s.r.END → reads = []) ∧
      (u.r.ST + pingSize h ≤ u.r.END ∨ u.r.END < u.r.ST + pingSize h ∧ u.env.rx = tail) := by
  rw [exec_ping_run hr hc]
  exact runControl_ping_gathers hi.cursors (hi.atHeader hr) hlen hhead hfits hrx
    (work_lt_moveBound (pinging_inv hi hr hc hlen hhead).cursors)

variable {inHand : List Byte} (hu : unread s = inHand ++ rxStream tail)
include hu

/-- With enough octets in hand the Ping is handled as the Ping whole in `RBUF` that it then is. -/
theorem exec_ping_whole (henough : pingSize h ≤ inHand.length) :
    ∃ u reads, exec (.ping h) s = exec (.ping h) u ∧ u.Inv ∧ Gathers tail s u reads ∧
      u.r.ST + pingSize h ≤ u.r.END ∧ (s.r.ST + pingSize h ≤ s.r.END → reads = []) := by
  obtain ⟨m, u, reads, hrun, hm, hg, hnone, hend⟩ := exec_ping_gathers hi hr hc hlen hhead hfits hrx
  have hwhole : u.r.ST + pingSize h ≤ u.r.END := hend.elim id fun ⟨hshort, htail⟩ => by
    have hall := readBytes_length (hg.dry hu htail)
    have hle := hg.drawn.cursors.i_le_end
    rw [hg.atHeader] at hle
    omega
  have hreader : u.reader = .header call .fetch := hg.drawn.taken.reader.trans hr
  have hmore : u.r.MORE = s.r.MORE := hg.drawn.taken.more
  have hri := hi.reader
  simp only [ReaderInv, hr] at hri
  have hui : u.Inv := hi.of_taken hg.drawn.taken hg.drawn.cursors (by
    simp only [ReaderInv, hreader, hg.drawn.taken.RSTATE, hmore]
    exact ⟨hri.1, hri.2.1, hg.atHeader⟩)
  have hpi := pinging_inv hui hreader hc hlen (hhead.trans hg.grows)
  refine ⟨u, reads, ?_, hui, hg, hwhole, hnone⟩
  rw [hrun, exec_ping_run hreader hc]
  exact runControl_enough hpi hm (work_lt_moveBound hpi.cursors)

/-- With fewer octets in hand than the Ping's they all come to stand in the buffer, with room for the rest, before the
rest of the transport's answers. -/
theorem exec_ping_dries (hfew : inHand.length < pingSize h) :
    ∃ (m : Nat) (u v : State) (reads : List Transaction), exec (.ping h) s = runControl (m + 1) (u.pinging h call) ∧
      controlMove (u.pinging h call) = gatherMove call s.env.cancelFired (v.pinging h call)
        ((readOnce v).map fun x => (x.1, x.2.1, x.2.2.pinging h call)) ∧
      Gathers tail s v reads ∧ v.env.rx = tail ∧
      v.r.RBUF.readBytes v.r.ST (v.r.END - v.r.ST) = some inHand := by
  obtain ⟨m, u, reads, hrun, -, hg, -, hend⟩ := exec_ping_gathers hi hr hc hlen hhead hfits hrx
  have hshort : u.r.END < u.r.ST + pingSize h ∧ u.env.rx = tail := hend.resolve_left fun hwhole => by
    obtain ⟨bs, chunks, hb, -, rfl⟩ := hg.inHand_eq hu
    have hbuffered := readBytes_length hb
    rw [List.length_append] at hfew
    omega
  have hroom := roomFor_gathers hg.drawn.cursors hg.atHeader hg.drawn.chunked (pingSize h)
  have hv := hg.trans hroom
  have htail := (hroom.drawn.untouched hshort.2).2
  have hmove := controlMove_ping_short (call := call) (hg.drawn.taken.cfg.symm ▸ hfits) hshort.1
  rw [hg.drawn.taken.cancelFired] at hmove
  exact ⟨m, u, _, reads, hrun, hmove, hv, htail, hv.dry hu htail⟩

end

/-- Settles O46: the Ping is gathered, and is then whole, or waits, or meets a status. -/
theorem aPingIsGatheredBeforeItIsAnswered : Obligations.APingIsGatheredBeforeItIsAnswered := by
  intro s h call octets chunks tail hs total inHand hi hr hc hw hfits hb hhead hrx
  have hhs : hs = headSize h := length_octets h 9
  have htotal : total = pingSize h := length_ping h
  have hlen := readBytes_length hb
  rw [hhs, hlen] at hhead
  rw [htotal] at hfits
  have hu : unread s = inHand ++ rxStream tail := by
    rw [unread, hi.atHeader hr, hb, hrx, rxStream_chunks, Option.getD_some, List.append_assoc]
  refine ⟨fun henough => ?_, fun hfew htail => ?_, fun a left hfew htail ha => ?_⟩
  · rw [htotal] at henough ⊢
    obtain ⟨u, reads, hexec, hui, hg, hwhole, hnone⟩ :=
      exec_ping_whole hi hr hc (headLength_le hw) hhead hfits ⟨chunks, hrx⟩ hu henough
    have hst := hi.cursors.st_le_i
    have hend := hi.cursors.i_le_end
    refine ⟨u, reads, ?_, hui, hg.octets hu (by omega), hwhole, hg.drawn.taken.unread.symm, hg.drawn.received,
      fun hle => hnone (by omega), hexec⟩
    obtain ⟨rbuf, st, en, start, rx, rfl⟩ := hg.frame
    rfl
  · rw [htotal] at hfew
    obtain ⟨m, u, v, reads, hrun, hmove, hg, hleft, hbuf⟩ :=
      exec_ping_dries hi hr hc (headLength_le hw) hhead hfits ⟨chunks, hrx⟩ hu hfew
    rw [readOnce_none.mpr (hleft.trans htail)] at hmove
    refine ⟨v.pinging h call, reads, hrun.trans (runControl_wait hmove), ?_, hbuf,
      hg.drawn.received_chunks hrx hleft⟩
    rw [hhs]
    obtain ⟨rbuf, st, en, start, rx, rfl⟩ := hg.frame
    obtain rfl : rx = [] := hleft.trans htail
    rfl
  · intro k answer
    rw [htotal] at hfew
    have hk : terr s.env.cancelFired (answerStatus a) = k := by cases a <;> rfl
    have hanswer : answerStatus a = answer := by cases a <;> rfl
    obtain ⟨m, u, v, reads, hrun, hmove, hg, hleft, hbuf⟩ :=
      exec_ping_dries hi hr hc (headLength_le hw) hhead hfits ⟨chunks, hrx⟩ hu hfew
    rw [readOnce_refused (hleft.trans htail) ha] at hmove
    have hfatal := hmove.trans (if_neg (answerStatus_ne_ok ha))
    rw [hk] at hfatal
    refine ⟨_, reads, hrun.trans ((runControl_go hfatal).trans (runControl_idle m rfl)), ?_, hbuf,
      hg.drawn.received_chunks hrx hleft⟩
    rw [hhs, ← hanswer]
    obtain ⟨rbuf, st, en, start, rx, rfl⟩ := hg.frame
    rfl

end Sys2Proof.Machine

/-! ## A header command in the middle of a payload (45_facade.md R231, R232, R237) -/

namespace Sys2Proof.Machine

variable {s : State}

theorem headerCommand_misuse (hl : s.RLOCK = none) (hs : s.r.RSTATE ≠ .closed) (hm : s.r.MORE > 0) (i : Instr)
    (call : HeaderCall) :
    headerCommand i call s = .next (respond (headerCallCode call) (.status .misuse) s) := by
  rw [headerCommand, acquireRead_free hl, if_neg hs, if_pos hm]

/-- Settles O35: the refusal of each of the two header commands. -/
theorem headerCommandsRefuseAnUnreadPayload : Obligations.HeaderCommandsRefuseAnUnreadPayload := fun _ hl hs hm =>
  ⟨headerCommand_misuse hl hs hm .readFrameHeader .frameHeader,
    headerCommand_misuse hl hs hm .readRawFrameHeader .rawFrameHeader⟩

end Sys2Proof.Machine

/-! ## Control frames for `READ_RAW_FRAME_HEADER` (45_facade.md R232) -/

namespace Sys2Proof.Machine

variable {s : State}

theorem controlFrame_raw (hr : s.reader = .header .rawFrameHeader .fetch) (op : BitVec 4) (h : Head)
    (phase : HeaderPhase) :
    controlFrame op h phase s = .next (returnFrame .rawFrameHeader op (latch op h s)) := by
  simp only [controlFrame, hr]

/-- Settles O41: the three meanings differ in a phase that is not entered; what is returned is read off the latched
header. -/
theorem rawControlFramesAreReturned : Obligations.RawControlFramesAreReturned := by
  intro s h i op hi hr first
  obtain ⟨phase, hexec⟩ : ∃ phase, exec i s = controlFrame op h phase s := by
    simp only [List.mem_cons, Prod.mk.injEq, List.not_mem_nil, or_false] at hi
    obtain ⟨rfl, rfl⟩ | ⟨rfl, rfl⟩ | ⟨rfl, rfl⟩ := hi <;> exact ⟨_, rfl⟩
  have hfin : hdrFin (latch op h s).r.HDR = h.fin := hdrFin_bits h op
  rw [hexec, controlFrame_raw hr]
  simp only [first, length_octets, returnFrame, hfin]
  rfl

end Sys2Proof.Machine

/-! ## A header whole in the first octets (30_encoding.md R102; 40_header_codec.md R120 to R122) -/

namespace Sys2Proof

variable {buf more : List Byte} {st i len next : Nat} {bits : BitVec 16} {key : Key}

theorem parseLength_of_append (h : parseLength bits (buf ++ more) i = .ok len next) (hle : next ≤ buf.length) :
    parseLength bits buf i = .ok len next := by
  have hsettled : parseLength bits buf i ≠ .needMore := by
    obtain ⟨h7, -, -⟩ | ⟨h7, -, rfl, -⟩ | ⟨h7, -, rfl, -⟩ := parseLength_ok h
    · rw [parseLength_short h7]
      exact nofun
    · rw [parseLength_ext16 h7, if_neg (Nat.not_lt.mpr hle)]
      exact nofun
    · rw [parseLength_ext64 h7, if_neg (Nat.not_lt.mpr hle)]
      split <;> exact nofun
  rwa [parseLength_append hsettled] at h

theorem readMask_of_append (h : readMask bits (buf ++ more) i = .ok key next) (hle : next ≤ buf.length) :
    readMask bits buf i = .ok key next := by
  have hsettled : readMask bits buf i ≠ .needMore := by
    obtain ⟨-, rfl, -⟩ | ⟨hm, -⟩ := readMask_ok h
    · exact fun hc => absurd (readMask_needMore hc) (Nat.not_lt.mpr hle)
    · rw [readMask_clear hm]
      exact nofun
  rwa [readMask_append hsettled] at h

/-- A header that parses and ends within the first octets parses from those alone. -/
theorem parseChecked_of_append {cfg : Config} (h : parseChecked cfg (buf ++ more) st = .ok bits len key next)
    (hle : next ≤ buf.length) : parseChecked cfg buf st = .ok bits len key next := by
  obtain ⟨q, hhead, hlen, hmask⟩ := parseFull_ok (parseChecked_ok_parseFull h)
  have hq : q ≤ next := by obtain ⟨-, rfl, -⟩ | ⟨-, rfl, -⟩ := readMask_ok hmask <;> omega
  have hst : st + 2 ≤ q := by
    obtain ⟨-, -, rfl⟩ | ⟨-, -, rfl, -⟩ | ⟨-, -, rfl, -⟩ := parseLength_ok hlen <;> omega
  have hsettled : parseHeader buf st ≠ .needMore := fun hc => absurd (parseHeader_needMore hc) (by omega)
  have hhead' : parseHeader buf st = .ok bits (st + 2) := parseHeader_append hsettled more ▸ hhead
  unfold parseChecked at h ⊢
  rw [hhead] at h
  rw [hhead']
  simp only at h ⊢
  split_ifs at h ⊢
  simp only [parseRest, parseLength_of_append hlen (hq.trans hle), readMask_of_append hmask hle]

end Sys2Proof

/-! ## A fetch whose frame is returned (43_frame_reader.md R161, R163; 45_facade.md R230 to R232) -/

namespace Sys2Proof.Machine

variable {s t : State} {call : HeaderCall} {octets : List Byte} {bits : BitVec 16} {len next : Nat} {key : Key}

/-- The opcodes whose frame a fetch returns to its command: data frames, and for `READ_RAW_FRAME_HEADER` control frames
too (R163, R232). -/
def Returns (call : HeaderCall) (op : BitVec 4) : Prop :=
  op.toNat ∈ [0, 1, 2] ∨ call = .rawFrameHeader ∧ op.toNat ∈ [8, 9, 10]

/-- `s` with a header parsed at `ST` latched. -/
def State.headed (s : State) (bits : BitVec 16) (len next : Nat) (key : Key) : State :=
  { s with r := { s.r with
      HDR := bits, KEY := key, I := s.r.ST + next, START := ((s.r.ST + next : Nat) : Int), MORE := len } }

theorem latch_ofParsed {cfg : Config} (hp : parseChecked cfg octets 0 = .ok bits len key next) (s : State) :
    latch (hdrOpcode bits) (Head.ofParsed bits len key) s = s.headed bits len next key := by
  obtain ⟨hbits, hsize, hlen, hkey, -⟩ := parseChecked_head hp
  simp only [latch, hbits, hsize, hlen, hkey]
  rfl

theorem dispatchOpcode_returns {op : BitVec 4} (hr : s.reader = .header call .fetch) (hop : Returns call op)
    (h : Head) : dispatchOpcode op h s = .next (returnFrame call op (latch op h s)) := by
  simp only [Returns, List.mem_cons, List.not_mem_nil, or_false] at hop
  obtain hdata | ⟨rfl, hcontrol⟩ := hop
  · exact dispatchOpcode_data hr
      (hdata.imp BitVec.eq_of_toNat_eq (Or.imp BitVec.eq_of_toNat_eq BitVec.eq_of_toNat_eq))
  · exact dispatchOpcode_raw hr
      (hcontrol.imp BitVec.eq_of_toNat_eq (Or.imp BitVec.eq_of_toNat_eq BitVec.eq_of_toNat_eq))

section
variable (hr : s.reader = .header call .fetch) (ho : fetchOctets s = some octets)
  (hp : parseChecked s.cfg octets 0 = .ok bits len key next) (hop : Returns call (hdrOpcode bits))
include hr ho hp hop

theorem readerMove_returns :
    readerMove s = .go (returnFrame call (hdrOpcode bits) (s.headed bits len next key)) := by
  rw [readerMove_fetch_ok hr ho hp, dispatchOpcode_returns hr hop, latch_ofParsed hp]
  rfl

/-- A header command ends with the return of its frame. -/
theorem runReader_returns (hc : ∀ n, call ≠ .read n) (n : Nat) :
    runReader (n + 1) s = .next (returnFrame call (hdrOpcode bits) (s.headed bits len next key)) :=
  (runReader_go (readerMove_returns hr ho hp hop)).trans <| runReader_idle n <| by
    cases call with
    | read n => exact absurd rfl (hc n)
    | _ => rfl

end

/-- A header whole in the buffer is returned by the command's first move. -/
theorem exec_headerCommand_returns {i : Instr} (hc : FetchesFor i call) (hread : ∀ n, call ≠ .read n)
    (hl : s.RLOCK = none) (hs : s.r.RSTATE ≠ .closed) (hm : s.r.MORE = 0)
    (ho : s.r.RBUF.readBytes s.r.I (s.r.END - s.r.I) = some octets)
    (hp : parseChecked s.cfg octets 0 = .ok bits len key next) (hop : Returns call (hdrOpcode bits)) :
    exec i s = .next (returnFrame call (hdrOpcode bits)
      ((beginFetch call { s with RLOCK := some .reader }).headed bits len next key)) :=
  (exec_headerCommand hc hl hs hm).trans
    (runReader_returns (s := beginFetch call { s with RLOCK := some .reader }) rfl ho hp hop hread _)

theorem fetchesFor_frameHeader : FetchesFor .readFrameHeader .frameHeader := ⟨0, by simp⟩

theorem fetchesFor_rawFrameHeader : FetchesFor .readRawFrameHeader .rawFrameHeader := ⟨0, by simp⟩

/-- The known opcodes are those `READ_RAW_FRAME_HEADER` returns. -/
theorem returns_raw {op : BitVec 4} (h : op.toNat ∈ [0, 1, 2, 8, 9, 10]) : Returns .rawFrameHeader op := by
  simp only [Returns, true_and]
  exact List.mem_append.mp h

/-- Settles O32: the header stands whole in the buffer, and its frame is returned by the first move. -/
theorem readFrameHeaderReturnsTheNextDataFrame : Obligations.ReadFrameHeaderReturnsTheNextDataFrame := by
  intro s octets bits len next key hl hs hm ho hp hop
  rw [exec_headerCommand_returns fetchesFor_frameHeader nofun hl hs hm ho hp (.inl hop), hl]
  rfl

/-- Settles O33: the same for every known opcode. -/
theorem readRawFrameHeaderReturnsAnyKnownFrame : Obligations.ReadRawFrameHeaderReturnsAnyKnownFrame := by
  intro s octets bits len next key hl hs hm ho hp hop
  rw [exec_headerCommand_returns fetchesFor_rawFrameHeader nofun hl hs hm ho hp (returns_raw hop), hl]
  rfl

end Sys2Proof.Machine

/-! ## A header whose octets arrive in pieces (43_frame_reader.md R161; 20_memory.md R64) -/

namespace Sys2Proof.Machine

variable {s t : State} {call : HeaderCall} {bits : BitVec 16} {len next : Nat} {key : Key} {tail : List RxAnswer}
  {reads : List Transaction}

/-- The last octets of a slice that is read. -/
theorem readBytes_drop {m : Memory} {a n k : Nat} {bs : List Byte} (hb : m.readBytes a n = some bs) :
    m.readBytes (a + k) (n - k) = some (bs.drop k) := by
  rw [readBytes_eq_some_iff] at hb ⊢
  obtain ⟨hlen, hbytes⟩ := hb
  refine ⟨by rw [List.length_drop, hlen], fun j hj => ?_⟩
  rw [List.getElem?_drop, Nat.add_assoc]
  exact hbytes _ (by omega)

/-- The latch consumes the header's octets and no other (R161). -/
theorem unread_headed (hc : CursorInv s) (hI : s.r.I = s.r.ST) (hfirst : s.r.ST + next ≤ s.r.END) :
    unread (s.headed bits len next key) = (unread s).drop next := by
  obtain ⟨bs, hb, hlen⟩ := hc.buffered
  have hrest : s.r.RBUF.readBytes (s.r.ST + next) (s.r.END - (s.r.ST + next)) = some (bs.drop next) := by
    rw [← hI, ← Nat.sub_sub]
    exact readBytes_drop hb
  rw [unread, unread, hb, Option.getD_some, List.drop_append_of_le_length (by omega)]
  simp only [State.headed, hrest, Option.getD_some]

/-- `fill` in a fetch gathers: it takes nothing, and the header stays where `I` stands (42_read_buffer.md R154). -/
theorem fill_gathers (hi : CursorInv s) (hI : s.r.I = s.r.ST) (hrx : Chunked tail s) (hf : fill s = some t) :
    Gathers tail s t [] := by
  have htaken := fill_taken hi hf
  have hcursors := (fill_cursorInv hi hf).1
  have hlen := fill_unread_length hf
  obtain ⟨rbuf, ix, en, start, rfl⟩ := fill_fetching hf hI
  exact ⟨⟨htaken, hcursors, rfl, hrx, fun h => ⟨rfl, h⟩⟩, rfl, by rw [← hI]; exact hlen.ge⟩

/-- A fetch whose header is in hand, buffered or in chunks, comes to have it whole in the buffer, with no `TRead` where
it is so already. -/
theorem runReader_fetch_gathers {n : Nat} (hi : s.Inv) (hr : s.reader = .header call .fetch) (hrx : Chunked [] s)
    (hp : parseChecked s.cfg (unread s) 0 = .ok bits len key next) (hn : work s < n) :
    ∃ (m : Nat) (u : State) (reads : List Transaction) (octets : List Byte),
      runReader n s = runReader (m + 1) u ∧ Gathers [] s u reads ∧ fetchOctets u = some octets ∧
      parseChecked u.cfg octets 0 = .ok bits len key next ∧ (next ≤ s.r.END - s.r.I → reads = []) := by
  induction n generalizing s with
  | zero => exact absurd hn (Nat.not_lt_zero _)
  | succ n ih =>
    have hI := hi.atHeader hr
    obtain ⟨octets, ho, hlen, hu⟩ := fetchOctets_unread hi.cursors hI
    rw [hu] at hp
    by_cases hwhole : next ≤ octets.length
    · exact ⟨n, s, [], octets, rfl, ⟨Drawn.refl hi.cursors hrx, hI, le_rfl⟩, ho, parseChecked_of_append hp hwhole,
        fun _ => rfl⟩
    have hpo : parseChecked s.cfg octets 0 = .needMore := by
      by_contra hsettled
      rw [parseChecked_append hsettled] at hp
      obtain ⟨-, -, -, -, -, hle, -⟩ := parseChecked_head hp
      exact hwhole hle
    obtain ⟨chunks, hchunks⟩ := hrx
    cases chunks with
    | nil =>
      rw [hchunks] at hp
      obtain ⟨-, -, -, -, -, hle, -⟩ := parseChecked_head hp
      exact absurd (List.append_nil octets ▸ hle) hwhole
    | cons c chunks =>
      obtain ⟨s1, hf⟩ := fill_isSome_of_header hi.cursors hi.size (hlen ▸ parseChecked_needMore hpo)
      have hroom := fill_gathers hi.cursors hI ⟨_, hchunks⟩ hf
      obtain ⟨k, t, reads, hread, hg⟩ := readOnce_gathers hroom.drawn.cursors hroom.atHeader
        ((congrArg Inputs.rx (fill_env hf)).trans hchunks)
      have hst := hroom.trans hg
      have hgo : readerMove s = .go t := by
        rw [readerMove_fetch_more hr ho hpo, fetchMore, hf]
        simp only [hread, if_true]
      have hkeeps := readerMove_keeps hi
      have hworks := readerMove_works hi
      rw [hgo] at hkeeps hworks
      have hless : work t < work s := hworks
      have hpt : parseChecked t.cfg (unread t) 0 = .ok bits len key next := by
        rw [hst.drawn.taken.cfg, ← List.nil_append (unread t), ← hst.drawn.taken.unread, hu]
        exact hp
      obtain ⟨m, u, reads', octets', hrun, hgu, hrest⟩ := ih hkeeps.inv (hst.drawn.taken.reader.trans hr)
        hst.drawn.chunked hpt (by omega)
      obtain ⟨ho', hp', -⟩ := hrest
      exact ⟨m, u, _, octets', (runReader_go hgo).trans hrun, hst.trans hgu, ho', hp', fun h => absurd h (by omega)⟩

/-- The two header commands of R231 and R232, each with what it fetches for. -/
theorem headerCommand_returning {i : Instr} {code : Byte} {ops : List Nat} {op : BitVec 4}
    (hc : (i, code, ops) ∈ [(Instr.readFrameHeader, (0x01 : Byte), [0, 1, 2]),
      (.readRawFrameHeader, 0x02, [0, 1, 2, 8, 9, 10])]) (hop : op.toNat ∈ ops) :
    ∃ call, FetchesFor i call ∧ Returns call op ∧ (∀ n, call ≠ .read n) ∧ ∀ s, returnFrame call op s =
      endRead code (.header op (hdrFin s.r.HDR) s.r.MORE) { s with r := { s.r with RSTATE := .inDataFrame } } := by
  simp only [List.mem_cons, Prod.mk.injEq, List.not_mem_nil, or_false] at hc
  obtain ⟨rfl, rfl, rfl⟩ | ⟨rfl, rfl, rfl⟩ := hc
  · exact ⟨.frameHeader, fetchesFor_frameHeader, .inl hop, nofun, fun _ => rfl⟩
  · exact ⟨.rawFrameHeader, fetchesFor_rawFrameHeader, returns_raw hop, nofun, fun _ => rfl⟩

/-- Settles O34: the fetch gathers its header into the buffer, and then returns its frame. -/
theorem aHeaderIsFoundHoweverItsOctetsArrive : Obligations.AHeaderIsFoundHoweverItsOctetsArrive := by
  intro s i code ops bits len next key hc hi hl hs hm ha hp hop
  obtain ⟨call, hfor, hreturns, hread, hreturn⟩ := headerCommand_returning hc hop
  have hi0 := beginFetch_inv hi hl hm hs call
  obtain ⟨m, u, reads, octets, hrun, hg, ho, hpu, hnone⟩ :=
    runReader_fetch_gathers hi0 rfl (chunked_of_dataOnly ha) hp (work_lt_moveBound hi0.cursors)
  have hend := runReader_returns (hg.drawn.taken.reader.trans rfl) ho hpu hreturns hread m
  rw [hreturn] at hend
  have hfirst : u.r.ST + next ≤ u.r.END := by
    obtain ⟨-, -, -, -, hpos, hle, -⟩ := parseChecked_head hpu
    have hlen : octets.length = u.r.END - u.r.ST := readBytes_length ho
    omega
  have hu := unread_headed (bits := bits) (len := len) (key := key) hg.drawn.cursors hg.atHeader hfirst
  have hreceived := hg.drawn.received
  rw [← List.nil_append (unread u), ← hg.drawn.taken.unread] at hu
  obtain ⟨rbuf, st, en, start, rx, rfl⟩ := hg.frame
  refine ⟨_, reads, ((exec_headerCommand hfor hl hs hm).trans hrun).trans hend, ?_, rfl, hu, hreceived, hnone⟩
  rw [hl, hi.reader_idle hl]
  rfl

end Sys2Proof.Machine

/-! ## The delivery of `READ` (45_facade.md R230) -/

namespace Sys2Proof.Machine

variable {s t u : State} {want : Nat} {reads : List Transaction}

/-- From `s` to `t` a `READ` delivered the next `want` octets of the stream, by the transactions `reads`, and
returned. -/
structure ReadDelivers (want : Nat) (s t : State) (reads : List Transaction) : Prop where
  frame : t = { s with
    r := { s.r with
      RBUF := t.r.RBUF, ST := t.r.ST, I := t.r.I, END := t.r.END, START := t.r.START, MORE := s.r.MORE - want
      RSTATE := if want = s.r.MORE then .betweenFrames else s.r.RSTATE }
    RLOCK := none
    reader := .idle
    env := { s.env with rx := t.env.rx }
    responses := ⟨0x04, .delivered (mask ((unread s).take want) s.r.KEY (maskOffset s.r)) .ok⟩ :: s.responses
    trace := reads ++ s.trace }
  unread : unread t = (unread s).drop want
  offset : (t.r.I : Int) - t.r.START = s.r.I - s.r.START + want
  received : rxStream s.env.rx = receivedOctets reads ++ rxStream t.env.rx
  reads : DeliveryReads s.cfg.rbufSize (want - (s.r.END - s.r.I)) reads

/-- Octets that are buffered are delivered with no `TRead` (20_memory.md R65). -/
theorem ReadDelivers.untouched (h : ReadDelivers want s t reads) (hle : want ≤ s.r.END - s.r.I) : reads = [] :=
  deliveryReads_zero (Nat.sub_eq_zero_of_le hle ▸ h.reads)

/-- With enough octets of the payload in hand the delivery has all it wants (R171). -/
theorem runReader_read_delivers {n : Nat} (hi : CursorInv s) (hsize : 32 ≤ s.cfg.rbufSize) (ha : DataOnly s.env.rx)
    (hmore : want ≤ s.r.MORE) (henough : want ≤ (unread s).length) (hn : work s < n) :
    ∃ t reads, runReader n (s.placed (.deliver .read want []) s.r.CBUF) = .next t ∧ ReadDelivers want s t reads := by
  obtain ⟨m, u, reads, hrun, hd, hu⟩ := (deliverLoop .read want s.r.CBUF).fills (inHand := unread s) hi hsize hmore
    (chunked_of_dataOnly ha) hn (List.append_nil _).symm henough
  have hlen : ((unread s).take want).length = want := List.length_take_of_le henough
  have hoffset := hd.drawn.taken.offset
  have hreceived := hd.drawn.received
  have hleft : u.r.MORE = s.r.MORE - want := Nat.eq_sub_of_add_eq (hlen ▸ hd.drawn.taken.more)
  have hend : (s.r.MORE - want = 0) = (want = s.r.MORE) := propext (by omega)
  obtain ⟨rbuf, st, ix, en, start, rx, rfl⟩ := hd.drawn.frame hleft
  rw [hlen] at hoffset
  refine ⟨_, reads, hrun.trans (runReader_delivered m (by rw [length_mask, hlen])), ?_,
    hu.trans (List.append_nil _), hoffset, hreceived, hd.reads⟩
  simp only [endDelivery, State.placed, true_and, hend]
  rfl

/-- Settles O52: the command begins with the delivery. -/
theorem readDeliversTheRestOfAFrame : Obligations.ReadDeliversTheRestOfAFrame := by
  intro s n want hi hl hs hmore ha henough
  let s0 : State := { s with RLOCK := some .reader }
  have hi0 : CursorInv s0 := hi.cursors.congr rfl rfl
  obtain ⟨t, reads, hrun, hd⟩ := runReader_read_delivers (s := s0) hi0 hi.size ha (Nat.min_le_right n s.r.MORE) henough
    (work_lt_moveBound hi0)
  refine ⟨t, reads, (exec_read_open hl hs hmore n).trans hrun, ?_, hd.unread, hd.offset, hd.received, hd.reads,
    hd.untouched⟩
  rw [hl, hi.reader_idle hl]
  exact hd.frame

/-- `s` with a header parsed at `ST` latched and its frame's payload begun (R163). -/
def State.entered (s : State) (bits : BitVec 16) (len next : Nat) (key : Key) : State :=
  { s.headed bits len next key with r := { (s.headed bits len next key).r with RSTATE := .inDataFrame } }

section
variable {octets : List Byte} {bits : BitVec 16} {len next : Nat} {key : Key}

theorem entered_cursorInv (hc : CursorInv s) (hfirst : s.r.ST + next ≤ s.r.END) (hlen : len ≤ maxLen) :
    CursorInv (s.entered bits len next key) where
  st_le_i := Nat.le_add_right _ _
  i_le_end := hfirst
  end_le_size := hc.end_le_size
  filled := hc.filled
  start_le_i := le_rfl
  payload := by
    simp only [State.entered, State.headed]
    omega

theorem entered_unread (hc : CursorInv s) (hI : s.r.I = s.r.ST) (hfirst : s.r.ST + next ≤ s.r.END) :
    unread (s.entered bits len next key) = (unread s).drop next :=
  (unread_headed hc hI hfirst : unread (s.headed bits len next key) = _)

/-- The first octet of a payload has phase 0 (10_state.md R39). -/
theorem entered_phase : ((s.entered bits len next key).r.I : Int) - (s.entered bits len next key).r.START = 0 :=
  Int.sub_self _

theorem entered_maskOffset : maskOffset (s.entered bits len next key).r = 0 := by
  rw [maskOffset, entered_phase, Int.toNat_zero]

theorem entered_work (hI : s.r.I = s.r.ST) : work (s.entered bits len next key) ≤ work s := by
  simp only [work, State.entered, State.headed, hI]
  omega

/-- `READ` between frames, a data header whole in the buffer, enters the frame with its first move (R163, R230). -/
theorem exec_read_enters {n : Nat} (hl : s.RLOCK = none) (hs : s.r.RSTATE ≠ .closed) (hm : s.r.MORE = 0)
    (ho : s.r.RBUF.readBytes s.r.I (s.r.END - s.r.I) = some octets)
    (hp : parseChecked s.cfg octets 0 = .ok bits len key next) (hop : (hdrOpcode bits).toNat ∈ [0, 1, 2]) :
    exec (.read n) s = runReader (4 * (s.r.END + readyOctets s.env.rx) + 7)
      (((beginFetch (.read n) { s with RLOCK := some .reader }).entered bits len next key).placed
        (.deliver .read (min n len) []) s.r.CBUF) :=
  (exec_headerCommand ⟨n, by simp⟩ hl hs hm).trans (runReader_go
    (readerMove_returns (s := beginFetch (.read n) { s with RLOCK := some .reader }) rfl ho hp (.inl hop)))

end

/-- Settles O53: the frame is entered by the first move, and the delivery takes the octets behind its header. -/
theorem readFetchesAFrameAndDelivers : Obligations.ReadFetchesAFrameAndDelivers := by
  intro s n octets bits len next key want hi hl hs hm ho hp hop ha henough
  let s0 : State := beginFetch (.read n) { s with RLOCK := some .reader }
  have hi0 : s0.Inv := beginFetch_inv hi hl hm hs (.read n)
  obtain ⟨-, -, -, -, hpos, hnext, hmax⟩ := parseChecked_head hp
  rw [readBytes_length ho] at hnext
  have hfirst : s.r.I + next ≤ s.r.END := by omega
  have hu : unread (s0.entered bits len next key) = (unread s).drop next := entered_unread hi0.cursors rfl hfirst
  have hwork : work s0 < 4 * (s.r.END + readyOctets s.env.rx) + 7 := by
    simp only [work, s0, beginFetch, phaseWork]
    omega
  obtain ⟨t, reads, hrun, hd⟩ := runReader_read_delivers (s := s0.entered bits len next key)
    (entered_cursorInv hi0.cursors hfirst hmax) hi.size ha (Nat.min_le_right n len)
    (by rw [hu, List.length_drop]; omega) ((entered_work rfl).trans_lt hwork)
  have hframe := hd.frame
  have hoffset := hd.offset
  have hunread := hd.unread
  rw [hu, entered_maskOffset] at hframe
  rw [entered_phase, Int.zero_add] at hoffset
  rw [hu, List.drop_drop] at hunread
  refine ⟨t, reads, (exec_read_enters hl hs hm ho hp hop).trans hrun, ?_, hunread, hoffset, hd.received, hd.reads,
    fun hle => hd.untouched (Nat.le_sub_of_add_le' (by show s.r.I + next + want ≤ s.r.END; omega))⟩
  rw [hl, hi.reader_idle hl]
  exact hframe

end Sys2Proof.Machine

/-! ## The one fault (60_exceptions.md R263; 10_state.md R21) -/

namespace Sys2Proof.Machine

/-- Settles O21: what every event keeps leaves a step no outcome but a next state and `PANIC`. -/
theorem noStepIsRefusedAndThePanicIsTheOnlyFault : Obligations.NoStepIsRefusedAndThePanicIsTheOnlyFault := by
  intro s hi
  have hkeeps := step_keeps hi
  cases hstep : step s with
  | next t => exact .inl ⟨t, rfl⟩
  | fault f =>
    rw [hstep] at hkeeps
    obtain rfl : f = .panic := hkeeps
    exact .inr rfl
  | refused r =>
    rw [hstep] at hkeeps
    exact hkeeps.elim

end Sys2Proof.Machine

/-! ## A closed reader (60_exceptions.md R268, R271) -/

namespace Sys2Proof.Machine

variable {s : State}

/-! ### The R port in `Closed` (45_facade.md R230 to R232; 43_frame_reader.md R172) -/

theorem headerCommand_closed (hl : s.RLOCK = none) (hc : s.r.RSTATE = .closed) (i : Instr) (call : HeaderCall) :
    headerCommand i call s = .next (answerClosed (headerCallCode call) false s) := by
  rw [headerCommand, acquireRead_free hl, if_pos hc]

theorem execAppendFrame_closed (hl : s.RLOCK = none) (hc : s.r.RSTATE = .closed) (n : Nat) :
    execAppendFrame n s = .next (answerClosed 0x03 true s) := by
  rw [execAppendFrame, acquireRead_free hl, if_pos hc]

theorem execRead_closed (hl : s.RLOCK = none) (hc : s.r.RSTATE = .closed) (n : Nat) :
    execRead n s = .next (answerClosed 0x04 true s) := by
  rw [execRead, acquireRead_free hl, if_pos hc]

/-- Every command of the R port is answered from `RERR`. -/
theorem exec_readPort_closed {i : Instr} (hl : s.RLOCK = none) (hc : s.r.RSTATE = .closed)
    (h : onReadPort i = true) : ∃ code counts, exec i s = .next (answerClosed code counts s) := by
  cases i with
  | readFrameHeader => exact ⟨_, _, headerCommand_closed hl hc _ _⟩
  | readRawFrameHeader => exact ⟨_, _, headerCommand_closed hl hc _ _⟩
  | appendFrame n => exact ⟨_, _, execAppendFrame_closed hl hc n⟩
  | read n => exact ⟨_, _, execRead_closed hl hc n⟩
  | _ => cases h

/-! ### No step changes the reader's registers in `Closed` -/

/-- A fatal status ended the command that met it (R268), so in `Closed` none is under way. -/
theorem State.Inv.reader_idle_of_closed (hi : s.Inv) (hc : s.r.RSTATE = .closed) : s.reader = .idle := by
  have hplace := hi.reader
  unfold ReaderInv at hplace
  split at hplace
  · assumption
  all_goals exact absurd hc hplace.1

/-- In `Closed` no command of the R port has to wait (10_state.md R36). -/
theorem State.Inv.rlock_free_of_closed (hi : s.Inv) (hc : s.r.RSTATE = .closed) : s.RLOCK = none := by
  rw [hi.rlock, if_pos (hi.reader_idle_of_closed hc)]

/-- What goes on from `s` leaves the reader's registers as they are. -/
def LeavesReaderRegs (s : State) (o : Outcome) : Prop := ∀ t, o = .next t → t.r = s.r

theorem LeavesReaderRegs.next {t : State} (h : t.r = s.r) : LeavesReaderRegs s (.next t) := by
  rintro _ ⟨⟩
  exact h

theorem OutcomeWKeeps.leavesReaderRegs {o : Outcome} (h : OutcomeWKeeps s o) : LeavesReaderRegs s o := by
  rintro t rfl
  exact h.frame.r

/-- The R port answers at once, the W port never touches the reader's registers, the C port touches none. -/
theorem exec_command_closed {i : Instr} (hi : s.Inv) (hc : s.r.RSTATE = .closed) (hf : isFrame i = false) :
    LeavesReaderRegs s (exec i s) := by
  cases hr : onReadPort i with
  | true =>
    obtain ⟨code, counts, h⟩ := exec_readPort_closed (hi.rlock_free_of_closed hc) hc hr
    exact h ▸ .next rfl
  | false =>
    cases hw : onWritePort i with
    | true =>
      cases hl : s.WLOCK with
      | none => exact (exec_writePort_keeps hi hl hw).leavesReaderRegs
      | some a =>
        obtain h | ⟨code, result, h⟩ := exec_writePort_held hl hw
        · exact h ▸ .next rfl
        · exact h ▸ .next rfl
    | false =>
      obtain ⟨code, result, h⟩ := exec_codecPort hf hr hw s
      exact h ▸ .next rfl

theorem hostTurn_closed (hi : s.Inv) (hc : s.r.RSTATE = .closed) (c : Command) :
    LeavesReaderRegs s (hostTurn c s) := by
  unfold hostTurn
  cases hd : decodeCommand c with
  | some i => exact exec_command_closed hi hc (isFrame_of_decodeCommand hd)
  | none => exact .next rfl

/-- A closed reader is idle: its turn does nothing, or takes a command that is answered at once. -/
theorem readerTurn_closed (hi : s.Inv) (hc : s.r.RSTATE = .closed) (pick : Nat) :
    LeavesReaderRegs s (readerTurn pick s) := by
  have hidle := hi.reader_idle_of_closed hc
  obtain h | ⟨i, hpick, -, h⟩ | ⟨call, hr, -⟩ | ⟨call, octets, i, size, hr, -⟩ | h := readerTurn_cases pick s
  · exact h ▸ .next rfl
  · have hrest : ∀ j ∈ s.rWait.eraseIdx pick, onReadPort j = true := fun j hj =>
      hi.rWait j (List.mem_of_mem_eraseIdx hj)
    have hport := isFrame_of_onReadPort (hi.rWait i (List.mem_of_getElem? hpick))
    exact h ▸ exec_command_closed (hi.with_waiting hrest hi.wWait) hc hport
  · exact absurd (hidle.symm.trans hr) nofun
  · exact absurd (hidle.symm.trans hr) nofun
  · rw [h, runReader_idle _ hidle]
    exact .next rfl

theorem writerTurn_leavesReaderRegs (hi : s.Inv) (pick : Nat) : LeavesReaderRegs s (writerTurn pick s) := by
  intro t h
  obtain ⟨waiting, hf⟩ := writerTurn_frame hi h
  exact hf.r

theorem takeEvent_closed (hi : s.Inv) (hc : s.r.RSTATE = .closed) (e : Event) :
    LeavesReaderRegs s (takeEvent e s) := by
  cases e with
  | reader pick => exact readerTurn_closed hi hc pick
  | writer pick => exact writerTurn_leavesReaderRegs hi pick
  | host c => exact hostTurn_closed hi hc c
  | cancel level => exact .next rfl
  | rx a => exact .next rfl
  | tx a => exact .next rfl
  | closeAnswer a => exact .next rfl
  | rand k => exact .next rfl

theorem step_closed (hi : s.Inv) (hc : s.r.RSTATE = .closed) : LeavesReaderRegs s (step s) := by
  cases he : s.events with
  | nil =>
    simp only [step, he]
    exact .next rfl
  | cons e rest =>
    rw [step_cons he]
    exact takeEvent_closed (hi.with_events rest) hc e

/-- Settles O29: each command's answer is `answerClosed`, and no event reaches a register of a closed reader. -/
theorem aClosedReaderAnswersItsStatusForEver : Obligations.AClosedReaderAnswersItsStatusForEver :=
  ⟨fun _ hl hc => ⟨headerCommand_closed hl hc _ _, headerCommand_closed hl hc _ _, execAppendFrame_closed hl hc,
    execRead_closed hl hc⟩,
    fun _ t hi hc => step_closed hi hc t⟩

end Sys2Proof.Machine
